-- ==== Sys2Proof/Word.lean ====
section
/-! DEFINITION. The data widths of the NES core (00_scope.md R7, R10). -/

namespace Sys2Proof

/-- A byte: every register but `PC` and every bus transfer (R7). -/
abbrev Byte := BitVec 8

/-- A 16-bit value: `PC` and a CPU bus address (R7). -/
abbrev Word := BitVec 16

/-- The PPU's `v` and `t` registers (R33). -/
abbrev Scroll := BitVec 15

/-- A cell of the pixel grid: a 6-bit colour index (R42). -/
abbrev Colour := BitVec 6

/-- A cycle count: "an unsigned 32-bit number" (R133, R472). -/
abbrev Cycles := BitVec 32

end Sys2Proof
end

