-- ==== Sys2Proof/Config.lean ====
section
/-! DEFINITION. What an implementation fixes (00_scope.md R8) and the values the spec leaves open (R9). -/

namespace Sys2Proof

/-- Which PRG bank the serial-shift mapper fixes in the low window in PRG mode 2 (R8 `SS_MODE2_FIXED_LOW_BANK`, R387). -/
inductive FixedLowBank
  | last
  | first
  deriving DecidableEq, Repr

/-- Which controller collaborator stands behind port 0x4016: the open oracle of R81, or the reference model of R82. -/
inductive ControllerKind
  | openOracle
  | reference
  deriving DecidableEq, Repr

/-- The parameters of R8 and the choice of R82. They are constants of a run; `State` carries them so that a claim
about every state is a claim about every value of them. -/
structure Params where
  /-- `UNMAPPED_CYCLES` -/
  unmappedCycles : Cycles
  /-- `NMI_CYCLES` -/
  nmiCycles : Cycles
  /-- `OAM_DMA_CYCLES` -/
  oamDmaCycles : Cycles
  /-- `PAGE_CROSS_ON_ALL` -/
  pageCrossOnAll : Bool
  /-- `SS_MODE2_FIXED_LOW_BANK` -/
  fixedLow : FixedLowBank
  /-- the controller collaborator -/
  controller : ControllerKind
  deriving DecidableEq, Repr

/-- The defaults of R8; the controller is left open (R9, D16; log 7). -/
def Params.default : Params where
  unmappedCycles := 2
  nmiCycles := 7
  oamDmaCycles := 0
  pageCrossOnAll := true
  fixedLow := .last
  controller := .openOracle

/-- `MEM_INIT` (R8): what a byte that nothing has written reads as. DESIGN CHOICE of the model to take the spec's
default 0x00 (log 4). -/
def Config.memInit : Byte := 0x00

/-- Free value: the byte the open controller answers on its n-th draw (R81, U4; log 7). -/
opaque Config.freeControllerByte : Nat → Byte

/-- Free value: what the open controller shows to a `peek` (R84 `ControllerPeek`; log 7). -/
opaque Config.freeControllerPeek : Nat → Byte

/-- Free value: the PRG byte at a bus address while no cartridge is loaded (R455; log 8). No step reads it. -/
opaque Config.freeAbsentPrg : Nat → Byte

/-- Free value: the CHR byte at a PPU address while no cartridge is loaded (R455; log 8). No step reads it. -/
opaque Config.freeAbsentChr : Nat → Byte

/-- Free function: `SystemPalette` (R9), the 32-bit RGBA value of a colour index (log 9). -/
opaque Config.systemPalette : Colour → BitVec 32

end Sys2Proof
end

