-- ==== Sys2Proof/Syntax.lean ====
section
/-! DEFINITION. The instructions of the CPU Core: one constructor per mnemonic of spec/opcode_table.json; the operand
of a constructor says which row (addressing mode) of the table it is (30_encoding.md R135, R148, R149). -/

namespace Sys2Proof

/-- The thirteen addressing modes of R135. -/
inductive Mode
  | implied
  | accumulator
  | immediate
  | zeropage
  | zeropageX
  | zeropageY
  | absolute
  | absoluteX
  | absoluteY
  | indirect
  | indexedIndirect
  | indirectIndexed
  | relative
  deriving DecidableEq, Repr

/-- An operand in a mode that designates a memory address, with its operand bytes (R139 to R145). -/
inductive MemOperand
  | zeropage (b : Byte)
  | zeropageX (b : Byte)
  | zeropageY (b : Byte)
  | absolute (w : Word)
  | absoluteX (w : Word)
  | absoluteY (w : Word)
  | indirect (w : Word)
  | indexedIndirect (b : Byte)
  | indirectIndexed (b : Byte)
  deriving DecidableEq, Repr

/-- The operand of an instruction that reads a value: `imm(b)` or `mem(ea)` (R138, R169). -/
inductive Source
  | immediate (b : Byte)
  | mem (m : MemOperand)
  deriving DecidableEq, Repr

/-- The operand of a shift or rotate: `acc` or `mem(ea)` (R137, R220). -/
inductive Target
  | accumulator
  | mem (m : MemOperand)
  deriving DecidableEq, Repr

/-- The instructions. -/
inductive Instr
  -- load, store, transfer
  | lda (src : Source)
  | ldx (src : Source)
  | ldy (src : Source)
  | sta (m : MemOperand)
  | stx (m : MemOperand)
  | sty (m : MemOperand)
  | tax
  | tay
  | txa
  | tya
  | tsx
  | txs
  -- arithmetic, logic, compare, bit test, increment and decrement
  | adc (src : Source)
  | sbc (src : Source)
  | and (src : Source)
  | ora (src : Source)
  | eor (src : Source)
  | cmp (src : Source)
  | cpx (src : Source)
  | cpy (src : Source)
  | bit (src : Source)
  | inc (m : MemOperand)
  | dec (m : MemOperand)
  | inx
  | iny
  | dex
  | dey
  -- shifts and rotates
  | asl (d : Target)
  | lsr (d : Target)
  | rol (d : Target)
  | ror (d : Target)
  -- control transfer
  | jmp (m : MemOperand)
  | jsr (w : Word)
  | rts
  | bcc (off : Byte)
  | bcs (off : Byte)
  | beq (off : Byte)
  | bne (off : Byte)
  | bmi (off : Byte)
  | bpl (off : Byte)
  | bvc (off : Byte)
  | bvs (off : Byte)
  -- stack, flags, system
  | pha
  | pla
  | php
  | plp
  | clc
  | sec
  | cli
  | sei
  | cld
  | sed
  | clv
  | nop
  | brk
  | rti
  -- the fallback, with the opcode byte that is absent from the table
  | unmapped (op : Byte)
  deriving DecidableEq, Repr

/-- The addressing mode of a memory operand. -/
def MemOperand.mode : MemOperand → Mode
  | .zeropage _ => .zeropage
  | .zeropageX _ => .zeropageX
  | .zeropageY _ => .zeropageY
  | .absolute _ => .absolute
  | .absoluteX _ => .absoluteX
  | .absoluteY _ => .absoluteY
  | .indirect _ => .indirect
  | .indexedIndirect _ => .indexedIndirect
  | .indirectIndexed _ => .indirectIndexed

/-- The addressing mode of a source operand. -/
def Source.mode : Source → Mode
  | .immediate _ => .immediate
  | .mem m => m.mode

/-- The addressing mode of a shift's operand. -/
def Target.mode : Target → Mode
  | .accumulator => .accumulator
  | .mem m => m.mode

/-- The addressing mode of an instruction: the `format` of its row in spec/opcode_table.json. -/
def Instr.mode : Instr → Mode
  | .lda src | .ldx src | .ldy src | .adc src | .sbc src | .and src | .ora src | .eor src
  | .cmp src | .cpx src | .cpy src | .bit src => src.mode
  | .sta m | .stx m | .sty m | .inc m | .dec m | .jmp m => m.mode
  | .asl d | .lsr d | .rol d | .ror d => d.mode
  | .jsr _ => .absolute
  | .bcc _ | .bcs _ | .beq _ | .bne _ | .bmi _ | .bpl _ | .bvc _ | .bvs _ => .relative
  | .tax | .tay | .txa | .tya | .tsx | .txs | .inx | .iny | .dex | .dey | .rts
  | .pha | .pla | .php | .plp | .clc | .sec | .cli | .sei | .cld | .sed | .clv
  | .nop | .brk | .rti | .unmapped _ => .implied

/-- The length in bytes that a mode fixes (R131, R135). -/
def Mode.length : Mode → Nat
  | .implied | .accumulator => 1
  | .immediate | .zeropage | .zeropageX | .zeropageY | .indexedIndirect | .indirectIndexed | .relative => 2
  | .absolute | .absoluteX | .absoluteY | .indirect => 3

/-- The length of an instruction in bytes (R130). -/
def Instr.length (i : Instr) : Nat := i.mode.length

end Sys2Proof
end

