-- ==== Sys2Proof/WellFormed.lean ====
section
/-! DEFINITION. Which terms of `Instr` are rows of the opcode table (30_encoding.md R148, R149, R151). -/

namespace Sys2Proof

/-- The 105 opcode bytes absent from the table (R151). -/
def unmappedBytes : List Byte :=
  [0x02, 0x03, 0x04, 0x07, 0x0B, 0x0C, 0x0F, 0x12, 0x13, 0x14, 0x17, 0x1A, 0x1B, 0x1C, 0x1F] ++
  [0x22, 0x23, 0x27, 0x2B, 0x2F, 0x32, 0x33, 0x34, 0x37, 0x3A, 0x3B, 0x3C, 0x3F, 0x42, 0x43] ++
  [0x44, 0x47, 0x4B, 0x4F, 0x52, 0x53, 0x54, 0x57, 0x5A, 0x5B, 0x5C, 0x5F, 0x62, 0x63, 0x64] ++
  [0x67, 0x6B, 0x6F, 0x72, 0x73, 0x74, 0x77, 0x7A, 0x7B, 0x7C, 0x7F, 0x80, 0x82, 0x83, 0x87] ++
  [0x89, 0x8B, 0x8F, 0x92, 0x93, 0x97, 0x9B, 0x9C, 0x9E, 0x9F, 0xA3, 0xA7, 0xAB, 0xAF, 0xB2] ++
  [0xB3, 0xB7, 0xBB, 0xBF, 0xC2, 0xC3, 0xC7, 0xCB, 0xCF, 0xD2, 0xD3, 0xD4, 0xD7, 0xDA, 0xDB] ++
  [0xDC, 0xDF, 0xE2, 0xE3, 0xE7, 0xEB, 0xEF, 0xF2, 0xF3, 0xF4, 0xF7, 0xFA, 0xFB, 0xFC, 0xFF]

/-- The modes of the eight-mode group: ADC, SBC, AND, ORA, EOR, CMP, LDA (R170, R192 to R197). -/
def eightModes : List Mode :=
  [.immediate, .zeropage, .zeropageX, .absolute, .absoluteX, .absoluteY, .indexedIndirect, .indirectIndexed]

/-- The four memory modes of INC, DEC and the shifts (R201, R202, R220). -/
def modifyModes : List Mode :=
  [.zeropage, .zeropageX, .absolute, .absoluteX]

/-- An instruction is well formed when spec/opcode_table.json has a row of its mnemonic and mode; the fallback carries an
unmapped byte. -/
def WellFormed : Instr → Bool
  | .lda src => eightModes.contains src.mode
  | .ldx src => [Mode.immediate, .zeropage, .zeropageY, .absolute, .absoluteY].contains src.mode
  | .ldy src => [Mode.immediate, .zeropage, .zeropageX, .absolute, .absoluteX].contains src.mode
  | .sta m =>
    [Mode.zeropage, .zeropageX, .absolute, .absoluteX, .absoluteY, .indexedIndirect, .indirectIndexed].contains m.mode
  | .stx m => [Mode.zeropage, .zeropageY, .absolute].contains m.mode
  | .sty m => [Mode.zeropage, .zeropageX, .absolute].contains m.mode
  | .tax => true
  | .tay => true
  | .txa => true
  | .tya => true
  | .tsx => true
  | .txs => true
  | .adc src => eightModes.contains src.mode
  | .sbc src => eightModes.contains src.mode
  | .and src => eightModes.contains src.mode
  | .ora src => eightModes.contains src.mode
  | .eor src => eightModes.contains src.mode
  | .cmp src => eightModes.contains src.mode
  | .cpx src => [Mode.immediate, .zeropage, .absolute].contains src.mode
  | .cpy src => [Mode.immediate, .zeropage, .absolute].contains src.mode
  | .bit src => [Mode.zeropage, .absolute].contains src.mode
  | .inc m => modifyModes.contains m.mode
  | .dec m => modifyModes.contains m.mode
  | .inx => true
  | .iny => true
  | .dex => true
  | .dey => true
  | .asl d => (Mode.accumulator :: modifyModes).contains d.mode
  | .lsr d => (Mode.accumulator :: modifyModes).contains d.mode
  | .rol d => (Mode.accumulator :: modifyModes).contains d.mode
  | .ror d => (Mode.accumulator :: modifyModes).contains d.mode
  | .jmp m => [Mode.absolute, .indirect].contains m.mode
  | .jsr _ => true
  | .rts => true
  | .bcc _ => true
  | .bcs _ => true
  | .beq _ => true
  | .bne _ => true
  | .bmi _ => true
  | .bpl _ => true
  | .bvc _ => true
  | .bvs _ => true
  | .pha => true
  | .pla => true
  | .php => true
  | .plp => true
  | .clc => true
  | .sec => true
  | .cli => true
  | .sei => true
  | .cld => true
  | .sed => true
  | .clv => true
  | .nop => true
  | .brk => true
  | .rti => true
  | .unmapped op => unmappedBytes.contains op

end Sys2Proof
end

