-- ==== Sys2Proof/Decode.lean ====
section
/-! DEFINITION. Decoding bytes into an instruction, and encoding an instruction into bytes (30_encoding.md R130 to R132,
R148, R149). The decoder is written from the 256-entry map of R148, the encoder from the listing by mnemonic of R149. -/

namespace Sys2Proof

/-- The word whose high byte is `hi` and low byte is `lo`: `hi ++ lo` (R11, R101). -/
def wordOf (hi lo : Byte) : Word := hi ++ lo

/-- Bits 15:8 of a word. -/
def hiByte (w : Word) : Byte := w.extractLsb' 8 8

/-- Bits 7:0 of a word. -/
def loByte (w : Word) : Byte := w.extractLsb' 0 8

/-- What an opcode byte selects: an instruction with no, one or two operand bytes still to come (formats F1, F2, F3 of
R131). -/
inductive Form
  | none (i : Instr)
  | byte (f : Byte → Instr)
  | word (f : Word → Instr)

/-- A reading instruction with a memory operand. -/
def rd (f : Source → Instr) (m : MemOperand) : Instr := f (.mem m)

/-- A shift or rotate with a memory operand. -/
def md (f : Target → Instr) (m : MemOperand) : Instr := f (.mem m)

/-! The cells of R148, one function per mode of R135, and `un` for the cell `-`. -/

def Form.imp (i : Instr) : Form := .none i
def Form.acc (f : Target → Instr) : Form := .none (f .accumulator)
def Form.imm (f : Source → Instr) : Form := .byte fun b => f (.immediate b)
def Form.rel (f : Byte → Instr) : Form := .byte f
def Form.zp (f : MemOperand → Instr) : Form := .byte fun b => f (.zeropage b)
def Form.zpx (f : MemOperand → Instr) : Form := .byte fun b => f (.zeropageX b)
def Form.zpy (f : MemOperand → Instr) : Form := .byte fun b => f (.zeropageY b)
def Form.izx (f : MemOperand → Instr) : Form := .byte fun b => f (.indexedIndirect b)
def Form.izy (f : MemOperand → Instr) : Form := .byte fun b => f (.indirectIndexed b)
def Form.abs (f : MemOperand → Instr) : Form := .word fun w => f (.absolute w)
def Form.abx (f : MemOperand → Instr) : Form := .word fun w => f (.absoluteX w)
def Form.aby (f : MemOperand → Instr) : Form := .word fun w => f (.absoluteY w)
def Form.ind (f : MemOperand → Instr) : Form := .word fun w => f (.indirect w)
def Form.un (op : Byte) : Form := .none (.unmapped op)

/-- Row 0x of the map of R148. -/
def opcodeRow0 : List Form :=
  [.imp .brk, .izx (rd .ora), .un 0x02, .un 0x03, .un 0x04, .zp (rd .ora), .zp (md .asl), .un 0x07,
   .imp .php, .imm .ora, .acc .asl, .un 0x0B, .un 0x0C, .abs (rd .ora), .abs (md .asl), .un 0x0F]

/-- Row 1x of the map of R148. -/
def opcodeRow1 : List Form :=
  [.rel .bpl, .izy (rd .ora), .un 0x12, .un 0x13, .un 0x14, .zpx (rd .ora), .zpx (md .asl), .un 0x17,
   .imp .clc, .aby (rd .ora), .un 0x1A, .un 0x1B, .un 0x1C, .abx (rd .ora), .abx (md .asl), .un 0x1F]

/-- Row 2x of the map of R148. -/
def opcodeRow2 : List Form :=
  [.word .jsr, .izx (rd .and), .un 0x22, .un 0x23, .zp (rd .bit), .zp (rd .and), .zp (md .rol), .un 0x27,
   .imp .plp, .imm .and, .acc .rol, .un 0x2B, .abs (rd .bit), .abs (rd .and), .abs (md .rol), .un 0x2F]

/-- Row 3x of the map of R148. -/
def opcodeRow3 : List Form :=
  [.rel .bmi, .izy (rd .and), .un 0x32, .un 0x33, .un 0x34, .zpx (rd .and), .zpx (md .rol), .un 0x37,
   .imp .sec, .aby (rd .and), .un 0x3A, .un 0x3B, .un 0x3C, .abx (rd .and), .abx (md .rol), .un 0x3F]

/-- Row 4x of the map of R148. -/
def opcodeRow4 : List Form :=
  [.imp .rti, .izx (rd .eor), .un 0x42, .un 0x43, .un 0x44, .zp (rd .eor), .zp (md .lsr), .un 0x47,
   .imp .pha, .imm .eor, .acc .lsr, .un 0x4B, .abs .jmp, .abs (rd .eor), .abs (md .lsr), .un 0x4F]

/-- Row 5x of the map of R148. -/
def opcodeRow5 : List Form :=
  [.rel .bvc, .izy (rd .eor), .un 0x52, .un 0x53, .un 0x54, .zpx (rd .eor), .zpx (md .lsr), .un 0x57,
   .imp .cli, .aby (rd .eor), .un 0x5A, .un 0x5B, .un 0x5C, .abx (rd .eor), .abx (md .lsr), .un 0x5F]

/-- Row 6x of the map of R148. -/
def opcodeRow6 : List Form :=
  [.imp .rts, .izx (rd .adc), .un 0x62, .un 0x63, .un 0x64, .zp (rd .adc), .zp (md .ror), .un 0x67,
   .imp .pla, .imm .adc, .acc .ror, .un 0x6B, .ind .jmp, .abs (rd .adc), .abs (md .ror), .un 0x6F]

/-- Row 7x of the map of R148. -/
def opcodeRow7 : List Form :=
  [.rel .bvs, .izy (rd .adc), .un 0x72, .un 0x73, .un 0x74, .zpx (rd .adc), .zpx (md .ror), .un 0x77,
   .imp .sei, .aby (rd .adc), .un 0x7A, .un 0x7B, .un 0x7C, .abx (rd .adc), .abx (md .ror), .un 0x7F]

/-- Row 8x of the map of R148. -/
def opcodeRow8 : List Form :=
  [.un 0x80, .izx .sta, .un 0x82, .un 0x83, .zp .sty, .zp .sta, .zp .stx, .un 0x87,
   .imp .dey, .un 0x89, .imp .txa, .un 0x8B, .abs .sty, .abs .sta, .abs .stx, .un 0x8F]

/-- Row 9x of the map of R148. -/
def opcodeRow9 : List Form :=
  [.rel .bcc, .izy .sta, .un 0x92, .un 0x93, .zpx .sty, .zpx .sta, .zpy .stx, .un 0x97,
   .imp .tya, .aby .sta, .imp .txs, .un 0x9B, .un 0x9C, .abx .sta, .un 0x9E, .un 0x9F]

/-- Row Ax of the map of R148. -/
def opcodeRowA : List Form :=
  [.imm .ldy, .izx (rd .lda), .imm .ldx, .un 0xA3, .zp (rd .ldy), .zp (rd .lda), .zp (rd .ldx), .un 0xA7,
   .imp .tay, .imm .lda, .imp .tax, .un 0xAB, .abs (rd .ldy), .abs (rd .lda), .abs (rd .ldx), .un 0xAF]

/-- Row Bx of the map of R148. -/
def opcodeRowB : List Form :=
  [.rel .bcs, .izy (rd .lda), .un 0xB2, .un 0xB3, .zpx (rd .ldy), .zpx (rd .lda), .zpy (rd .ldx), .un 0xB7,
   .imp .clv, .aby (rd .lda), .imp .tsx, .un 0xBB, .abx (rd .ldy), .abx (rd .lda), .aby (rd .ldx), .un 0xBF]

/-- Row Cx of the map of R148. -/
def opcodeRowC : List Form :=
  [.imm .cpy, .izx (rd .cmp), .un 0xC2, .un 0xC3, .zp (rd .cpy), .zp (rd .cmp), .zp .dec, .un 0xC7,
   .imp .iny, .imm .cmp, .imp .dex, .un 0xCB, .abs (rd .cpy), .abs (rd .cmp), .abs .dec, .un 0xCF]

/-- Row Dx of the map of R148. -/
def opcodeRowD : List Form :=
  [.rel .bne, .izy (rd .cmp), .un 0xD2, .un 0xD3, .un 0xD4, .zpx (rd .cmp), .zpx .dec, .un 0xD7,
   .imp .cld, .aby (rd .cmp), .un 0xDA, .un 0xDB, .un 0xDC, .abx (rd .cmp), .abx .dec, .un 0xDF]

/-- Row Ex of the map of R148. -/
def opcodeRowE : List Form :=
  [.imm .cpx, .izx (rd .sbc), .un 0xE2, .un 0xE3, .zp (rd .cpx), .zp (rd .sbc), .zp .inc, .un 0xE7,
   .imp .inx, .imm .sbc, .imp .nop, .un 0xEB, .abs (rd .cpx), .abs (rd .sbc), .abs .inc, .un 0xEF]

/-- Row Fx of the map of R148. -/
def opcodeRowF : List Form :=
  [.rel .beq, .izy (rd .sbc), .un 0xF2, .un 0xF3, .un 0xF4, .zpx (rd .sbc), .zpx .inc, .un 0xF7,
   .imp .sed, .aby (rd .sbc), .un 0xFA, .un 0xFB, .un 0xFC, .abx (rd .sbc), .abx .inc, .un 0xFF]

/-- The opcode table: "256 fixed entries" (R132, R148). -/
def opcodeTable : List Form :=
  opcodeRow0 ++ opcodeRow1 ++ opcodeRow2 ++ opcodeRow3 ++ opcodeRow4 ++ opcodeRow5 ++ opcodeRow6 ++ opcodeRow7 ++
  opcodeRow8 ++ opcodeRow9 ++ opcodeRowA ++ opcodeRowB ++ opcodeRowC ++ opcodeRowD ++ opcodeRowE ++ opcodeRowF

/-- The table entry of an opcode byte (R132). -/
def opcodeForm (op : Byte) : Form := opcodeTable.getD op.toNat (.un op)

/-- Why bytes do not decode: there is no opcode byte, or its operand bytes are missing. No byte value is refused (R152). -/
inductive DecodeError
  | noOpcode
  | operandMissing (op : Byte)
  deriving DecidableEq, Repr

/-- The instruction at the head of a list of bytes, and the bytes after it. -/
def decode : List Byte → Except DecodeError (Instr × List Byte)
  | [] => .error .noOpcode
  | op :: rest =>
    match opcodeForm op with
    | .none i => .ok (i, rest)
    | .byte f =>
      match rest with
      | b :: rest' => .ok (f b, rest')
      | [] => .error (.operandMissing op)
    | .word f =>
      match rest with
      | lo :: hi :: rest' => .ok (f (wordOf hi lo), rest')
      | _ => .error (.operandMissing op)

/-- The opcode bytes of an instruction's mnemonic, by mode (R149). -/
def opcodesOf : Instr → List (Mode × Byte)
  | .lda _ => [(.indexedIndirect, 0xA1), (.zeropage, 0xA5), (.immediate, 0xA9), (.absolute, 0xAD), (.indirectIndexed, 0xB1), (.zeropageX, 0xB5), (.absoluteY, 0xB9), (.absoluteX, 0xBD)]
  | .ldx _ => [(.immediate, 0xA2), (.zeropage, 0xA6), (.absolute, 0xAE), (.zeropageY, 0xB6), (.absoluteY, 0xBE)]
  | .ldy _ => [(.immediate, 0xA0), (.zeropage, 0xA4), (.absolute, 0xAC), (.zeropageX, 0xB4), (.absoluteX, 0xBC)]
  | .sta _ => [(.indexedIndirect, 0x81), (.zeropage, 0x85), (.absolute, 0x8D), (.indirectIndexed, 0x91), (.zeropageX, 0x95), (.absoluteY, 0x99), (.absoluteX, 0x9D)]
  | .stx _ => [(.zeropage, 0x86), (.absolute, 0x8E), (.zeropageY, 0x96)]
  | .sty _ => [(.zeropage, 0x84), (.absolute, 0x8C), (.zeropageX, 0x94)]
  | .tax => [(.implied, 0xAA)]
  | .tay => [(.implied, 0xA8)]
  | .txa => [(.implied, 0x8A)]
  | .tya => [(.implied, 0x98)]
  | .tsx => [(.implied, 0xBA)]
  | .txs => [(.implied, 0x9A)]
  | .adc _ => [(.indexedIndirect, 0x61), (.zeropage, 0x65), (.immediate, 0x69), (.absolute, 0x6D), (.indirectIndexed, 0x71), (.zeropageX, 0x75), (.absoluteY, 0x79), (.absoluteX, 0x7D)]
  | .sbc _ => [(.indexedIndirect, 0xE1), (.zeropage, 0xE5), (.immediate, 0xE9), (.absolute, 0xED), (.indirectIndexed, 0xF1), (.zeropageX, 0xF5), (.absoluteY, 0xF9), (.absoluteX, 0xFD)]
  | .and _ => [(.indexedIndirect, 0x21), (.zeropage, 0x25), (.immediate, 0x29), (.absolute, 0x2D), (.indirectIndexed, 0x31), (.zeropageX, 0x35), (.absoluteY, 0x39), (.absoluteX, 0x3D)]
  | .ora _ => [(.indexedIndirect, 0x01), (.zeropage, 0x05), (.immediate, 0x09), (.absolute, 0x0D), (.indirectIndexed, 0x11), (.zeropageX, 0x15), (.absoluteY, 0x19), (.absoluteX, 0x1D)]
  | .eor _ => [(.indexedIndirect, 0x41), (.zeropage, 0x45), (.immediate, 0x49), (.absolute, 0x4D), (.indirectIndexed, 0x51), (.zeropageX, 0x55), (.absoluteY, 0x59), (.absoluteX, 0x5D)]
  | .cmp _ => [(.indexedIndirect, 0xC1), (.zeropage, 0xC5), (.immediate, 0xC9), (.absolute, 0xCD), (.indirectIndexed, 0xD1), (.zeropageX, 0xD5), (.absoluteY, 0xD9), (.absoluteX, 0xDD)]
  | .cpx _ => [(.immediate, 0xE0), (.zeropage, 0xE4), (.absolute, 0xEC)]
  | .cpy _ => [(.immediate, 0xC0), (.zeropage, 0xC4), (.absolute, 0xCC)]
  | .bit _ => [(.zeropage, 0x24), (.absolute, 0x2C)]
  | .inc _ => [(.zeropage, 0xE6), (.absolute, 0xEE), (.zeropageX, 0xF6), (.absoluteX, 0xFE)]
  | .dec _ => [(.zeropage, 0xC6), (.absolute, 0xCE), (.zeropageX, 0xD6), (.absoluteX, 0xDE)]
  | .inx => [(.implied, 0xE8)]
  | .iny => [(.implied, 0xC8)]
  | .dex => [(.implied, 0xCA)]
  | .dey => [(.implied, 0x88)]
  | .asl _ => [(.zeropage, 0x06), (.accumulator, 0x0A), (.absolute, 0x0E), (.zeropageX, 0x16), (.absoluteX, 0x1E)]
  | .lsr _ => [(.zeropage, 0x46), (.accumulator, 0x4A), (.absolute, 0x4E), (.zeropageX, 0x56), (.absoluteX, 0x5E)]
  | .rol _ => [(.zeropage, 0x26), (.accumulator, 0x2A), (.absolute, 0x2E), (.zeropageX, 0x36), (.absoluteX, 0x3E)]
  | .ror _ => [(.zeropage, 0x66), (.accumulator, 0x6A), (.absolute, 0x6E), (.zeropageX, 0x76), (.absoluteX, 0x7E)]
  | .jmp _ => [(.absolute, 0x4C), (.indirect, 0x6C)]
  | .jsr _ => [(.absolute, 0x20)]
  | .rts => [(.implied, 0x60)]
  | .bcc _ => [(.relative, 0x90)]
  | .bcs _ => [(.relative, 0xB0)]
  | .beq _ => [(.relative, 0xF0)]
  | .bne _ => [(.relative, 0xD0)]
  | .bmi _ => [(.relative, 0x30)]
  | .bpl _ => [(.relative, 0x10)]
  | .bvc _ => [(.relative, 0x50)]
  | .bvs _ => [(.relative, 0x70)]
  | .pha => [(.implied, 0x48)]
  | .pla => [(.implied, 0x68)]
  | .php => [(.implied, 0x08)]
  | .plp => [(.implied, 0x28)]
  | .clc => [(.implied, 0x18)]
  | .sec => [(.implied, 0x38)]
  | .cli => [(.implied, 0x58)]
  | .sei => [(.implied, 0x78)]
  | .cld => [(.implied, 0xD8)]
  | .sed => [(.implied, 0xF8)]
  | .clv => [(.implied, 0xB8)]
  | .nop => [(.implied, 0xEA)]
  | .brk => [(.implied, 0x00)]
  | .rti => [(.implied, 0x40)]
  | .unmapped op => if unmappedBytes.contains op then [(.implied, op)] else []

/-- The opcode byte of an instruction; none where the table has no such row. -/
def opcodeOf (i : Instr) : Option Byte := (opcodesOf i).lookup i.mode

/-- The operand bytes of a memory operand, low byte first (R131, R101). -/
def MemOperand.bytes : MemOperand → List Byte
  | .zeropage b | .zeropageX b | .zeropageY b | .indexedIndirect b | .indirectIndexed b => [b]
  | .absolute w | .absoluteX w | .absoluteY w | .indirect w => [loByte w, hiByte w]

/-- The operand bytes of a source operand. -/
def Source.bytes : Source → List Byte
  | .immediate b => [b]
  | .mem m => m.bytes

/-- The operand bytes of a shift's operand. -/
def Target.bytes : Target → List Byte
  | .accumulator => []
  | .mem m => m.bytes

/-- The operand bytes of an instruction. -/
def Instr.operandBytes : Instr → List Byte
  | .lda src | .ldx src | .ldy src | .adc src | .sbc src | .and src | .ora src | .eor src
  | .cmp src | .cpx src | .cpy src | .bit src => src.bytes
  | .sta m | .stx m | .sty m | .inc m | .dec m | .jmp m => m.bytes
  | .asl d | .lsr d | .rol d | .ror d => d.bytes
  | .jsr w => [loByte w, hiByte w]
  | .bcc off | .bcs off | .beq off | .bne off | .bmi off | .bpl off | .bvc off | .bvs off => [off]
  | .tax | .tay | .txa | .tya | .tsx | .txs | .inx | .iny | .dex | .dey | .rts
  | .pha | .pla | .php | .plp | .clc | .sec | .cli | .sei | .cld | .sed | .clv
  | .nop | .brk | .rti | .unmapped _ => []

/-- The bytes of a well-formed instruction, at ascending addresses (R130); no bytes for an ill-formed one. -/
def encode (i : Instr) : List Byte :=
  match opcodeOf i with
  | some op => op :: i.operandBytes
  | none => []

/-- The bytes of an instruction given as one number, bit 0 the least significant bit of its first byte: the longest
instruction is three bytes, and the bits above `nbits` are 0. -/
def tableBytes (nbits w : Nat) : List Byte :=
  let w' := w % 2 ^ nbits
  [BitVec.ofNat 8 w', BitVec.ofNat 8 (w' / 256), BitVec.ofNat 8 (w' / 65536)]

/-- The instruction the decoder reads from an instruction whose bits are `w`, numbered as spec/opcode_table.json numbers
them. -/
def decodeTableWord (nbits w : Nat) : Option Instr :=
  match decode (tableBytes nbits w) with
  | .ok (i, _) => some i
  | .error _ => none

end Sys2Proof
end

