-- ==== Sys2Proof/Machine/Memory.lean ====
section
/-! DEFINITION. Storage as sparse lists in one canonical form: offsets strictly rising, no entry equal to what an unlisted
offset reads as (log 4, 12). -/

namespace Sys2Proof.Machine

/-- Sparse storage of cells of a type. -/
abbrev Sparse (α : Type) := List (Nat × α)

/-- The cell at an offset; `d` is what an unlisted offset reads as. -/
def sparseRead {α : Type} (d : α) : Sparse α → Nat → α
  | [], _ => d
  | (k, v) :: m, a => if a = k then v else sparseRead d m a

/-- Leave an offset unlisted. -/
def sparseErase {α : Type} (m : Sparse α) (a : Nat) : Sparse α := m.filter fun e => e.1 != a

/-- List a cell before the first greater offset. -/
def sparseInsert {α : Type} (a : Nat) (v : α) : Sparse α → Sparse α
  | [] => [(a, v)]
  | (k, w) :: m => if a < k then (a, v) :: (k, w) :: m else (k, w) :: sparseInsert a v m

/-- Store a cell at an offset, keeping the canonical form. -/
def sparseWrite {α : Type} [DecidableEq α] (d : α) (m : Sparse α) (a : Nat) (v : α) : Sparse α :=
  if v = d then sparseErase m a else sparseInsert a v (sparseErase m a)

/-- The canonical form. -/
abbrev Sparse.wf {α : Type} (d : α) (m : Sparse α) : Prop :=
  m.Pairwise (fun x y => x.1 < y.1) ∧ ∀ e ∈ m, e.2 ≠ d

/-- Every listed offset lies below a bound. -/
abbrev Sparse.below {α : Type} (n : Nat) (m : Sparse α) : Prop := ∀ e ∈ m, e.1 < n

/-- A memory of bytes; an unlisted offset reads as `MEM_INIT` (R8). -/
abbrev Memory := List Host.Cell

/-- The byte at an offset. -/
def Memory.read (m : Memory) (a : Nat) : Byte := sparseRead Config.memInit m a

/-- Store a byte at an offset. -/
def Memory.write (m : Memory) (a : Nat) (v : Byte) : Memory := sparseWrite Config.memInit m a v

/-- The canonical form of a memory. -/
abbrev Memory.wf (m : Memory) : Prop := Sparse.wf Config.memInit m

/-- The memory that holds the given bytes from an offset on. -/
def Memory.ofBytesFrom (a : Nat) : List Byte → Memory
  | [] => []
  | b :: bs =>
    if b = Config.memInit then Memory.ofBytesFrom (a + 1) bs else (a, b) :: Memory.ofBytesFrom (a + 1) bs

/-- The memory that holds the given bytes from offset 0 on. -/
def Memory.ofBytes (bs : List Byte) : Memory := Memory.ofBytesFrom 0 bs

/-- A grid of cells, row first (R42, R43): a sparse list of rows, each a sparse list of its columns (log 12). -/
abbrev Grid (α : Type) := Sparse (Sparse α)

/-- The cell at a row and column. -/
def gridRead {α : Type} (d : α) (g : Grid α) (row col : Nat) : α :=
  sparseRead d (sparseRead [] g row) col

/-- Store a cell at a row and column. -/
def gridWrite {α : Type} [DecidableEq α] (d : α) (g : Grid α) (row col : Nat) (v : α) : Grid α :=
  sparseWrite [] g row (sparseWrite d (sparseRead [] g row) col v)

/-- Give every cell of a row the value an unlisted cell reads as. -/
def gridClearRow {α : Type} [DecidableEq α] (g : Grid α) (row : Nat) : Grid α :=
  sparseWrite [] g row []

/-- The canonical form of a grid of 240 rows of 256 columns. -/
abbrev Grid.wf {α : Type} (d : α) (g : Grid α) : Prop :=
  Sparse.wf [] g ∧ Sparse.below 240 g ∧ ∀ e ∈ g, Sparse.wf d e.2 ∧ Sparse.below 256 e.2

end Sys2Proof.Machine
end

