-- ==== Sys2Proof/Machine/State.lean ====
section
/-! DEFINITION. All the state the spec gives the machine (10_state.md), unit by unit, as plain data, and its value after
creation (R450, R53). -/

namespace Sys2Proof.Machine

/-- The CPU Core's registers (R20 to R24). -/
structure Cpu where
  a : Byte
  x : Byte
  y : Byte
  s : Byte
  pc : Word
  p : Byte
  deriving DecidableEq, Repr

/-- The Memory Bus's storage (R28 to R30), keyed by offset into each array. -/
structure Bus where
  ram : Memory
  exp : Memory
  apu : Memory
  deriving DecidableEq, Repr

/-- The controller collaborator: the reference model's state (R31), and for the open oracle the number of its draws so far
and the recorded outputs, newest first (R81; log 7). -/
structure Controller where
  buttons : Byte
  strobe : Bool
  shift : Byte
  draws : Nat
  outputs : List Byte
  deriving DecidableEq, Repr

/-- The register bank `regs[0..7]` (R34). -/
structure PpuRegs where
  control : Byte
  mask : Byte
  status : Byte
  oamAddr : Byte
  oamData : Byte
  scroll : Byte
  address : Byte
  data : Byte
  deriving DecidableEq, Repr

/-- A cell of the priority grid (R43). -/
structure PrioCell where
  spr : Bool
  behind : Bool
  zero : Bool
  deriving DecidableEq, Repr

/-- The cell with all three bits 0. -/
def PrioCell.clear : PrioCell := ⟨false, false, false⟩

/-- The PPU Core's state (R32 to R46). -/
structure Ppu where
  dot : Nat
  scanline : Nat
  v : Scroll
  t : Scroll
  fx : BitVec 3
  w : Bool
  regs : PpuRegs
  rdbuf : Byte
  oam : Memory
  secOam : Memory
  secCount : Nat
  spr0Sel : Bool
  grid : Grid Colour
  prio : Grid PrioCell
  frameComplete : Bool
  nt : Memory
  pal : Memory
  deriving DecidableEq, Repr

/-- The two mapper behaviours (R47). -/
inductive MapperKind
  | fixed
  | serialShift
  deriving DecidableEq, Repr

/-- The mirroring modes (R49). -/
inductive Mirroring
  | horizontal
  | vertical
  | singleLower
  | singleUpper
  deriving DecidableEq, Repr

/-- What `load_cartridge` sets once: the raw buffers, the bank counts and the parsed header bits (R47). -/
structure Cartridge where
  kind : MapperKind
  prgBanks : Nat
  chrBanks : Nat
  prg : Memory
  chr : Memory
  mirrorVertical : Bool
  battery : Bool
  trainer : Bool
  ignoreMirroring : Bool
  vs : BitVec 2
  version : BitVec 2
  deriving DecidableEq, Repr

/-- The cartridge unit's mutable state (R48 to R50). -/
structure Mapper where
  prgRam : Memory
  chrRam : Memory
  mirroring : Mirroring
  shift : BitVec 5
  count : Nat
  control : BitVec 5
  chr0 : BitVec 5
  chr1 : BitVec 5
  prg : BitVec 5
  deriving DecidableEq, Repr

/-- "one explicit machine-state value". -/
structure State where
  cpu : Cpu
  nmiPending : Bool
  bus : Bus
  ctl : Controller
  ppu : Ppu
  map : Mapper
  cart : Option Cartridge
  params : Params
  /-- the cycle count the latest CPU step returned (R133); the model's own output field (log 5) -/
  cycles : Cycles
  deriving DecidableEq, Repr

/-- The reasons a step can fault: none. No behaviour of this hardware is a fault (60_exceptions.md R420, 93). -/
inductive Fault
  deriving DecidableEq, Repr

/-- The reasons a step can be refused. -/
inductive Refusal
  /-- An instruction that has no meaning in this model. Raised by no arm of `exec`: every instruction has its meaning. Safe. -/
  | notModelled (mnemonic : String)
  /-- A step before any cartridge is loaded: "refused: the spec gives them no meaning" (R455). Raised by `step`. Safe. -/
  | noCartridge
  deriving DecidableEq, Repr

/-- The CPU registers that `Init` sets (R451); the program counter comes from the reset vector. -/
def Cpu.init (pc : Word) : Cpu where
  a := 0x00
  x := 0x00
  y := 0x00
  s := 0xFD
  pc := pc
  p := 0x24

/-- The PPU after power-on (R53). -/
def Ppu.powerOn : Ppu where
  dot := 0
  scanline := 0
  v := 0
  t := 0
  fx := 0
  w := false
  regs := ⟨0, 0, 0, 0, 0, 0, 0, 0⟩
  rdbuf := 0
  oam := []
  secOam := []
  secCount := 0
  spr0Sel := false
  grid := []
  prio := []
  frameComplete := false
  nt := []
  pal := []

/-- The mapper state a load leaves, given the header's mirroring (R372). -/
def Mapper.loaded (mirroring : Mirroring) : Mapper where
  prgRam := []
  chrRam := []
  mirroring := mirroring
  shift := 0
  count := 0
  control := 0x0C
  chr0 := 0
  chr1 := 0
  prg := 0

/-- The machine right after its creation, no cartridge loaded (R450): every field at the power-on value of R53. `PC` and
`mirroring` have no value before a load; the model's choice is 0x0000 and horizontal (log 1). -/
def State.reset : State where
  cpu := Cpu.init 0x0000
  nmiPending := false
  bus := ⟨[], [], []⟩
  ctl := ⟨0, false, 0, 0, []⟩
  ppu := Ppu.powerOn
  map := Mapper.loaded .horizontal
  cart := none
  params := Params.default
  cycles := 0

end Sys2Proof.Machine
end

