-- ==== Sys2Proof/Machine/Controls.lean ====
section
/-! DEFINITION. The controller collaborator behind port 0x4016: the open oracle (20_memory.md R81) and the reference model
(R82), by the parameter `params.controller` (log 7). -/

namespace Sys2Proof.Machine

/-- What the reference shift register holds when a read begins (R82). -/
def Controller.latched (c : Controller) : Byte := if c.strobe then c.buttons else c.shift

/-- The value `ControllerRead()` returns (R81, R82). -/
def controllerValue (s : State) : Byte :=
  match s.params.controller with
  | .openOracle => Config.freeControllerByte s.ctl.draws
  | .reference => s.ctl.latched &&& 0x01

/-- The state after `ControllerRead()` (R81, R82). -/
def controllerAfterRead (s : State) : State :=
  match s.params.controller with
  | .openOracle => { s with ctl := { s.ctl with draws := s.ctl.draws + 1 } }
  | .reference =>
    { s with ctl := { s.ctl with
        shift := if s.ctl.strobe then s.ctl.latched else (s.ctl.latched >>> 1) ||| 0x80 } }

/-- `ControllerWrite(v)`: a recorded output of the open oracle (R81), or the reference model's strobe (R82). -/
def controllerWrite (s : State) (v : Byte) : State :=
  match s.params.controller with
  | .openOracle => { s with ctl := { s.ctl with draws := s.ctl.draws + 1, outputs := v :: s.ctl.outputs } }
  | .reference =>
    { s with ctl := { s.ctl with
        strobe := v.getLsbD 0, shift := if v.getLsbD 0 then s.ctl.buttons else s.ctl.shift } }

/-- `ControllerPeek()` (R82, R84). -/
def controllerPeek (s : State) : Byte :=
  match s.params.controller with
  | .openOracle => Config.freeControllerPeek s.ctl.draws
  | .reference => s.ctl.shift &&& 0x01

/-- A button goes down or up (R82, R475). -/
def setButton (s : State) (k : Nat) (down : Bool) : State :=
  let b := if down then s.ctl.buttons ||| (1#8 <<< k) else s.ctl.buttons &&& ~~~(1#8 <<< k)
  { s with ctl := { s.ctl with buttons := b, draws := s.ctl.draws + 1 } }

end Sys2Proof.Machine
end

