-- ==== Sys2Proof/Machine/Mapper.lean ====
section
/-! DEFINITION. The cartridge's address translation and the serial-shift port (55_cartridge_mapper.md R380 to R389). -/

namespace Sys2Proof.Machine

/-- `PrgBanks()`: the banks of the low and high window, before they are reduced modulo the bank count (R386, R387). -/
def prgBanks (params : Params) (c : Cartridge) (m : Mapper) : Nat × Nat :=
  match c.kind with
  | .fixed => (0, c.prgBanks - 1)
  | .serialShift =>
    let mode := (m.control.extractLsb' 2 2).toNat
    let p := (m.prg.extractLsb' 0 4).toNat
    let last := c.prgBanks - 1
    if mode ≤ 1 then (p / 2 * 2, p / 2 * 2 + 1)
    else if mode = 2 then
      (match params.fixedLow with
        | .last => last
        | .first => 0, p)
    else (p, last)

/-- `PrgIndex(a)` for a bus address in 0x8000 to 0xFFFF (R380). -/
def prgIndex (params : Params) (c : Cartridge) (m : Mapper) (a : Word) : Nat :=
  let banks := prgBanks params c m
  let bank := if a.toNat < 0xC000 then banks.1 else banks.2
  bank % c.prgBanks * 0x4000 + a.toNat % 0x4000

/-- `ChrBanks()`: the 4 KiB banks of the low and high half of the pattern range (R386, R389). -/
def chrBanks (c : Cartridge) (m : Mapper) : Nat × Nat :=
  match c.kind with
  | .fixed => (0, 1)
  | .serialShift =>
    if m.control.getLsbD 4 then (m.chr0.toNat, m.chr1.toNat)
    else (m.chr0.toNat / 2 * 2, m.chr0.toNat / 2 * 2 + 1)

/-- The 4 KiB bank that a pattern address below 0x2000 selects, before it is reduced (R381). -/
def chrBank (c : Cartridge) (m : Mapper) (a : Nat) : Nat :=
  if a < 0x1000 then (chrBanks c m).1 else (chrBanks c m).2

/-- The offset into CHR-RAM, which has two 4 KiB banks (R381). -/
def chrRamIndex (c : Cartridge) (m : Mapper) (a : Nat) : Nat :=
  chrBank c m a % 2 * 0x1000 + a % 0x1000

/-- The offset into the CHR data of a cartridge that has some (R381). -/
def chrRomIndex (c : Cartridge) (m : Mapper) (a : Nat) : Nat :=
  chrBank c m a % (2 * c.chrBanks) * 0x1000 + a % 0x1000

/-- The PRG byte at a bus address in 0x8000 to 0xFFFF (R71, R380); a free value while no cartridge is loaded (log 8). -/
def prgRead (s : State) (a : Word) : Byte :=
  match s.cart with
  | some c => c.prg.read (prgIndex s.params c s.map a)
  | none => Config.freeAbsentPrg a.toNat

/-- `ChrRead(a)` for a PPU address below 0x2000 (R381); a free value while no cartridge is loaded (log 8). -/
def chrRead (s : State) (a : Nat) : Byte :=
  match s.cart with
  | some c =>
    if c.chrBanks = 0 then s.map.chrRam.read (chrRamIndex c s.map a)
    else c.chr.read (chrRomIndex c s.map a)
  | none => Config.freeAbsentChr a

/-- `ChrWrite(a, val)`: stores into CHR-RAM when there are no CHR banks, otherwise nothing (R382). -/
def chrWrite (s : State) (a : Nat) (val : Byte) : State :=
  match s.cart with
  | some c =>
    if c.chrBanks = 0 then
      { s with map := { s.map with chrRam := s.map.chrRam.write (chrRamIndex c s.map a) val } }
    else s
  | none => s

/-- The mirroring that the low two bits of the control register select (R51). -/
def mirroringOf (control : BitVec 5) : Mirroring :=
  match (control.extractLsb' 0 2).toNat with
  | 0 => .singleLower
  | 1 => .singleUpper
  | 2 => .vertical
  | _ => .horizontal

/-- The commit of the fifth qualifying write: the register that bits 14:13 of its address select takes the accumulated
value, and the shift register resets (R384, R385). -/
def serialCommit (a : Word) (value : BitVec 5) (m : Mapper) : Mapper :=
  let m := { m with shift := 0, count := 0 }
  match (a.extractLsb' 13 2).toNat with
  | 0 => { m with control := value, mirroring := mirroringOf value }
  | 1 => { m with chr0 := value }
  | 2 => { m with chr1 := value }
  | _ => { m with prg := value }

/-- `SerialWrite(a, val)` (R384). -/
def serialWrite (a : Word) (val : Byte) (m : Mapper) : Mapper :=
  if val.getLsbD 7 then { m with shift := 0, count := 0 }
  else
    let shift := (m.shift >>> 1) ||| ((BitVec.ofBool (val.getLsbD 0)).setWidth 5 <<< 4)
    if m.count + 1 = 5 then serialCommit a shift m
    else { m with shift := shift, count := m.count + 1 }

/-- `MapperWrite(a, val)`: the serial port under serial-shift mapping, nothing under fixed mapping (R383). -/
def mapperWrite (s : State) (a : Word) (val : Byte) : State :=
  match s.cart with
  | some c =>
    match c.kind with
    | .serialShift => { s with map := serialWrite a val s.map }
    | .fixed => s
  | none => s

end Sys2Proof.Machine
end

