-- ==== Sys2Proof/Machine/PpuBus.lean ====
section
/-! DEFINITION. The PPU bus (20_memory.md R90 to R95). -/

namespace Sys2Proof.Machine

/-- Which physical name table a logical one maps to (R93). -/
def physicalTable (m : Mirroring) (table : Nat) : Nat :=
  match m with
  | .horizontal => if table < 2 then 0 else 1
  | .vertical => table % 2
  | .singleLower => 0
  | .singleUpper => 1

/-- `NtIndex(a)` for a PPU address in 0x2000 to 0x3EFF (R93). -/
def ntIndex (m : Mirroring) (a : Nat) : Nat :=
  let o := a % 0x1000
  physicalTable m (o / 0x400) * 0x400 + o % 0x400

/-- `PalIndex(a)` for a PPU address in 0x3F00 to 0x3FFF: the slots with low two bits 00 are slot 0 (R94). -/
def palIndex (a : Nat) : Nat :=
  let i := a % 0x20
  if i % 4 = 0 then 0 else i

/-- `PpuRead(a)` (R90). -/
def ppuRead (s : State) (addr : Word) : Byte :=
  let a := addr.toNat % 0x4000
  if a < 0x2000 then chrRead s a
  else if a < 0x3F00 then s.ppu.nt.read (ntIndex s.map.mirroring a)
  else s.ppu.pal.read (palIndex a)

/-- `PpuWrite(a, v)` (R91). -/
def ppuWrite (s : State) (addr : Word) (val : Byte) : State :=
  let a := addr.toNat % 0x4000
  if a < 0x2000 then chrWrite s a val
  else if a < 0x3F00 then
    { s with ppu := { s.ppu with nt := s.ppu.nt.write (ntIndex s.map.mirroring a) val } }
  else { s with ppu := { s.ppu with pal := s.ppu.pal.write (palIndex a) val } }

end Sys2Proof.Machine
end

