-- ==== Sys2Proof/Machine/PpuPorts.lean ====
section
/-! DEFINITION. The eight PPU register ports (50_ppu_core.md R280 to R299, R301). -/

namespace Sys2Proof.Machine

/-- The ports, in index order 0 to 7 (R34). -/
inductive PpuPort
  | control
  | mask
  | status
  | oamAddr
  | oamData
  | scroll
  | address
  | data
  deriving DecidableEq, Repr

/-- The port of an index; only `a & 7` is ever given (R280). -/
def PpuPort.ofIndex : Nat → PpuPort
  | 0 => .control
  | 1 => .mask
  | 2 => .status
  | 3 => .oamAddr
  | 4 => .oamData
  | 5 => .scroll
  | 6 => .address
  | _ => .data

/-- The address the data port accesses: `v & 0x3FFF` (R298, R299). -/
def dataPortAddr (p : Ppu) : Word := p.v.setWidth 16 &&& 0x3FFF

/-- `v` after a data-port access: 1 or 32 more, in 15 bits (R298, R299). -/
def dataPortNext (p : Ppu) : Scroll :=
  p.v + (if p.regs.control.getLsbD 2 then 32 else 1)

/-- The value `PpuRegRead(i)` returns (R282 to R284, R298); also `PpuRegPeek(i)` (R301). -/
def ppuRegValue (s : State) (port : PpuPort) : Byte :=
  match port with
  | .control => s.ppu.regs.control
  | .mask => s.ppu.regs.mask
  | .status => s.ppu.regs.status
  | .oamAddr => s.ppu.regs.oamAddr
  | .oamData => s.ppu.oam.read s.ppu.regs.oamAddr.toNat
  | .scroll => s.ppu.regs.scroll
  | .address => s.ppu.regs.address
  | .data =>
    if 0x3F00 ≤ (dataPortAddr s.ppu).toNat then ppuRead s (dataPortAddr s.ppu) else s.ppu.rdbuf

/-- The state after `PpuRegRead(i)`: the status and data ports have side effects (R283, R298), the others none (R282,
R284). -/
def ppuRegAfterRead (s : State) (port : PpuPort) : State :=
  match port with
  | .status =>
    { s with ppu := { s.ppu with
        regs := { s.ppu.regs with status := s.ppu.regs.status &&& 0x7F }, w := false } }
  | .data =>
    { s with ppu := { s.ppu with
        rdbuf := ppuRead s (dataPortAddr s.ppu), v := dataPortNext s.ppu } }
  | .control => s
  | .mask => s
  | .oamAddr => s
  | .oamData => s
  | .scroll => s
  | .address => s

/-- The name-table select bits of a control byte latched into `t[11:10]` (R291). -/
def latchNameTable (val : Byte) (t : Scroll) : Scroll :=
  (t &&& 0x73FF) ||| ((val &&& 0x03).setWidth 15 <<< 10)

/-- The first write of the scroll port: `t[4:0] <- val[7:3]` (R296). -/
def latchCoarseX (val : Byte) (t : Scroll) : Scroll :=
  (t &&& 0x7FE0) ||| (val >>> 3).setWidth 15

/-- The second write of the scroll port: `t[14:12] <- val[2:0]`, `t[9:5] <- val[7:3]` (R296). -/
def latchY (val : Byte) (t : Scroll) : Scroll :=
  (t &&& 0x0C1F) ||| ((val &&& 0x07).setWidth 15 <<< 12) ||| ((val >>> 3).setWidth 15 <<< 5)

/-- The first write of the address port: `t[13:8] <- val[5:0]`, `t[14] <- 0` (R297). -/
def latchAddrHigh (val : Byte) (t : Scroll) : Scroll :=
  (t &&& 0x00FF) ||| ((val &&& 0x3F).setWidth 15 <<< 8)

/-- The second write of the address port: `t[7:0] <- val` (R297). -/
def latchAddrLow (val : Byte) (t : Scroll) : Scroll :=
  (t &&& 0x7F00) ||| val.setWidth 15

/-- The scroll port's write (R296). -/
def scrollWrite (val : Byte) (p : Ppu) : Ppu :=
  let p := { p with regs := { p.regs with scroll := val } }
  if p.w then { p with t := latchY val p.t, w := false }
  else { p with t := latchCoarseX val p.t, fx := val.setWidth 3, w := true }

/-- The address port's write (R297). -/
def addressWrite (val : Byte) (p : Ppu) : Ppu :=
  let p := { p with regs := { p.regs with address := val } }
  if p.w then { p with t := latchAddrLow val p.t, v := latchAddrLow val p.t, w := false }
  else { p with t := latchAddrHigh val p.t, w := true }

/-- The data port's write (R299). -/
def dataWrite (val : Byte) (s : State) : State :=
  let s := { s with ppu := { s.ppu with regs := { s.ppu.regs with data := val } } }
  let s := ppuWrite s (dataPortAddr s.ppu) val
  { s with ppu := { s.ppu with v := dataPortNext s.ppu } }

/-- `PpuRegWrite(i, val)` (R290 to R299). -/
def ppuRegWrite (s : State) (port : PpuPort) (val : Byte) : State :=
  match port with
  | .control =>
    { s with ppu := { s.ppu with
        regs := { s.ppu.regs with control := val }, t := latchNameTable val s.ppu.t } }
  | .mask => { s with ppu := { s.ppu with regs := { s.ppu.regs with mask := val } } }
  | .status => s
  | .oamAddr => { s with ppu := { s.ppu with regs := { s.ppu.regs with oamAddr := val } } }
  | .oamData =>
    { s with ppu := { s.ppu with
        oam := s.ppu.oam.write s.ppu.regs.oamAddr.toNat val,
        regs := { s.ppu.regs with oamData := val, oamAddr := s.ppu.regs.oamAddr + 1 } } }
  | .scroll => { s with ppu := scrollWrite val s.ppu }
  | .address => { s with ppu := addressWrite val s.ppu }
  | .data => dataWrite val s

end Sys2Proof.Machine
end

