-- ==== Sys2Proof/Machine/BusOps.lean ====
section
/-! DEFINITION. The CPU bus: decode, read, write, OAM-DMA, peek and poke (20_memory.md R71 to R84, 50_ppu_core.md R300). -/

namespace Sys2Proof.Machine

/-- The targets of the CPU bus, with the offset or port each address selects (R71). -/
inductive BusTarget
  | ram (o : Nat)
  | ppuPort (port : PpuPort)
  | oamDma
  | controller
  | apu (o : Nat)
  | exp (o : Nat)
  | prgRam (o : Nat)
  | prgRom
  deriving DecidableEq, Repr

/-- "Every 16-bit address decodes to exactly one target" (R71). -/
def busTarget (a : Word) : BusTarget :=
  let n := a.toNat
  if n < 0x2000 then .ram (n % 0x800)
  else if n < 0x4000 then .ppuPort (.ofIndex (n % 8))
  else if n = 0x4014 then .oamDma
  else if n = 0x4016 then .controller
  else if n < 0x4018 then .apu (n - 0x4000)
  else if n < 0x6000 then .exp (n - 0x4018)
  else if n < 0x8000 then .prgRam (n - 0x6000)
  else .prgRom

/-- The value `BusRead(a)` returns (R71, R72). -/
def busValue (s : State) (a : Word) : Byte :=
  match busTarget a with
  | .ram o => s.bus.ram.read o
  | .ppuPort port => ppuRegValue s port
  | .oamDma => 0x00
  | .controller => controllerValue s
  | .apu o => if o = 0x15 then s.bus.apu.read o else 0x00
  | .exp o => s.bus.exp.read o
  | .prgRam o => s.map.prgRam.read o
  | .prgRom => prgRead s a

/-- The state after `BusRead(a)`: only the PPU ports and the controller port have side effects (R72). -/
def busAfterRead (s : State) (a : Word) : State :=
  match busTarget a with
  | .ppuPort port => ppuRegAfterRead s port
  | .controller => controllerAfterRead s
  | .ram _ => s
  | .oamDma => s
  | .apu _ => s
  | .exp _ => s
  | .prgRam _ => s
  | .prgRom => s

/-- One transfer of an OAM-DMA: the i-th source byte goes to `oam[(regs[3] + i) mod 256]` (R300). -/
def oamDmaByte (page : Byte) (s : State) (i : Nat) : State :=
  let src := wordOf page (BitVec.ofNat 8 i)
  let b := busValue s src
  let s := busAfterRead s src
  { s with ppu := { s.ppu with oam := s.ppu.oam.write ((s.ppu.regs.oamAddr.toNat + i) % 256) b } }

/-- `OamDma(page)`: 256 ordinary bus reads in ascending order into OAM, from the current OAM address on (R300). -/
def oamDma (page : Byte) (s : State) : State :=
  (List.range 256).foldl (oamDmaByte page) s

/-- `BusWrite(a, v)` (R71, R73). -/
def busWrite (s : State) (a : Word) (v : Byte) : State :=
  match busTarget a with
  | .ram o => { s with bus := { s.bus with ram := s.bus.ram.write o v } }
  | .ppuPort port => ppuRegWrite s port v
  | .oamDma => oamDma v s
  | .controller => controllerWrite s v
  | .apu o => { s with bus := { s.bus with apu := s.bus.apu.write o v } }
  | .exp o => { s with bus := { s.bus with exp := s.bus.exp.write o v } }
  | .prgRam o => { s with map := { s.map with prgRam := s.map.prgRam.write o v } }
  | .prgRom => mapperWrite s a v

/-- `BusPeek(a)`: the side-effect-free read (R84). -/
def busPeek (s : State) (a : Word) : Byte :=
  match busTarget a with
  | .ppuPort port => ppuRegValue s port
  | .controller => controllerPeek s
  | .apu o => s.bus.apu.read o
  | .oamDma => 0x00
  | .ram o => s.bus.ram.read o
  | .exp o => s.bus.exp.read o
  | .prgRam o => s.map.prgRam.read o
  | .prgRom => prgRead s a

/-- `BusPoke(a, v)`: stores into the backing byte of RAM, `exp`, PRG-RAM or `apu`, and is refused elsewhere (R84). -/
def busPoke (s : State) (a : Word) (v : Byte) : Option State :=
  match busTarget a with
  | .ram o => some { s with bus := { s.bus with ram := s.bus.ram.write o v } }
  | .apu o => some { s with bus := { s.bus with apu := s.bus.apu.write o v } }
  | .exp o => some { s with bus := { s.bus with exp := s.bus.exp.write o v } }
  | .prgRam o => some { s with map := { s.map with prgRam := s.map.prgRam.write o v } }
  | .ppuPort _ => none
  | .oamDma => none
  | .controller => none
  | .prgRom => none

end Sys2Proof.Machine
end

