-- ==== Sys2Proof/Machine/Flags.lean ====
section
/-! DEFINITION. The status register's flags and every flag computation (R24, R25, R150, R192, R197, R200, R220). -/

namespace Sys2Proof.Machine

/-- The flags of `P`, in bit order (R24). -/
inductive Flag
  | c
  | z
  | i
  | d
  | b
  | u
  | v
  | n
  deriving DecidableEq, Repr

/-- The bit position of a flag in `P` (R24). -/
def Flag.pos : Flag → Nat
  | .c => 0
  | .z => 1
  | .i => 2
  | .d => 3
  | .b => 4
  | .u => 5
  | .v => 6
  | .n => 7

/-- The value of a flag in a status byte. -/
def flag (p : Byte) (f : Flag) : Bool := p.getLsbD f.pos

/-- A status byte with one flag given a value. -/
def setFlag (f : Flag) (val : Bool) (p : Byte) : Byte :=
  if val then p ||| (1#8 <<< f.pos) else p &&& ~~~(1#8 <<< f.pos)

/-- `SetZN(v)` (R14). -/
def setZN (v : Byte) (p : Byte) : Byte :=
  setFlag .n (v.getLsbD 7) (setFlag .z (v == 0) p)

/-- The status byte a pull loads: `(pulled & 0xEF) | 0x20` (R26). -/
def pulledStatus (b : Byte) : Byte := (b &&& 0xEF) ||| 0x20

/-- The status byte PHP and BRK push: `P | 0x30` (R26). -/
def pushedByInstr (p : Byte) : Byte := p ||| 0x30

/-- The status byte NMI entry pushes: `(P & 0xEF) | 0x20` (R26). -/
def pushedByNmi (p : Byte) : Byte := (p &&& 0xEF) ||| 0x20

/-- `A + m + P.C`, computed in 9 bits (R192). -/
def adcSum (a m : Byte) (carry : Bool) : BitVec 9 :=
  a.setWidth 9 + m.setWidth 9 + (BitVec.ofBool carry).setWidth 9

/-- The result byte of ADC (R192). -/
def adcResult (a m : Byte) (carry : Bool) : Byte := (adcSum a m carry).setWidth 8

/-- The status byte after ADC: C, V, then Z and N (R192). -/
def adcStatus (a m : Byte) (p : Byte) : Byte :=
  let sum := adcSum a m (flag p .c)
  let r := adcResult a m (flag p .c)
  setZN r (setFlag .v (((a ^^^ r) &&& (m ^^^ r)).getLsbD 7) (setFlag .c (sum.getLsbD 8) p))

/-- The status byte after a compare of a register with `m` (R197). -/
def compareStatus (reg m : Byte) (p : Byte) : Byte :=
  setFlag .n ((reg - m).getLsbD 7) (setFlag .z (reg == m) (setFlag .c (decide (m.toNat ≤ reg.toNat)) p))

/-- The status byte after BIT (R200). -/
def bitStatus (a m : Byte) (p : Byte) : Byte :=
  setFlag .v (m.getLsbD 6) (setFlag .n (m.getLsbD 7) (setFlag .z ((a &&& m) == 0) p))

/-- A result byte together with the status byte that goes with it. -/
structure AluOut where
  result : Byte
  status : Byte
  deriving DecidableEq, Repr

/-- ASL of a byte under a status (R221). -/
def aslOut (src p : Byte) : AluOut :=
  let r := src <<< 1
  ⟨r, setZN r (setFlag .c (src.getLsbD 7) p)⟩

/-- LSR of a byte under a status (R222). -/
def lsrOut (src p : Byte) : AluOut :=
  let r := src >>> 1
  ⟨r, setZN r (setFlag .c (src.getLsbD 0) p)⟩

/-- ROL of a byte under a status (R223). -/
def rolOut (src p : Byte) : AluOut :=
  let r := (src <<< 1) ||| (BitVec.ofBool (flag p .c)).setWidth 8
  ⟨r, setZN r (setFlag .c (src.getLsbD 7) p)⟩

/-- ROR of a byte under a status (R224). -/
def rorOut (src p : Byte) : AluOut :=
  let r := (src >>> 1) ||| ((BitVec.ofBool (flag p .c)).setWidth 8 <<< 7)
  ⟨r, setZN r (setFlag .c (src.getLsbD 0) p)⟩

/-- INC of a byte under a status (R201). -/
def incOut (src p : Byte) : AluOut :=
  let r := src + 1
  ⟨r, setZN r p⟩

/-- DEC of a byte under a status (R202). -/
def decOut (src p : Byte) : AluOut :=
  let r := src - 1
  ⟨r, setZN r p⟩

end Sys2Proof.Machine
end

