-- ==== Sys2Proof/Machine/Ops.lean ====
section
/-! DEFINITION. The named operations over registers, stack and vectors (00_scope.md R14), taking an exception and returning
from one (60_exceptions.md R422, R423, R426, R429), and `Init` (70_reset_and_hazards.md R451). -/

namespace Sys2Proof.Machine

/-- What a meaning answers. -/
abbrev Result := Host.Outcome State Fault Refusal

/-! The register writes of R13. -/

def State.setA (s : State) (v : Byte) : State := { s with cpu := { s.cpu with a := v } }
def State.setX (s : State) (v : Byte) : State := { s with cpu := { s.cpu with x := v } }
def State.setY (s : State) (v : Byte) : State := { s with cpu := { s.cpu with y := v } }
def State.setS (s : State) (v : Byte) : State := { s with cpu := { s.cpu with s := v } }
def State.setP (s : State) (v : Byte) : State := { s with cpu := { s.cpu with p := v } }
def State.setPc (s : State) (v : Word) : State := { s with cpu := { s.cpu with pc := v } }

/-- Add to the 32-bit cycle count the step will return (R133, R134; log 5). -/
def State.charge (s : State) (n : Cycles) : State := { s with cycles := s.cycles + n }

/-- A byte read from the bus and the state after the read. -/
structure ReadOut (α : Type) where
  value : α
  state : State

/-- `MemRead(addr, 1)`, that is `BusRead(addr)` (R14, R72). -/
def busRead (s : State) (a : Word) : ReadOut Byte := ⟨busValue s a, busAfterRead s a⟩

/-- Two bytes read one after the other, low byte first, as a word (R100, R101). -/
def readPair (s : State) (aLo aHi : Word) : ReadOut Word :=
  let lo := busRead s aLo
  let hi := busRead lo.state aHi
  ⟨wordOf hi.value lo.value, hi.state⟩

/-- `Read16(a)` (R14). -/
def read16 (s : State) (a : Word) : ReadOut Word := readPair s a (a + 1)

/-- `Fetch8()` (R14). -/
def fetch8 (s : State) : ReadOut Byte :=
  let b := busRead s s.cpu.pc
  ⟨b.value, b.state.setPc (s.cpu.pc + 1)⟩

/-- `Fetch16()` (R14). -/
def fetch16 (s : State) : ReadOut Word :=
  let lo := fetch8 s
  let hi := fetch8 lo.state
  ⟨wordOf hi.value lo.value, hi.state⟩

/-- The bus address of the stack byte `S` designates: `0x0100 | S` (R22). -/
def stackAddr (sp : Byte) : Word := 0x0100 ||| sp.setWidth 16

/-- `Push(v)` (R14). -/
def push (v : Byte) (s : State) : State :=
  (busWrite s (stackAddr s.cpu.s) v).setS (s.cpu.s - 1)

/-- `Pull()` (R14). -/
def pull (s : State) : ReadOut Byte := busRead (s.setS (s.cpu.s + 1)) (stackAddr (s.cpu.s + 1))

/-- Push a word, high byte first (R101). -/
def pushWord (w : Word) (s : State) : State := push (loByte w) (push (hiByte w) s)

/-- Pull a word, low byte first. -/
def pullWord (s : State) : ReadOut Word :=
  let lo := pull s
  let hi := pull lo.state
  ⟨wordOf hi.value lo.value, hi.state⟩

/-- Taking an exception: the entry sequence NMI and BRK share (R422, R423, R426): push the return address and a status byte,
set `I`, and jump through a vector. -/
def enterInterrupt (ret : Word) (pushed : Byte) (vector : Word) (s : State) : State :=
  let s := push pushed (pushWord ret s)
  let s := s.setP (setFlag .i true s.cpu.p)
  let target := read16 s vector
  target.state.setPc target.value

/-- `NmiEntry()` (R422). -/
def nmiEntry (s : State) : State :=
  enterInterrupt s.cpu.pc (pushedByNmi s.cpu.p) 0xFFFA { s with nmiPending := false }

/-- Returning from an exception: pull status, then the return address, and continue exactly there (R264, R429). -/
def returnFromInterrupt (s : State) : State :=
  let st := pull s
  let ret := pullWord (st.state.setP (pulledStatus st.value))
  ret.state.setPc ret.value

/-- `Init()`, which is `reset()`: the CPU registers from the reset vector, nothing else (R451). -/
def hostInit (s : State) : State :=
  { s with cpu := Cpu.init (wordOf (busPeek s 0xFFFD) (busPeek s 0xFFFC)) }

end Sys2Proof.Machine
end

