-- ==== Sys2Proof/Machine/Operands.lean ====
section
/-! DEFINITION. Every operand form (30_encoding.md R135 to R147) and the shared shapes of an instruction over it: read,
store, read-modify-write, branch; and the cycle counts (R134, R149). -/

namespace Sys2Proof.Machine

/-- `sext_16(b)` (R12). -/
def sext16 (b : Byte) : Word := if b.toNat < 0x80 then b.setWidth 16 else 0xFF00 ||| b.setWidth 16

/-- `zext_16(b)` (R12). -/
def zext16 (b : Byte) : Word := b.setWidth 16

/-- `PageCross(a, b)` (R147). -/
def pageCross (a b : Word) : Cycles := if hiByte a = hiByte b then 0 else 1

/-- What `Resolve(mode)` returns for a memory operand: the effective address, the extra cycle, and the state after the
pointer reads (R135). -/
structure Resolved where
  ea : Word
  extra : Cycles
  state : State

/-- The indexed address, with the page-cross cycle (R145). -/
def indexed (base : Word) (index : Byte) (s : State) : Resolved :=
  ⟨base + zext16 index, pageCross base (base + zext16 index), s⟩

/-- The address of the second pointer byte of the indirect mode, in the same page as the first (R142). -/
def indirectHigh (ptr : Word) : Word := (ptr &&& 0xFF00) ||| ((ptr + 1) &&& 0x00FF)

/-- A pointer in page 0, whose second byte wraps within page 0 (R143, R144). -/
def zeropagePointer (s : State) (b : Byte) : ReadOut Word := readPair s (zext16 b) (zext16 (b + 1))

/-- `Resolve(mode)` for a memory operand (R139 to R145). -/
def resolve (m : MemOperand) (s : State) : Resolved :=
  match m with
  | .zeropage b => ⟨zext16 b, 0, s⟩
  | .zeropageX b => ⟨zext16 (b + s.cpu.x), 0, s⟩
  | .zeropageY b => ⟨zext16 (b + s.cpu.y), 0, s⟩
  | .absolute w => ⟨w, 0, s⟩
  | .absoluteX w => indexed w s.cpu.x s
  | .absoluteY w => indexed w s.cpu.y s
  | .indirect w =>
    let p := readPair s w (indirectHigh w)
    ⟨p.value, 0, p.state⟩
  | .indexedIndirect b =>
    let p := zeropagePointer s (b + s.cpu.x)
    ⟨p.value, 0, p.state⟩
  | .indirectIndexed b =>
    let p := zeropagePointer s b
    indexed p.value s.cpu.y p.state

/-- `Value(operand)` with the extra cycle and the state after the reads (R169). -/
structure Fetched where
  value : Byte
  extra : Cycles
  state : State

/-- `Value(operand)`: the immediate byte, or one bus read of the effective address (R169). -/
def operandValue (src : Source) (s : State) : Fetched :=
  match src with
  | .immediate b => ⟨b, 0, s⟩
  | .mem m =>
    let r := resolve m s
    let b := busRead r.state r.ea
    ⟨b.value, r.extra, b.state⟩

/-- Base cycles of an instruction that reads its operand, by mode (R149). -/
def readCycles : Mode → Cycles
  | .immediate => 2
  | .zeropage => 3
  | .zeropageX | .zeropageY | .absolute | .absoluteX | .absoluteY => 4
  | .indexedIndirect => 6
  | .indirectIndexed | .indirect => 5
  | .implied | .accumulator | .relative => 2

/-- Base cycles of an instruction that stores, by mode (R149). -/
def storeCycles : Mode → Cycles
  | .zeropage => 3
  | .zeropageX | .zeropageY | .absolute => 4
  | .absoluteX | .absoluteY => 5
  | .indexedIndirect | .indirectIndexed => 6
  | .indirect => 5
  | .implied | .accumulator | .immediate | .relative => 2

/-- Base cycles of an instruction that modifies its operand, by mode (R149). -/
def modifyCycles : Mode → Cycles
  | .accumulator => 2
  | .zeropage => 5
  | .zeropageX | .zeropageY | .absolute => 6
  | .absoluteX | .absoluteY => 7
  | .indirect | .indexedIndirect | .indirectIndexed => 7
  | .implied | .immediate | .relative => 2

/-- Base cycles of JMP, by mode (R149). -/
def jumpCycles : Mode → Cycles
  | .indirect => 5
  | _ => 3

/-- The base cycle count of an instruction's table entry (R132, R149, R265). -/
def baseCycles (params : Params) (i : Instr) : Cycles :=
  match i with
  | .lda src | .ldx src | .ldy src | .adc src | .sbc src | .and src | .ora src | .eor src
  | .cmp src | .cpx src | .cpy src | .bit src => readCycles src.mode
  | .sta m | .stx m | .sty m => storeCycles m.mode
  | .inc m | .dec m => modifyCycles m.mode
  | .asl d | .lsr d | .rol d | .ror d => modifyCycles d.mode
  | .jmp m => jumpCycles m.mode
  | .jsr _ | .rts | .rti => 6
  | .brk => 7
  | .pha | .php => 3
  | .pla | .plp => 4
  | .bcc _ | .bcs _ | .beq _ | .bne _ | .bmi _ | .bpl _ | .bvc _ | .bvs _ => 2
  | .tax | .tay | .txa | .tya | .tsx | .txs | .inx | .iny | .dex | .dey
  | .clc | .sec | .cli | .sei | .cld | .sed | .clv | .nop => 2
  | .unmapped _ => params.unmappedCycles

/-- `extra_mode` of an instruction that writes its operand: with `PAGE_CROSS_ON_ALL` false it has none (R134). -/
def writeExtra (params : Params) (extra : Cycles) : Cycles := if params.pageCrossOnAll then extra else 0

/-- `extra_instr` of an instruction whose write starts an OAM-DMA (R134). -/
def dmaExtra (params : Params) (ea : Word) : Cycles :=
  if busTarget ea = .oamDma then params.oamDmaCycles else 0

/-- A reading instruction: the operand's value goes to `f`, which updates the registers (R169). -/
def readInstr (i : Instr) (src : Source) (f : Byte → State → State) (s : State) : State :=
  let v := operandValue src s
  (f v.value v.state).charge (baseCycles s.params i + v.extra)

/-- A storing instruction: one write of `v`, no read of the target (R169, R173). -/
def storeInstr (i : Instr) (m : MemOperand) (v : Byte) (s : State) : State :=
  let r := resolve m s
  (busWrite r.state r.ea v).charge
    (baseCycles s.params i + writeExtra s.params r.extra + dmaExtra s.params r.ea)

/-- A read-modify-write of memory: one read, one write of the same address, then the flags (R190, R220). -/
def modifyInstr (i : Instr) (m : MemOperand) (f : Byte → Byte → AluOut) (s : State) : State :=
  let r := resolve m s
  let b := busRead r.state r.ea
  let out := f b.value s.cpu.p
  ((busWrite b.state r.ea out.result).setP out.status).charge
    (baseCycles s.params i + writeExtra s.params r.extra + dmaExtra s.params r.ea)

/-- A shift or rotate of the accumulator or of memory (R220). -/
def shiftInstr (i : Instr) (d : Target) (f : Byte → Byte → AluOut) (s : State) : State :=
  match d with
  | .accumulator =>
    let out := f s.cpu.a s.cpu.p
    ((s.setA out.result).setP out.status).charge (baseCycles s.params i)
  | .mem m => modifyInstr i m f s

/-- The target of a taken branch (R146, R235). -/
def branchTarget (off : Byte) (s : State) : Word := s.cpu.pc + sext16 off

/-- A conditional branch (R235). -/
def branchInstr (i : Instr) (cond : Bool) (off : Byte) (s : State) : State :=
  if cond then
    (s.setPc (branchTarget off s)).charge
      (baseCycles s.params i + (1 + pageCross s.cpu.pc (branchTarget off s)))
  else s.charge (baseCycles s.params i)

end Sys2Proof.Machine
end

