-- ==== Sys2Proof/Machine/Arith.lean ====
section
/-! DEFINITION. Arithmetic, logic, compare, bit test, increment and decrement (41_arithmetic_logic.md R190 to R206). -/

namespace Sys2Proof.Machine

/-- ADC's operation on a value (R192): binary whatever `P.D` holds (R191). -/
def addWithCarry (m : Byte) (s : State) : State :=
  (s.setA (adcResult s.cpu.a m (flag s.cpu.p .c))).setP (adcStatus s.cpu.a m s.cpu.p)

/-- A logic instruction's operation: the result goes to `A`, and Z and N follow it. -/
def logicResult (r : Byte) (s : State) : State := (s.setA r).setP (setZN r s.cpu.p)

/-- ADC (R192). -/
def execAdc (src : Source) (s : State) : Result := .next (readInstr (.adc src) src addWithCarry s)

/-- SBC: "ADC with the operand's bits inverted" (R193). -/
def execSbc (src : Source) (s : State) : Result :=
  .next (readInstr (.sbc src) src (fun v s => addWithCarry (v ^^^ 0xFF) s) s)

/-- AND (R194). -/
def execAnd (src : Source) (s : State) : Result :=
  .next (readInstr (.and src) src (fun v s => logicResult (s.cpu.a &&& v) s) s)

/-- ORA (R195). -/
def execOra (src : Source) (s : State) : Result :=
  .next (readInstr (.ora src) src (fun v s => logicResult (s.cpu.a ||| v) s) s)

/-- EOR (R196). -/
def execEor (src : Source) (s : State) : Result :=
  .next (readInstr (.eor src) src (fun v s => logicResult (s.cpu.a ^^^ v) s) s)

/-- CMP (R197). -/
def execCmp (src : Source) (s : State) : Result :=
  .next (readInstr (.cmp src) src (fun v s => s.setP (compareStatus s.cpu.a v s.cpu.p)) s)

/-- CPX (R198). -/
def execCpx (src : Source) (s : State) : Result :=
  .next (readInstr (.cpx src) src (fun v s => s.setP (compareStatus s.cpu.x v s.cpu.p)) s)

/-- CPY (R199). -/
def execCpy (src : Source) (s : State) : Result :=
  .next (readInstr (.cpy src) src (fun v s => s.setP (compareStatus s.cpu.y v s.cpu.p)) s)

/-- BIT (R200). -/
def execBit (src : Source) (s : State) : Result :=
  .next (readInstr (.bit src) src (fun v s => s.setP (bitStatus s.cpu.a v s.cpu.p)) s)

/-- INC (R201). -/
def execInc (m : MemOperand) (s : State) : Result := .next (modifyInstr (.inc m) m incOut s)

/-- DEC (R202). -/
def execDec (m : MemOperand) (s : State) : Result := .next (modifyInstr (.dec m) m decOut s)

/-- INX (R203). -/
def execInx (s : State) : Result :=
  .next (((s.setX (s.cpu.x + 1)).setP (setZN (s.cpu.x + 1) s.cpu.p)).charge (baseCycles s.params .inx))

/-- INY (R204). -/
def execIny (s : State) : Result :=
  .next (((s.setY (s.cpu.y + 1)).setP (setZN (s.cpu.y + 1) s.cpu.p)).charge (baseCycles s.params .iny))

/-- DEX (R205). -/
def execDex (s : State) : Result :=
  .next (((s.setX (s.cpu.x - 1)).setP (setZN (s.cpu.x - 1) s.cpu.p)).charge (baseCycles s.params .dex))

/-- DEY (R206). -/
def execDey (s : State) : Result :=
  .next (((s.setY (s.cpu.y - 1)).setP (setZN (s.cpu.y - 1) s.cpu.p)).charge (baseCycles s.params .dey))

end Sys2Proof.Machine
end

