-- ==== Sys2Proof/Machine/Control.lean ====
section
/-! DEFINITION. Control-transfer instructions (43_control_flow.md R230 to R243). `PC` already holds the address of the next
instruction when a meaning runs (R23). -/

namespace Sys2Proof.Machine

/-- JMP (R231). -/
def execJmp (m : MemOperand) (s : State) : Result :=
  let r := resolve m s
  .next ((r.state.setPc r.ea).charge (baseCycles s.params (.jmp m)))

/-- JSR: pushes the address of its own last byte (R232). -/
def execJsr (w : Word) (s : State) : Result :=
  .next (((pushWord (s.cpu.pc - 1) s).setPc w).charge (baseCycles s.params (.jsr w)))

/-- RTS (R233). -/
def execRts (s : State) : Result :=
  let ret := pullWord s
  .next ((ret.state.setPc (ret.value + 1)).charge (baseCycles s.params .rts))

/-- BCC (R236). -/
def execBcc (off : Byte) (s : State) : Result := .next (branchInstr (.bcc off) (!flag s.cpu.p .c) off s)

/-- BCS (R237). -/
def execBcs (off : Byte) (s : State) : Result := .next (branchInstr (.bcs off) (flag s.cpu.p .c) off s)

/-- BEQ (R238). -/
def execBeq (off : Byte) (s : State) : Result := .next (branchInstr (.beq off) (flag s.cpu.p .z) off s)

/-- BNE (R239). -/
def execBne (off : Byte) (s : State) : Result := .next (branchInstr (.bne off) (!flag s.cpu.p .z) off s)

/-- BMI (R240). -/
def execBmi (off : Byte) (s : State) : Result := .next (branchInstr (.bmi off) (flag s.cpu.p .n) off s)

/-- BPL (R241). -/
def execBpl (off : Byte) (s : State) : Result := .next (branchInstr (.bpl off) (!flag s.cpu.p .n) off s)

/-- BVC (R242). -/
def execBvc (off : Byte) (s : State) : Result := .next (branchInstr (.bvc off) (!flag s.cpu.p .v) off s)

/-- BVS (R243). -/
def execBvs (off : Byte) (s : State) : Result := .next (branchInstr (.bvs off) (flag s.cpu.p .v) off s)

end Sys2Proof.Machine
end

