-- ==== Sys2Proof/Machine/LoadStore.lean ====
section
/-! DEFINITION. Load, store and transfer instructions (40_load_store_transfer.md R169 to R181). -/

namespace Sys2Proof.Machine

/-- LDA (R170). -/
def execLda (src : Source) (s : State) : Result :=
  .next (readInstr (.lda src) src (fun v s => (s.setA v).setP (setZN v s.cpu.p)) s)

/-- LDX (R171). -/
def execLdx (src : Source) (s : State) : Result :=
  .next (readInstr (.ldx src) src (fun v s => (s.setX v).setP (setZN v s.cpu.p)) s)

/-- LDY (R172). -/
def execLdy (src : Source) (s : State) : Result :=
  .next (readInstr (.ldy src) src (fun v s => (s.setY v).setP (setZN v s.cpu.p)) s)

/-- STA (R173). -/
def execSta (m : MemOperand) (s : State) : Result := .next (storeInstr (.sta m) m s.cpu.a s)

/-- STX (R174). -/
def execStx (m : MemOperand) (s : State) : Result := .next (storeInstr (.stx m) m s.cpu.x s)

/-- STY (R175). -/
def execSty (m : MemOperand) (s : State) : Result := .next (storeInstr (.sty m) m s.cpu.y s)

/-- TAX (R176). -/
def execTax (s : State) : Result :=
  .next (((s.setX s.cpu.a).setP (setZN s.cpu.a s.cpu.p)).charge (baseCycles s.params .tax))

/-- TAY (R177). -/
def execTay (s : State) : Result :=
  .next (((s.setY s.cpu.a).setP (setZN s.cpu.a s.cpu.p)).charge (baseCycles s.params .tay))

/-- TXA (R178). -/
def execTxa (s : State) : Result :=
  .next (((s.setA s.cpu.x).setP (setZN s.cpu.x s.cpu.p)).charge (baseCycles s.params .txa))

/-- TYA (R179). -/
def execTya (s : State) : Result :=
  .next (((s.setA s.cpu.y).setP (setZN s.cpu.y s.cpu.p)).charge (baseCycles s.params .tya))

/-- TSX (R180). -/
def execTsx (s : State) : Result :=
  .next (((s.setX s.cpu.s).setP (setZN s.cpu.s s.cpu.p)).charge (baseCycles s.params .tsx))

/-- TXS, which writes no flag (R181). -/
def execTxs (s : State) : Result :=
  .next ((s.setS s.cpu.x).charge (baseCycles s.params .txs))

end Sys2Proof.Machine
end

