-- ==== Sys2Proof/Machine/Shift.lean ====
section
/-! DEFINITION. Shift and rotate instructions (42_shift_rotate.md R220 to R224). -/

namespace Sys2Proof.Machine

/-- ASL (R221). -/
def execAsl (d : Target) (s : State) : Result := .next (shiftInstr (.asl d) d aslOut s)

/-- LSR (R222). -/
def execLsr (d : Target) (s : State) : Result := .next (shiftInstr (.lsr d) d lsrOut s)

/-- ROL (R223). -/
def execRol (d : Target) (s : State) : Result := .next (shiftInstr (.rol d) d rolOut s)

/-- ROR (R224). -/
def execRor (d : Target) (s : State) : Result := .next (shiftInstr (.ror d) d rorOut s)

end Sys2Proof.Machine
end

