-- ==== Sys2Proof/Machine/System.lean ====
section
/-! DEFINITION. Stack, flag and system instructions and the unmapped-opcode fallback (44_stack_flags_system.md R250 to
R265). -/

namespace Sys2Proof.Machine

/-- PHA (R251). -/
def execPha (s : State) : Result := .next ((push s.cpu.a s).charge (baseCycles s.params .pha))

/-- PLA (R252). -/
def execPla (s : State) : Result :=
  let v := pull s
  .next (((v.state.setA v.value).setP (setZN v.value s.cpu.p)).charge (baseCycles s.params .pla))

/-- PHP (R253). -/
def execPhp (s : State) : Result :=
  .next ((push (pushedByInstr s.cpu.p) s).charge (baseCycles s.params .php))

/-- PLP (R254). -/
def execPlp (s : State) : Result :=
  let v := pull s
  .next ((v.state.setP (pulledStatus v.value)).charge (baseCycles s.params .plp))

/-- A flag instruction: one flag gets a value. -/
def flagInstr (i : Instr) (f : Flag) (val : Bool) (s : State) : State :=
  (s.setP (setFlag f val s.cpu.p)).charge (baseCycles s.params i)

/-- CLC (R255). -/
def execClc (s : State) : Result := .next (flagInstr .clc .c false s)

/-- SEC (R256). -/
def execSec (s : State) : Result := .next (flagInstr .sec .c true s)

/-- CLI (R257). -/
def execCli (s : State) : Result := .next (flagInstr .cli .i false s)

/-- SEI (R258). -/
def execSei (s : State) : Result := .next (flagInstr .sei .i true s)

/-- CLD (R259). -/
def execCld (s : State) : Result := .next (flagInstr .cld .d false s)

/-- SED (R260). -/
def execSed (s : State) : Result := .next (flagInstr .sed .d true s)

/-- CLV (R261). -/
def execClv (s : State) : Result := .next (flagInstr .clv .v false s)

/-- NOP (R262). -/
def execNop (s : State) : Result := .next (s.charge (baseCycles s.params .nop))

/-- BRK: the return address skips the byte after the opcode (R263, R423). -/
def execBrk (s : State) : Result :=
  .next ((enterInterrupt (s.cpu.pc + 1) (pushedByInstr s.cpu.p) 0xFFFE s).charge (baseCycles s.params .brk))

/-- RTI (R264). -/
def execRti (s : State) : Result := .next ((returnFromInterrupt s).charge (baseCycles s.params .rti))

/-- UNMAPPED: a no-op of `UNMAPPED_CYCLES` (R265). -/
def execUnmapped (op : Byte) (s : State) : Result := .next (s.charge (baseCycles s.params (.unmapped op)))

end Sys2Proof.Machine
end

