-- ==== Sys2Proof/Machine/Fetch.lean ====
section
/-! DEFINITION. Fetching an instruction's bytes (30_encoding.md R130, R133) and placing bytes where they are fetched. -/

namespace Sys2Proof.Machine

/-- Fetch an instruction: the opcode byte, then the operand bytes its table entry calls for, each an ordinary bus read that
advances `PC` (R133, R136 to R146). -/
def fetchInstr (s : State) : ReadOut Instr :=
  let op := fetch8 s
  match opcodeForm op.value with
  | .none i => ⟨i, op.state⟩
  | .byte f =>
    let b := fetch8 op.state
    ⟨f b.value, b.state⟩
  | .word f =>
    let w := fetch16 op.state
    ⟨f w.value, w.state⟩

/-- Fetch a number of bytes at `PC`, one after the other. -/
def fetchBytes : Nat → State → ReadOut (List Byte)
  | 0, s => ⟨[], s⟩
  | n + 1, s =>
    let b := fetch8 s
    let rest := fetchBytes n b.state
    ⟨b.value :: rest.value, rest.state⟩

/-- Servicing a pending NMI at the top of a step, with its cycles (R133, R422). -/
def serviceNmi (s : State) : State :=
  if s.nmiPending then (nmiEntry s).charge s.params.nmiCycles else s

/-- An address whose backing byte can be set from outside: plain storage, or PRG data of a loaded cartridge. -/
def storable (a : Word) : Bool :=
  match busTarget a with
  | .ram _ => true
  | .exp _ => true
  | .prgRam _ => true
  | .prgRom => true
  | .ppuPort _ => false
  | .oamDma => false
  | .controller => false
  | .apu _ => false

/-- Set the backing byte of a storable address. -/
def placeByte (s : State) (a : Word) (v : Byte) : State :=
  match busTarget a with
  | .prgRom =>
    match s.cart with
    | some c => { s with cart := some { c with prg := c.prg.write (prgIndex s.params c s.map a) v } }
    | none => s
  | _ => (busPoke s a v).getD s

/-- Set the backing bytes of consecutive addresses. -/
def placeBytes (s : State) (a : Word) : List Byte → State
  | [] => s
  | b :: bs => placeBytes (placeByte s a b) (a + 1) bs

/-- A cartridge of one PRG bank under fixed mapping, with CHR-RAM, whose reset vector is 0x8000 and whose PRG data is otherwise
0x00: what `withFetchWord` loads into a machine that has none (log 11). -/
def blankCartridge : Cartridge where
  kind := .fixed
  prgBanks := 1
  chrBanks := 0
  prg := Memory.write [] 0x3FFD 0x80
  chr := []
  mirrorVertical := false
  battery := false
  trainer := false
  ignoreMirroring := false
  vs := 0
  version := 0

/-- What a load does once the image has been parsed: the cartridge and its mapper state, then `Init` (R372). -/
def insertCartridge (c : Cartridge) (s : State) : State :=
  hostInit { s with
    cart := some c
    map := Mapper.loaded (if c.mirrorVertical then .vertical else .horizontal) }

/-- A machine that can fetch three bytes at `PC`: with a cartridge, no NMI pending, and `PC` where storage is (log 11). -/
def readyToFetch (s : State) : State :=
  let s := match s.cart with
    | some _ => s
    | none => insertCartridge blankCartridge s
  let s := { s with nmiPending := false }
  if storable s.cpu.pc && storable (s.cpu.pc + 1) && storable (s.cpu.pc + 2) then s else s.setPc 0x0600

end Sys2Proof.Machine
end

