-- ==== Sys2Proof/Machine/PpuRender.lean ====
section
/-! DEFINITION. The pixel work of the visible scanlines and the four scroll operations (51_ppu_rendering.md R340 to R364). -/

namespace Sys2Proof.Machine

/-- *Rendering enabled*: `regs[1] & 0x18 != 0` (R36). -/
def Ppu.rendering (p : Ppu) : Bool := p.regs.mask &&& 0x18 != 0

/-! The scroll operations. -/

/-- `IncrementHorizontal()` on `v` (R360). -/
def incrementHorizontal (v : Scroll) : Scroll :=
  if v &&& 0x001F = 31 then (v &&& 0x7FE0) ^^^ 0x0400 else v + 1

/-- `IncrementVertical()` on `v` (R361). -/
def incrementVertical (v : Scroll) : Scroll :=
  if v &&& 0x7000 ≠ 0x7000 then v + 0x1000
  else
    let v := v &&& 0x0FFF
    let cy := (v >>> 5) &&& 31
    if cy = 29 then (v ^^^ 0x0800) &&& 0x7C1F
    else if cy = 31 then v &&& 0x7C1F
    else (v &&& 0x7C1F) ||| ((cy + 1) <<< 5)

/-- `CopyHorizontal()` on `v` (R362). -/
def copyHorizontal (v t : Scroll) : Scroll := (v &&& 0x7BE0) ||| (t &&& 0x041F)

/-- `CopyVertical()` on `v` (R363). -/
def copyVertical (v t : Scroll) : Scroll := (v &&& 0x041F) ||| (t &&& 0x7BE0)

/-! Background production. -/

/-- What `BgFetch` returns: a palette number and the two bit planes of a tile row (R341). -/
structure BgRow where
  palsel : Nat
  lo : Byte
  hi : Byte
  deriving DecidableEq, Repr

/-- The bus address of bit plane 0 of row `row` of tile `tile` in the pattern bank at `base` (R92, R341, R351). -/
def tileAddr (base : Word) (tile : Byte) (row : Word) : Word := base + tile.setWidth 16 * 16 + row

/-- The pattern bank a control bit selects (R35). -/
def patternBank (sel : Bool) : Word := if sel then 0x1000 else 0x0000

/-- `BgFetch()` (R341). -/
def bgFetch (s : State) : BgRow :=
  let v : Word := s.ppu.v.setWidth 16
  let tile := ppuRead s (0x2000 ||| (v &&& 0x0FFF))
  let at' := ppuRead s ((0x23C0 : Word) ||| (v &&& (0x0C00 : Word)) ||| ((v >>> 4) &&& (0x38 : Word)) ||| ((v >>> 2) &&& (0x07 : Word)))
  let shift := ((v >>> 4) &&& 4) ||| (v &&& 2)
  let addr := tileAddr (patternBank (s.ppu.regs.control.getLsbD 4)) tile ((v >>> 12) &&& 7)
  { palsel := (at' >>> shift.toNat &&& 3).toNat
    lo := ppuRead s addr
    hi := ppuRead s (addr + 8) }

/-- The 2-bit pixel at bit position `b` of two bit planes (R342, R352). -/
def planePixel (lo hi : Byte) (b : Nat) : Nat := 2 * (hi.getLsbD b).toNat + (lo.getLsbD b).toNat

/-- The colour index of a palette entry: its low 6 bits (R42, R342). -/
def palColour (p : Ppu) (i : Nat) : Colour := (p.pal.read i).setWidth 6

/-- The colour of a background pixel (R342). -/
def bgColour (p : Ppu) (palsel px : Nat) : Colour :=
  if px = 0 then palColour p 0 else palColour p (palsel * 4 + px)

/-- `Compose(s, x, palsel, px)` (R343). -/
def compose (row x palsel px : Nat) (p : Ppu) : Ppu :=
  let c := gridRead PrioCell.clear p.prio row x
  let cover := { p with grid := gridWrite 0 p.grid row x (bgColour p palsel px) }
  if c.spr then
    let p' := if c.behind ∧ px ≠ 0 then cover else p
    if c.zero ∧ px ≠ 0 then
      { p' with regs := { p'.regs with status := p'.regs.status ||| 0x40 } }
    else p'
  else cover

/-- One pixel of a tile row: pixel `i` of tile column `k` goes to column `8k + i - fx`, columns below 0 are dropped (R340). -/
def bgPixelStep (row k : Nat) (r : BgRow) (p : Ppu) (i : Nat) : Ppu :=
  if 8 * k + i < p.fx.toNat then p
  else compose row (8 * k + i - p.fx.toNat) r.palsel (planePixel r.lo r.hi (7 - i)) p

/-- `BgTile(s, k)` (R340, R344). -/
def bgTile (row k : Nat) (s : State) : Ppu :=
  let r := if s.ppu.regs.mask.getLsbD 3 then bgFetch s else ⟨0, 0x00, 0x00⟩
  let p := (List.range 8).foldl (bgPixelStep row k r) s.ppu
  if s.ppu.rendering then { p with v := incrementHorizontal p.v } else p

/-! Sprite evaluation. -/

/-- The sprite height that the control register selects (R35). -/
def spriteHeight (p : Ppu) : Nat := if p.regs.control.getLsbD 5 then 16 else 8

/-- Sprite `n` of primary OAM intersects the row after scanline `line`: `0 <= line - oam[4n] < h` (R346). -/
def spriteMatches (p : Ppu) (line n : Nat) : Bool :=
  let y := (p.oam.read (4 * n)).toNat
  y ≤ line && line < y + spriteHeight p

/-- The 32 bytes 0xFF that evaluation starts secondary OAM with (R346). -/
def secOamFill : Memory := (List.range 32).map fun i => (i, 0xFF)

/-- Copy the four bytes of sprite `n` of primary OAM into slot `slot` of secondary OAM (R346). -/
def copySprite (oam : Memory) (n slot : Nat) (sec : Memory) : Memory :=
  (List.range 4).foldl (fun m j => m.write (4 * slot + j) (oam.read (4 * n + j))) sec

/-- The scan of `SpriteEval` over the sprites still to visit (R346): the first eight matches are copied, the ninth sets the
overflow bit and ends the scan. -/
def spriteScan (line : Nat) : List Nat → Ppu → Ppu
  | [], p => p
  | n :: ns, p =>
    if spriteMatches p line n then
      if p.secCount < 8 then
        spriteScan line ns { p with
          secOam := copySprite p.oam n p.secCount p.secOam
          spr0Sel := p.spr0Sel || n == 0
          secCount := p.secCount + 1 }
      else { p with regs := { p.regs with status := p.regs.status ||| 0x20 } }
    else spriteScan line ns p

/-- `SpriteEval(N)` (R346). -/
def spriteEval (line : Nat) (p : Ppu) : Ppu :=
  if p.rendering then
    spriteScan line (List.range 64) { p with secOam := secOamFill, secCount := 0, spr0Sel := false }
  else p

/-! Sprite drawing. -/

/-- `SpriteFetch(tile, attr, row, h)`: the address of bit plane 0 (R351). -/
def spriteAddr (p : Ppu) (tile attr : Byte) (row : Nat) : Word :=
  let h := spriteHeight p
  let row := if attr.getLsbD 7 then h - 1 - row else row
  if h = 8 then
    tileAddr (patternBank (p.regs.control.getLsbD 3)) tile (BitVec.ofNat 16 row)
  else
    let base := patternBank (tile.getLsbD 0)
    let t := tile &&& 0xFE
    if 8 ≤ row then tileAddr base (t + 1) (BitVec.ofNat 16 (row - 8))
    else tileAddr base t (BitVec.ofNat 16 row)

/-- A sprite of secondary OAM about to be drawn: its slot, attributes, left column and the two bit planes of its row. -/
structure SpriteRow where
  slot : Nat
  attr : Byte
  xpos : Nat
  lo : Byte
  hi : Byte
  deriving DecidableEq, Repr

/-- `SpritePixel(r, s, attr, xpos, lo, hi, i)` (R352). -/
def spritePixel (row : Nat) (sp : SpriteRow) (p : Ppu) (i : Nat) : Ppu :=
  let px := planePixel sp.lo sp.hi (if sp.attr.getLsbD 6 then i else 7 - i)
  let x := sp.xpos + i
  if px = 0 ∨ 255 < x then p
  else if (gridRead PrioCell.clear p.prio row x).spr then p
  else
    { p with
      grid := gridWrite 0 p.grid row x (palColour p (0x10 + (sp.attr &&& 3).toNat * 4 + px))
      prio := gridWrite PrioCell.clear p.prio row x
        ⟨true, sp.attr.getLsbD 5, sp.slot == 0 && p.spr0Sel⟩ }

/-- One sprite of secondary OAM drawn into row `line + 1`; a slot whose rows do not include it is skipped (R350). The pattern
bytes are fetched through the PPU bus of `s`. -/
def spriteDrawSlot (line : Nat) (s : State) (p : Ppu) (slot : Nat) : Ppu :=
  let y := (p.secOam.read (4 * slot)).toNat
  let tile := p.secOam.read (4 * slot + 1)
  let attr := p.secOam.read (4 * slot + 2)
  let xpos := (p.secOam.read (4 * slot + 3)).toNat
  if y ≤ line ∧ line < y + spriteHeight p then
    let addr := spriteAddr p tile attr (line - y)
    let sp : SpriteRow := ⟨slot, attr, xpos, ppuRead s addr, ppuRead s (addr + 8)⟩
    (List.range 8).foldl (spritePixel (line + 1) sp) p
  else p

/-- `SpriteDraw(N)` (R350). -/
def spriteDraw (line : Nat) (s : State) : Ppu :=
  if 239 < line + 1 then s.ppu
  else
    let p := { s.ppu with prio := gridClearRow s.ppu.prio (line + 1) }
    if p.regs.mask.getLsbD 4 then
      (List.range p.secCount).foldl (spriteDrawSlot line s) p
    else p

end Sys2Proof.Machine
end

