-- ==== Sys2Proof/Machine/PpuStep.lean ====
section
/-! DEFINITION. The dot/scanline machine (50_ppu_core.md R310 to R316). -/

namespace Sys2Proof.Machine

/-- `Advance()` (R315). -/
def advance (p : Ppu) : Ppu :=
  if p.dot + 1 = 341 then
    { p with dot := 0, scanline := if p.scanline + 1 = 262 then 0 else p.scanline + 1 }
  else { p with dot := p.dot + 1 }

/-- The work of a dot of a visible scanline (R310). The tests of the dot exclude each other. -/
def visibleDot (s : State) : Ppu :=
  let p := s.ppu
  let line := p.scanline
  let d := p.dot
  if 1 ≤ d ∧ d ≤ 249 ∧ (d - 1) % 8 = 0 then
    let p := bgTile line ((d - 1) / 8) s
    if d = 65 then spriteEval line p else p
  else if d = 255 then spriteDraw line s
  else if d = 256 ∧ p.rendering then { p with v := incrementVertical p.v }
  else if d = 257 ∧ p.rendering then { p with v := copyHorizontal p.v p.t }
  else p

/-- The work of a dot of the pre-render scanline (R310, R313). -/
def preRenderDot (p : Ppu) : Ppu :=
  if p.dot = 1 then { p with regs := { p.regs with status := p.regs.status &&& 0x1F } }
  else if p.dot = 257 ∧ p.rendering then { p with v := copyHorizontal p.v p.t }
  else if 280 ≤ p.dot ∧ p.dot ≤ 304 ∧ p.rendering then { p with v := copyVertical p.v p.t }
  else p

/-- The work of the current position on the PPU's own state (R310). -/
def dotWork (s : State) : Ppu :=
  let p := s.ppu
  if p.scanline ≤ 239 then visibleDot s
  else if p.scanline = 240 then
    if p.dot = 0 then { p with frameComplete := true } else p
  else if p.scanline = 241 then
    if p.dot = 1 then { p with regs := { p.regs with status := p.regs.status ||| 0x80 } } else p
  else if p.scanline ≤ 260 then p
  else preRenderDot p

/-- Vblank entry raises the request when the NMI-enable bit is set (R312). -/
def raisesNmi (p : Ppu) : Bool := p.scanline == 241 && p.dot == 1 && p.regs.control.getLsbD 7

/-- `PpuStep()`: the work of the current position, then the advance (R310). -/
def ppuStep (s : State) : State :=
  { s with ppu := advance (dotWork s), nmiPending := s.nmiPending || raisesNmi s.ppu }

/-- A number of PPU steps in a row (R471). -/
def ppuSteps : Nat → State → State
  | 0, s => s
  | n + 1, s => ppuSteps n (ppuStep s)

end Sys2Proof.Machine
end

