-- ==== Sys2Proof/Machine/Step.lean ====
section
/-! DEFINITION. One step of the machine: `SystemStep`, the driver contract (70_reset_and_hazards.md R471). -/

namespace Sys2Proof.Machine

/-- `CpuStep()` (R133). The count it returns is left in `cycles` (log 5). -/
def cpuStep (s : State) : Result :=
  let i := fetchInstr (serviceNmi { s with cycles := 0 })
  exec i.value i.state

/-- The PPU steps that follow a CPU step: three for each cycle it reported (R471). -/
def ppuFollow (s : State) : State := ppuSteps (3 * s.cycles.toNat) s

/-- `SystemStep()` (R471); refused before any cartridge is loaded (R455). -/
def step (s : State) : Host.Outcome State Fault Refusal :=
  match s.cart with
  | none => .refused .noCartridge
  | some _ =>
    match cpuStep s with
    | .next t => .next (ppuFollow t)
    | .fault r => .fault r
    | .refused r => .refused r

/-- The state with an instruction stored where `step` fetches its next instruction: the bytes stand at `PC`, in a machine that
has a cartridge and no NMI pending (log 11). -/
def State.withFetchWord (s : State) (nbits w : Nat) : State :=
  let s := readyToFetch s
  placeBytes s s.cpu.pc (tableBytes nbits w)

end Sys2Proof.Machine
end

