-- ==== Sys2Proof/Machine/HostCalls.lean ====
section
/-! DEFINITION. The cartridge image and its load (55_cartridge_mapper.md R370 to R373), and the host interface
(70_reset_and_hazards.md R470 to R475). -/

namespace Sys2Proof.Machine

/-- The load errors (R373). -/
inductive RomError
  | unreadable
  | invalidHeader
  | unsupportedMapper (number : Byte)
  deriving DecidableEq, Repr

/-- The magic bytes of an image (R370). -/
def magic : List Byte := [0x4E, 0x45, 0x53, 0x1A]

/-- The mapper number of a header: `(byte7 & 0xF0) | (byte6 >> 4)` (R371). -/
def mapperNumber (bytes : List Byte) : Byte := (bytes.getD 7 0 &&& 0xF0) ||| (bytes.getD 6 0 >>> 4)

/-- Where the PRG data of an image begins: after the header and the optional trainer (R370, R372). -/
def prgOffset (bytes : List Byte) : Nat := 16 + (if (bytes.getD 6 0).getLsbD 2 then 512 else 0)

/-- The length an image's header announces (R372). -/
def announcedLength (bytes : List Byte) : Nat :=
  prgOffset bytes + 16384 * (bytes.getD 4 0).toNat + 8192 * (bytes.getD 5 0).toNat

/-- The cartridge of an image that has passed the checks, with a mapper kind (R371, R372). -/
def cartridgeOf (bytes : List Byte) (kind : MapperKind) : Cartridge :=
  let prgLen := 16384 * (bytes.getD 4 0).toNat
  let chrLen := 8192 * (bytes.getD 5 0).toNat
  let flags6 := bytes.getD 6 0
  let flags7 := bytes.getD 7 0
  { kind := kind
    prgBanks := (bytes.getD 4 0).toNat
    chrBanks := (bytes.getD 5 0).toNat
    prg := Memory.ofBytes ((bytes.drop (prgOffset bytes)).take prgLen)
    chr := Memory.ofBytes ((bytes.drop (prgOffset bytes + prgLen)).take chrLen)
    mirrorVertical := flags6.getLsbD 0
    battery := flags6.getLsbD 1
    trainer := flags6.getLsbD 2
    ignoreMirroring := flags6.getLsbD 3
    vs := flags7.extractLsb' 0 2
    version := flags7.extractLsb' 2 2 }

/-- The header parse, its checks in the order of R372. -/
def parseImage (bytes : List Byte) : Except RomError Cartridge :=
  if bytes.length < 16 then .error .invalidHeader
  else if bytes.take 4 ≠ magic then .error .invalidHeader
  else if bytes.getD 4 0 = 0 then .error .invalidHeader
  else if mapperNumber bytes ≠ 0 ∧ mapperNumber bytes ≠ 1 then .error (.unsupportedMapper (mapperNumber bytes))
  else if bytes.length < announcedLength bytes then .error .invalidHeader
  else .ok (cartridgeOf bytes (if mapperNumber bytes = 0 then .fixed else .serialShift))

/-- The calls of R470, and `BusPoke` (R84). `loadCartridge none` is a file the host could not read (R373). -/
inductive HostCall
  | loadCartridge (image : Option (List Byte))
  | reset
  | stepCpu
  | stepPpu
  | frameComplete
  | takeFrame
  | buttonDown (k : Nat)
  | buttonUp (k : Nat)
  | peek (a : Word)
  | poke (a : Word) (v : Byte)
  deriving DecidableEq, Repr

/-- Why a host call is refused: no cartridge is loaded (R455), a button index above 7 (R475), or a poke of an address with no
plain storage behind it (R84). -/
inductive HostRefusal
  | noCartridge
  | buttonIndex
  | pokeTarget
  deriving DecidableEq, Repr

/-- The outcomes of a host call (R16): a normal return with its value, a load error, or a refusal. -/
inductive HostReply
  | done
  | cycles (n : Cycles)
  | bool (b : Bool)
  | byte (b : Byte)
  | picture (rows : List (List (BitVec 32)))
  | romError (e : RomError)
  | refused (r : HostRefusal)
  deriving DecidableEq, Repr

/-- The picture of `take_frame`: 240 rows of 256 RGBA values (R474). -/
def picture (p : Ppu) : List (List (BitVec 32)) :=
  (List.range 240).map fun r => (List.range 256).map fun c => Config.systemPalette (gridRead 0 p.grid r c)

/-- A call that needs a loaded cartridge (R455). -/
def whenLoaded (s : State) (f : HostReply × State) : HostReply × State :=
  match s.cart with
  | some _ => f
  | none => (.refused .noCartridge, s)

/-- The effect of a host call (R470). -/
def hostCall (call : HostCall) (s : State) : HostReply × State :=
  match call with
  | .loadCartridge none => (.romError .unreadable, s)
  | .loadCartridge (some bytes) =>
    match parseImage bytes with
    | .error e => (.romError e, s)
    | .ok c => (.done, insertCartridge c s)
  | .reset => whenLoaded s (.done, hostInit s)
  | .stepCpu =>
    whenLoaded s (match cpuStep s with
      | .next t => (.cycles t.cycles, t)
      | .fault r => nomatch r
      | .refused _ => (.refused .noCartridge, s))
  | .stepPpu => whenLoaded s (.done, ppuStep s)
  | .frameComplete => (.bool s.ppu.frameComplete, s)
  | .takeFrame =>
    whenLoaded s (.picture (picture s.ppu), { s with ppu := { s.ppu with frameComplete := false } })
  | .buttonDown k => if k ≤ 7 then (.done, setButton s k true) else (.refused .buttonIndex, s)
  | .buttonUp k => if k ≤ 7 then (.done, setButton s k false) else (.refused .buttonIndex, s)
  | .peek a =>
    if a.toNat < 0x8000 then (.byte (busPeek s a), s) else whenLoaded s (.byte (busPeek s a), s)
  | .poke a v =>
    match busPoke s a v with
    | some t => (.done, t)
    | none => (.refused .pokeTarget, s)

end Sys2Proof.Machine
end

