-- ==== Sys2Proof/Safety.lean ====
section
/-! DEFINITION. The words claims are made in: the machine's invariants (10_state.md R54), what an instruction leaves unchanged,
and the position of the PPU. -/

namespace Sys2Proof.Machine

/-! The invariants of R54, with the canonical form and the bounds of every storage. Each is decidable. -/

/-- The bus storage is canonical and inside its arrays (R28 to R30). -/
abbrev Bus.Inv (b : Bus) : Prop :=
  (b.ram.wf ∧ Sparse.below 0x800 b.ram) ∧
  (b.exp.wf ∧ Sparse.below 0x1FE8 b.exp) ∧
  (b.apu.wf ∧ ∀ e ∈ b.apu, e.1 < 0x18 ∧ e.1 ≠ 0x14 ∧ e.1 ≠ 0x16)

/-- The PPU's counters are in range, the unused status bits are 0, its storage is canonical and inside its arrays (R32, R37,
R40 to R46, R54). -/
abbrev Ppu.Inv (p : Ppu) : Prop :=
  (p.dot ≤ 340 ∧ p.scanline ≤ 261) ∧
  p.regs.status &&& 0x1F = 0 ∧
  p.secCount ≤ 8 ∧
  (p.oam.wf ∧ Sparse.below 256 p.oam) ∧
  (p.secOam.wf ∧ Sparse.below 32 p.secOam) ∧
  (p.nt.wf ∧ Sparse.below 0x800 p.nt) ∧
  (p.pal.wf ∧ ∀ e ∈ p.pal, e.1 < 32 ∧ (e.1 % 4 = 0 → e.1 = 0)) ∧
  Grid.wf 0 p.grid ∧ Grid.wf PrioCell.clear p.prio

/-- The serial port has not committed yet, and the cartridge RAMs are canonical and inside their arrays (R48, R50, R54). -/
abbrev Mapper.Inv (m : Mapper) : Prop :=
  m.count ≤ 4 ∧
  (m.prgRam.wf ∧ Sparse.below 0x2000 m.prgRam) ∧
  (m.chrRam.wf ∧ Sparse.below 0x2000 m.chrRam)

/-- A loaded cartridge has 1 to 255 PRG banks and at most 255 CHR banks, and its data fills no more than them (R47). -/
abbrev Cartridge.Inv (c : Cartridge) : Prop :=
  (1 ≤ c.prgBanks ∧ c.prgBanks ≤ 255) ∧ c.chrBanks ≤ 255 ∧
  (c.prg.wf ∧ Sparse.below (16384 * c.prgBanks) c.prg) ∧
  (c.chr.wf ∧ Sparse.below (8192 * c.chrBanks) c.chr)

/-- The break bit of the register is 0 and the unused bit is 1 (R26). -/
abbrev Cpu.Inv (c : Cpu) : Prop := c.p &&& 0x30 = 0x20

/-- The machine's invariant (R54). -/
abbrev State.Inv (s : State) : Prop :=
  s.cpu.Inv ∧ s.bus.Inv ∧ s.ppu.Inv ∧ s.map.Inv ∧ ∀ c ∈ s.cart, c.Inv

/-! What an instruction leaves unchanged. -/

/-- An address whose read has no side effect and whose peek shows what is stored: every target but the PPU ports and the
controller port (R72, R103). -/
def quiet (a : Word) : Bool :=
  match busTarget a with
  | .ppuPort _ => false
  | .controller => false
  | .ram _ => true
  | .oamDma => true
  | .apu _ => true
  | .exp _ => true
  | .prgRam _ => true
  | .prgRom => true

/-- Every byte of storage reads as before: on the CPU bus, on the PPU bus, and in OAM. -/
def StorageKept (s t : State) : Prop :=
  (∀ a : Word, quiet a = true → busPeek t a = busPeek s a) ∧
  (∀ a : Word, ppuRead t a = ppuRead s a) ∧
  ∀ n : Nat, t.ppu.oam.read n = s.ppu.oam.read n

/-- Every byte on the CPU bus reads as before, but those whose target is one of the given addresses'. -/
def BusKeptBut (stored : List Word) (s t : State) : Prop :=
  ∀ a : Word, quiet a = true → (∀ b ∈ stored, busTarget a ≠ busTarget b) → busPeek t a = busPeek s a

/-- Nothing outside the CPU registers and the cycle count differs from `r`. -/
def OnlyCpuDiffers (r t : State) : Prop := t = { r with cpu := t.cpu, cycles := t.cycles }

/-- Nothing but internal RAM, the CPU registers and the cycle count differs from `r`. -/
def OnlyCpuAndRamDiffer (r t : State) : Prop :=
  t = { r with cpu := t.cpu, cycles := t.cycles, bus := { r.bus with ram := t.bus.ram } }

/-- Every flag keeps its value but those listed. -/
def FlagsKeptBut (written : List Flag) (s t : State) : Prop :=
  ∀ f : Flag, f ∉ written → flag t.cpu.p f = flag s.cpu.p f

/-- `Z` and `N` are those of a result byte (R14 `SetZN`). -/
def ZNOf (v : Byte) (t : State) : Prop :=
  (flag t.cpu.p .z = true ↔ v.toNat = 0) ∧ (flag t.cpu.p .n = true ↔ 0x80 ≤ v.toNat)

/-! The position of the PPU. -/

/-- The index of a position in the frame: `scanline * 341 + dot` (R462). -/
def Ppu.index (p : Ppu) : Nat := p.scanline * 341 + p.dot

/-- The number of PPU steps of a frame (R315). -/
def frameSteps : Nat := 89342

end Sys2Proof.Machine
end

