-- ==== Sys2Proof/Certificates/Slice0/Obligations.lean ====
section
/-! DEFINITION. The statements about the NES core that the provers settle. -/

open Sys2Proof Sys2Proof.Machine

/-! ## Encoding and the step -/

/-- Decoding the bytes of a well-formed instruction gives it back, with the bytes after it left over (R130, R148, R149). -/
def Obligations.DecodeOfEncode : Prop :=
  ∀ (i : Instr) (rest : List Byte), WellFormed i = true → decode (encode i ++ rest) = .ok (i, rest)

/-- Bytes that decode are the encoding of a well-formed instruction and what follows: each byte string has one meaning (R130,
R132, R151). -/
def Obligations.EncodeOfDecode : Prop :=
  ∀ (bytes rest : List Byte) (i : Instr),
    decode bytes = .ok (i, rest) → WellFormed i = true ∧ bytes = encode i ++ rest

/-- Words written out from the spec's encodings decode to the instructions they stand for (R149, R151). -/
def Obligations.WordsOfTheSpecDecode : Prop :=
  decode [0xA9, 0x10] = .ok (.lda (.immediate 0x10), []) ∧
  decode [0xBD, 0x34, 0x12] = .ok (.lda (.mem (.absoluteX 0x1234)), []) ∧
  decode [0x96, 0xFF] = .ok (.stx (.zeropageY 0xFF), []) ∧
  decode [0x71, 0x20] = .ok (.adc (.mem (.indirectIndexed 0x20)), []) ∧
  decode [0x6A] = .ok (.ror .accumulator, []) ∧
  decode [0x6C, 0xFF, 0x02] = .ok (.jmp (.indirect 0x02FF), []) ∧
  decode [0x20, 0x10, 0x80] = .ok (.jsr 0x8010, []) ∧
  decode [0xD0, 0xF7] = .ok (.bne 0xF7, []) ∧
  decode [0x40] = .ok (.rti, []) ∧
  decode [0x02, 0xA9] = .ok (.unmapped 0x02, [0xA9])

/-- No opcode byte is illegal: any three bytes hold an instruction of one to three bytes, and the first byte alone decides its
length (R130, R152). -/
def Obligations.EveryOpcodeByteDecodes : Prop :=
  ∀ op : Byte, ∃ n : Nat, 1 ≤ n ∧ n ≤ 3 ∧
    ∀ (b c : Byte) (rest : List Byte),
      ∃ i : Instr, decode (op :: b :: c :: rest) = .ok (i, (op :: b :: c :: rest).drop n) ∧ i.length = n

/-- One step: a pending NMI is serviced first, which is NMI entry and the NMI's cycles, then an instruction is fetched byte by byte
and run, and then three PPU steps follow for each cycle counted; `step_cpu` is the same without the PPU steps and returns the count.
The count starts at 0 and is a 32-bit number (R133, R471, R472). -/
def Obligations.StepRunsTheFetchedInstruction : Prop :=
  ∀ (s : State) (c : Cartridge) (n : Nat) (i : Instr), s.cart = some c →
    let start := { s with cycles := 0 }
    let serviced := if s.nmiPending = true then { nmiEntry start with cycles := s.params.nmiCycles } else start
    let f := fetchBytes n serviced
    decode f.value = .ok (i, []) →
    ∃ t, exec i f.state = .next t ∧
      step s = .next (ppuSteps (3 * t.cycles.toNat) t) ∧
      hostCall .stepCpu s = (.cycles t.cycles, t)

/-- With no NMI pending, and the instruction's bytes at `PC` where reads have no side effect, one step is the meaning of the
decoded instruction at this state with `PC` moved past it, and then three PPU steps for each cycle (R23, R133, R471). -/
def Obligations.StepRunsTheInstructionAtPc : Prop :=
  ∀ (s : State) (c : Cartridge) (i : Instr) (rest : List Byte), s.cart = some c → s.nmiPending = false →
    decode [busValue s s.cpu.pc, busValue s (s.cpu.pc + 1), busValue s (s.cpu.pc + 2)] = .ok (i, rest) →
    (∀ k < i.length, quiet (s.cpu.pc + BitVec.ofNat 16 k) = true) →
    ∃ t, exec i { s with cpu := { s.cpu with pc := s.cpu.pc + BitVec.ofNat 16 i.length }, cycles := 0 } = .next t ∧
      step s = .next (ppuSteps (3 * t.cycles.toNat) t)

/-- A machine with a cartridge never faults and is never refused, however many steps it takes, and its cartridge and
parameters stay as they are (R47, R420). -/
def Obligations.LoadedMachineRunsForever : Prop :=
  ∀ (k : Nat) (s : State), s.cart.isSome = true →
    ∃ t, Sys2Proof.core.run k s = .next t ∧ t.cart = s.cart ∧ t.params = s.params

/-- Before any cartridge is loaded a step is refused, and so are the host's calls that need one (R455). -/
def Obligations.UnloadedMachineIsRefused : Prop :=
  ∀ s : State, s.cart = none →
    step s = .refused .noCartridge ∧
    hostCall .stepCpu s = (.refused .noCartridge, s) ∧
    hostCall .stepPpu s = (.refused .noCartridge, s) ∧
    hostCall .reset s = (.refused .noCartridge, s) ∧
    hostCall .takeFrame s = (.refused .noCartridge, s) ∧
    ∀ a : Word, 0x8000 ≤ a.toNat → hostCall (.peek a) s = (.refused .noCartridge, s)

/-! ## Invariants -/

/-- The invariant holds of the created machine (R53, R54). -/
def Obligations.InvHoldsAtReset : Prop := State.reset.Inv

/-- Every step keeps the invariant (R54). -/
def Obligations.StepKeepsInv : Prop :=
  ∀ s t : State, s.Inv → step s = .next t → t.Inv

/-- Every host call keeps the invariant, whatever image is loaded (R54, R372, R470). -/
def Obligations.HostCallsKeepInv : Prop :=
  ∀ (call : HostCall) (s : State), s.Inv → (hostCall call s).2.Inv

/-- PPU steps change the PPU's own state and may raise the NMI request; they touch no CPU register, no CPU memory and no mapper
register, withdraw no request and write no PPU register but the status register (R104, R310). -/
def Obligations.PpuStepsTouchOnlyThePpu : Prop :=
  ∀ (n : Nat) (s : State),
    let t := ppuSteps n s
    t = { s with ppu := t.ppu, nmiPending := t.nmiPending } ∧
    (s.nmiPending = true → t.nmiPending = true) ∧
    t.ppu.regs = { s.ppu.regs with status := t.ppu.regs.status } ∧
    t.ppu.oam = s.ppu.oam ∧ t.ppu.nt = s.ppu.nt ∧ t.ppu.pal = s.ppu.pal ∧
    t.ppu.t = s.ppu.t ∧ t.ppu.fx = s.ppu.fx ∧ t.ppu.w = s.ppu.w ∧ t.ppu.rdbuf = s.ppu.rdbuf

/-! ## Load, store, transfer -/

/-- Every operand form, in numbers, and the loads that take it. Page-0 sums and the second byte of a page-0 pointer wrap within page
0, indexed sums wrap at 0x10000, the extra cycle is 1 exactly when an indexed sum leaves the page of its base, and resolving changes
nothing. A load takes its operand's value into its register, sets `Z` and `N` from it, and changes no other register, no other flag
and no byte of storage; the rest of the machine is as the operand's read left it. The base cycles of a reading instruction are those
of its mode (R138 to R141, R143 to R145, R147, R149, R169 to R172). -/
def Obligations.LoadsTakeTheOperand : Prop :=
  (∀ (s : State) (b : Byte) (w : Word),
    let x := s.cpu.x.toNat
    let y := s.cpu.y.toNat
    let page0 := fun (n : Nat) => (busValue s (BitVec.ofNat 16 (n % 256))).toNat
    let pointer := fun (n : Nat) => page0 (n + 1) * 256 + page0 n
    let at' := fun (m : MemOperand) (ea : Nat) (extra : Cycles) =>
      (resolve m s).ea.toNat = ea ∧ (resolve m s).extra = extra ∧ (resolve m s).state = s
    let indexed := fun (m : MemOperand) (base index : Nat) =>
      at' m ((base + index) % 0x10000) (if (base + index) % 0x10000 / 256 = base / 256 then 0 else 1)
    at' (.zeropage b) b.toNat 0 ∧
    at' (.zeropageX b) ((b.toNat + x) % 256) 0 ∧
    at' (.zeropageY b) ((b.toNat + y) % 256) 0 ∧
    at' (.absolute w) w.toNat 0 ∧
    indexed (.absoluteX w) w.toNat x ∧
    indexed (.absoluteY w) w.toNat y ∧
    at' (.indexedIndirect b) (pointer (b.toNat + x)) 0 ∧
    indexed (.indirectIndexed b) (pointer b.toNat) y) ∧
  (readCycles .immediate = 2 ∧ readCycles .zeropage = 3 ∧ readCycles .zeropageX = 4 ∧ readCycles .zeropageY = 4 ∧
    readCycles .absolute = 4 ∧ readCycles .absoluteX = 4 ∧ readCycles .absoluteY = 4 ∧ readCycles .indexedIndirect = 6 ∧
    readCycles .indirectIndexed = 5) ∧
  ∀ (src : Source) (s : State),
    let v := operandValue src s
    let claim := fun (i : Instr) (cpu : Cpu) =>
      ∃ t, exec i s = .next t ∧ t.cpu = { cpu with p := t.cpu.p } ∧ ZNOf v.value t ∧ FlagsKeptBut [.z, .n] s t ∧
        OnlyCpuDiffers v.state t ∧ StorageKept s t ∧ t.cycles = s.cycles + readCycles src.mode + v.extra
    (match src with
      | .immediate b => v.value = b ∧ v.extra = 0 ∧ v.state = s
      | .mem m =>
        let r := resolve m s
        v.value = busValue r.state r.ea ∧ v.extra = r.extra ∧ v.state = busAfterRead r.state r.ea) ∧
    claim (.lda src) { s.cpu with a := v.value } ∧
    claim (.ldx src) { s.cpu with x := v.value } ∧
    claim (.ldy src) { s.cpu with y := v.value }

/-- A store completes with one bus write of its register at the operand's effective address, leaves every CPU register and flag
as it was, and counts the base cycles of its mode, the page-cross cycle where stores have it, and those of an OAM-DMA it starts
(R134, R149, R173 to R175). -/
def Obligations.StoresWriteTheirRegister : Prop :=
  (storeCycles .zeropage = 3 ∧ storeCycles .zeropageX = 4 ∧ storeCycles .zeropageY = 4 ∧ storeCycles .absolute = 4 ∧
    storeCycles .absoluteX = 5 ∧ storeCycles .absoluteY = 5 ∧ storeCycles .indexedIndirect = 6 ∧
    storeCycles .indirectIndexed = 6) ∧
  ∀ (m : MemOperand) (s : State),
    let r := resolve m s
    let claim := fun (i : Instr) (v : Byte) =>
      ∃ t, exec i s = .next t ∧ t.cpu = s.cpu ∧
        t = { busWrite r.state r.ea v with cycles := t.cycles } ∧
        t.cycles = s.cycles + storeCycles m.mode +
          (if s.params.pageCrossOnAll = true then r.extra else 0) +
          (if r.ea = 0x4014 then s.params.oamDmaCycles else 0)
    claim (.sta m) s.cpu.a ∧ claim (.stx m) s.cpu.x ∧ claim (.sty m) s.cpu.y

/-- The memory frame of every instruction that stores to its operand, at the effective address `ea` its operand resolves to: no byte
on the CPU bus changes but those of the target of `ea` (a store to 0x8000 and above changes no byte but may switch banks, R79), and
a store to plain storage leaves the PPU, its bus, OAM, the mapper registers and the cartridge alone (R73, R79, R100). -/
def Obligations.StoringInstructionsTouchOnlyTheirTarget : Prop :=
  ∀ (m : MemOperand) (s t : State) (ea : Word) (i : Instr),
    i ∈ [Instr.sta m, .stx m, .sty m, .inc m, .dec m, .asl (.mem m), .lsr (.mem m), .rol (.mem m), .ror (.mem m)] →
    exec i s = .next t → (resolve m s).ea = ea →
      t.cart = s.cart ∧ t.params = s.params ∧
      (∀ a : Word, quiet a = true → busTarget a ≠ busTarget ea → (a.toNat < 0x8000 ∨ ea.toNat < 0x8000) →
        busPeek t a = busPeek s a) ∧
      (quiet ea = true → ea ≠ 0x4014 → ea.toNat < 0x8000 →
        t.ppu = (resolve m s).state.ppu ∧ t.map = { s.map with prgRam := t.map.prgRam } ∧
        (∀ a : Word, ppuRead t a = ppuRead s a) ∧ ∀ n : Nat, t.ppu.oam.read n = s.ppu.oam.read n)

/-- The six transfers: encoding, result, nothing else changed, 2 cycles; `Z` and `N` follow the value, but TXS writes no flag
(R176 to R181). -/
def Obligations.TransfersMoveRegisters : Prop :=
  ∀ s : State,
    let claim := fun (i : Instr) (op v : Byte) (cpu : Cpu) =>
      encode i = [op] ∧
      ∃ t, exec i s = .next t ∧ t.cpu = { cpu with p := t.cpu.p } ∧ ZNOf v t ∧ FlagsKeptBut [.z, .n] s t ∧
        OnlyCpuDiffers s t ∧ StorageKept s t ∧ t.cycles = s.cycles + 2
    claim .tax 0xAA s.cpu.a { s.cpu with x := s.cpu.a } ∧
    claim .tay 0xA8 s.cpu.a { s.cpu with y := s.cpu.a } ∧
    claim .txa 0x8A s.cpu.x { s.cpu with a := s.cpu.x } ∧
    claim .tya 0x98 s.cpu.y { s.cpu with a := s.cpu.y } ∧
    claim .tsx 0xBA s.cpu.s { s.cpu with x := s.cpu.s } ∧
    (encode .txs = [0x9A] ∧
      ∃ t, exec .txs s = .next t ∧ t.cpu = { s.cpu with s := s.cpu.x } ∧
        OnlyCpuDiffers s t ∧ StorageKept s t ∧ t.cycles = s.cycles + 2)

/-! ## Arithmetic, logic, compare -/

/-- ADC: the result is the sum modulo 256, `C` is the unsigned carry, `V` the two's-complement overflow, `Z` and `N` follow the
result; nothing else changes (R192). -/
def Obligations.AdcAddsInBinary : Prop :=
  ∀ (src : Source) (s : State),
    let v := operandValue src s
    let sum := s.cpu.a.toNat + v.value.toNat + (flag s.cpu.p .c).toNat
    let signed := s.cpu.a.toInt + v.value.toInt + ((flag s.cpu.p .c).toNat : Int)
    ∃ t, exec (.adc src) s = .next t ∧
      t.cpu = { s.cpu with a := t.cpu.a, p := t.cpu.p } ∧ t.cpu.a.toNat = sum % 256 ∧
      (flag t.cpu.p .c = true ↔ 0x100 ≤ sum) ∧ (flag t.cpu.p .v = true ↔ (signed < -128 ∨ 127 < signed)) ∧
      ZNOf t.cpu.a t ∧ FlagsKeptBut [.c, .z, .v, .n] s t ∧
      OnlyCpuDiffers v.state t ∧ StorageKept s t ∧ t.cycles = s.cycles + readCycles src.mode + v.extra

/-- SBC: the result is `A - operand - (1 - C)` modulo 256, `C` is 1 when there is no borrow, `V` the signed overflow of the
subtraction, `Z` and `N` follow the result; nothing else changes (R193). -/
def Obligations.SbcSubtractsWithBorrow : Prop :=
  ∀ (src : Source) (s : State),
    let v := operandValue src s
    let borrow := 1 - (flag s.cpu.p .c).toNat
    let signed := s.cpu.a.toInt - v.value.toInt - (borrow : Int)
    ∃ t, exec (.sbc src) s = .next t ∧
      t.cpu = { s.cpu with a := t.cpu.a, p := t.cpu.p } ∧
      t.cpu.a.toNat = (s.cpu.a.toNat + 256 - v.value.toNat + 256 - borrow) % 256 ∧
      (flag t.cpu.p .c = true ↔ v.value.toNat + borrow ≤ s.cpu.a.toNat) ∧
      (flag t.cpu.p .v = true ↔ (signed < -128 ∨ 127 < signed)) ∧
      ZNOf t.cpu.a t ∧ FlagsKeptBut [.c, .z, .v, .n] s t ∧
      OnlyCpuDiffers v.state t ∧ StorageKept s t ∧ t.cycles = s.cycles + readCycles src.mode + v.extra

/-- The decimal flag has no effect on ADC and SBC: two machines that differ in it only end with the same registers and flags,
the decimal flag apart (R191). -/
def Obligations.DecimalFlagHasNoEffect : Prop :=
  ∀ (src : Source) (s : State) (i : Instr), i ∈ [Instr.adc src, .sbc src] →
    ∃ t, exec i s = .next t ∧
      exec i (s.setP (setFlag .d true s.cpu.p)) = .next (t.setP (setFlag .d true t.cpu.p)) ∧
      exec i (s.setP (setFlag .d false s.cpu.p)) = .next (t.setP (setFlag .d false t.cpu.p))

/-- AND, ORA and EOR put the bitwise result into `A`, set `Z` and `N` from it and change nothing else (R194 to R196). -/
def Obligations.LogicWorksBitwise : Prop :=
  ∀ (src : Source) (s : State),
    let v := operandValue src s
    let claim := fun (i : Instr) (op : Bool → Bool → Bool) =>
      ∃ t, exec i s = .next t ∧ t.cpu = { s.cpu with a := t.cpu.a, p := t.cpu.p } ∧
        (∀ k < 8, t.cpu.a.getLsbD k = op (s.cpu.a.getLsbD k) (v.value.getLsbD k)) ∧
        ZNOf t.cpu.a t ∧ FlagsKeptBut [.z, .n] s t ∧
        OnlyCpuDiffers v.state t ∧ StorageKept s t ∧ t.cycles = s.cycles + readCycles src.mode + v.extra
    claim (.and src) and ∧ claim (.ora src) or ∧ claim (.eor src) xor

/-- CMP, CPX and CPY compare their register with the operand: `C` unsigned not-less, `Z` equal, `N` bit 7 of the difference
modulo 256; no register and no other flag changes (R197 to R199). -/
def Obligations.ComparesSetCarryZeroNegative : Prop :=
  ∀ (src : Source) (s : State),
    let v := operandValue src s
    let claim := fun (i : Instr) (reg : Byte) =>
      ∃ t, exec i s = .next t ∧ t.cpu = { s.cpu with p := t.cpu.p } ∧
        (flag t.cpu.p .c = true ↔ v.value.toNat ≤ reg.toNat) ∧ (flag t.cpu.p .z = true ↔ reg = v.value) ∧
        (flag t.cpu.p .n = true ↔ 0x80 ≤ (reg.toNat + 256 - v.value.toNat) % 256) ∧
        FlagsKeptBut [.c, .z, .n] s t ∧
        OnlyCpuDiffers v.state t ∧ StorageKept s t ∧ t.cycles = s.cycles + readCycles src.mode + v.extra
    claim (.cmp src) s.cpu.a ∧ claim (.cpx src) s.cpu.x ∧ claim (.cpy src) s.cpu.y

/-- BIT sets `Z` from the and with `A`, and `N` and `V` from bits 7 and 6 of the operand itself; nothing else changes (R200). -/
def Obligations.BitTestsTheOperand : Prop :=
  ∀ (src : Source) (s : State),
    let v := operandValue src s
    ∃ t, exec (.bit src) s = .next t ∧ t.cpu = { s.cpu with p := t.cpu.p } ∧
      (flag t.cpu.p .z = true ↔ ∀ k < 8, s.cpu.a.getLsbD k = false ∨ v.value.getLsbD k = false) ∧
      flag t.cpu.p .n = v.value.getLsbD 7 ∧ flag t.cpu.p .v = v.value.getLsbD 6 ∧
      FlagsKeptBut [.z, .n, .v] s t ∧
      OnlyCpuDiffers v.state t ∧ StorageKept s t ∧ t.cycles = s.cycles + readCycles src.mode + v.extra

/-- INC and DEC on memory read once, write the byte plus or minus 1 modulo 256 to the same address, and set `Z` and `N` from
it; no other register or flag changes, and the base cycles are those of the mode (R149, R190, R201, R202). -/
def Obligations.IncDecModifyMemory : Prop :=
  (modifyCycles .zeropage = 5 ∧ modifyCycles .zeropageX = 6 ∧ modifyCycles .absolute = 6 ∧ modifyCycles .absoluteX = 7) ∧
  ∀ (m : MemOperand) (s : State),
    let r := resolve m s
    let v := busValue r.state r.ea
    let claim := fun (i : Instr) (n : Nat) =>
      ∃ (res : Byte) (t : State), exec i s = .next t ∧ res.toNat = (v.toNat + n) % 256 ∧
        t = { busWrite (busAfterRead r.state r.ea) r.ea res with cpu := t.cpu, cycles := t.cycles } ∧
        t.cpu = { s.cpu with p := t.cpu.p } ∧ ZNOf res t ∧ FlagsKeptBut [.z, .n] s t ∧
        t.cycles = s.cycles + modifyCycles m.mode +
          (if s.params.pageCrossOnAll = true then r.extra else 0) +
          (if r.ea = 0x4014 then s.params.oamDmaCycles else 0)
    claim (.inc m) 1 ∧ claim (.dec m) 255

/-- INX, INY, DEX and DEY wrap modulo 256, set `Z` and `N`, and change nothing else (R203 to R206). -/
def Obligations.IndexRegistersCount : Prop :=
  ∀ s : State,
    let claim := fun (i : Instr) (op : Byte) (before n : Nat) (after : Cpu → Byte) (cpu : Cpu → Cpu) =>
      encode i = [op] ∧
      ∃ t, exec i s = .next t ∧ (after t.cpu).toNat = (before + n) % 256 ∧ t.cpu = { cpu t.cpu with p := t.cpu.p } ∧
        ZNOf (after t.cpu) t ∧ FlagsKeptBut [.z, .n] s t ∧
        OnlyCpuDiffers s t ∧ StorageKept s t ∧ t.cycles = s.cycles + 2
    claim .inx 0xE8 s.cpu.x.toNat 1 (·.x) (fun c => { s.cpu with x := c.x }) ∧
    claim .iny 0xC8 s.cpu.y.toNat 1 (·.y) (fun c => { s.cpu with y := c.y }) ∧
    claim .dex 0xCA s.cpu.x.toNat 255 (·.x) (fun c => { s.cpu with x := c.x }) ∧
    claim .dey 0x88 s.cpu.y.toNat 255 (·.y) (fun c => { s.cpu with y := c.y })

/-! ## Shifts and rotates -/

/-- The four shifts on `A`, as arithmetic on numbers: the result, the bit shifted out in `C`, `Z` and `N`; nothing else changes,
2 cycles (R220 to R224). -/
def Obligations.ShiftsOfTheAccumulator : Prop :=
  ∀ s : State,
    let a := s.cpu.a.toNat
    let cin := (flag s.cpu.p .c).toNat
    let claim := fun (i : Instr) (res out : Nat) =>
      ∃ t, exec i s = .next t ∧ t.cpu = { s.cpu with a := t.cpu.a, p := t.cpu.p } ∧ t.cpu.a.toNat = res ∧
        (flag t.cpu.p .c).toNat = out ∧ ZNOf t.cpu.a t ∧ FlagsKeptBut [.c, .z, .n] s t ∧
        OnlyCpuDiffers s t ∧ StorageKept s t ∧ t.cycles = s.cycles + 2
    claim (.asl .accumulator) (2 * a % 256) (a / 128) ∧
    claim (.lsr .accumulator) (a / 2) (a % 2) ∧
    claim (.rol .accumulator) (2 * a % 256 + cin) (a / 128) ∧
    claim (.ror .accumulator) (a / 2 + 128 * cin) (a % 2)

/-- The four shifts on memory: one read and one write of the same address, the bit shifted out in `C`, `Z` and `N` from the
result; no other register or flag changes, and the base cycles are those of the mode (R149, R220 to R224). -/
def Obligations.ShiftsOfMemory : Prop :=
  (modifyCycles .zeropage = 5 ∧ modifyCycles .zeropageX = 6 ∧ modifyCycles .absolute = 6 ∧ modifyCycles .absoluteX = 7) ∧
  ∀ (m : MemOperand) (s : State),
    let r := resolve m s
    let b := (busValue r.state r.ea).toNat
    let cin := (flag s.cpu.p .c).toNat
    let claim := fun (i : Instr) (result out : Nat) =>
      ∃ (res : Byte) (t : State), exec i s = .next t ∧ res.toNat = result ∧
        t = { busWrite (busAfterRead r.state r.ea) r.ea res with cpu := t.cpu, cycles := t.cycles } ∧
        t.cpu = { s.cpu with p := t.cpu.p } ∧ (flag t.cpu.p .c).toNat = out ∧ ZNOf res t ∧
        FlagsKeptBut [.c, .z, .n] s t ∧
        t.cycles = s.cycles + modifyCycles m.mode +
          (if s.params.pageCrossOnAll = true then r.extra else 0) +
          (if r.ea = 0x4014 then s.params.oamDmaCycles else 0)
    claim (.asl (.mem m)) (2 * b % 256) (b / 128) ∧
    claim (.lsr (.mem m)) (b / 2) (b % 2) ∧
    claim (.rol (.mem m)) (2 * b % 256 + cin) (b / 128) ∧
    claim (.ror (.mem m)) (b / 2 + 128 * cin) (b % 2)

/-! ## Control transfer -/

/-- JMP loads `PC` with the effective address and changes nothing else; the indirect form reads its high byte from the page of
the pointer (R142, R231). -/
def Obligations.JmpLoadsPc : Prop :=
  ∀ (s : State) (w : Word),
    encode (.jmp (.absolute w)) = [0x4C, loByte w, hiByte w] ∧
    encode (.jmp (.indirect w)) = [0x6C, loByte w, hiByte w] ∧
    (∃ t, exec (.jmp (.absolute w)) s = .next t ∧ t.cpu = { s.cpu with pc := w } ∧
      OnlyCpuDiffers s t ∧ StorageKept s t ∧ t.cycles = s.cycles + 3) ∧
    (let second := BitVec.ofNat 16 (w.toNat / 256 * 256 + (w.toNat + 1) % 256);
      let s' := busAfterRead s w
      ∃ t, exec (.jmp (.indirect w)) s = .next t ∧
        t.cpu = { s.cpu with pc := t.cpu.pc } ∧
        t.cpu.pc.toNat = (busValue s' second).toNat * 256 + (busValue s w).toNat ∧
        OnlyCpuDiffers (busAfterRead s' second) t ∧ StorageKept s t ∧ t.cycles = s.cycles + 5)

/-- JSR pushes the address of its own last byte, high byte first, and jumps; only the two stack bytes change (R232). -/
def Obligations.JsrPushesAndJumps : Prop :=
  ∀ (s : State) (w : Word),
    encode (.jsr w) = [0x20, loByte w, hiByte w] ∧
    ∃ t, exec (.jsr w) s = .next t ∧ t.cpu = { s.cpu with pc := w, s := s.cpu.s - 2 } ∧
      (busPeek t (stackAddr s.cpu.s)).toNat * 256 + (busPeek t (stackAddr (s.cpu.s - 1))).toNat = (s.cpu.pc - 1).toNat ∧
      BusKeptBut [stackAddr s.cpu.s, stackAddr (s.cpu.s - 1)] s t ∧
      OnlyCpuAndRamDiffer s t ∧ t.cycles = s.cycles + 6

/-- RTS pulls the low and the high byte and continues one past that address; nothing but `PC` and `S` changes (R233). -/
def Obligations.RtsPullsAndReturns : Prop :=
  encode .rts = [0x60] ∧
  ∀ s : State, ∃ t, exec .rts s = .next t ∧ t.cpu = { s.cpu with pc := t.cpu.pc, s := s.cpu.s + 2 } ∧
    t.cpu.pc.toNat =
      ((busPeek s (stackAddr (s.cpu.s + 2))).toNat * 256 + (busPeek s (stackAddr (s.cpu.s + 1))).toNat + 1) % 0x10000 ∧
    OnlyCpuDiffers s t ∧ StorageKept s t ∧ t.cycles = s.cycles + 6

/-- The eight branches: taken on their flag's value to `PC` plus the signed offset, 3 cycles or 4 when the page changes; not
taken, 2 cycles; nothing but `PC` changes (R235 to R243). -/
def Obligations.BranchesFollowTheirFlag : Prop :=
  ∀ (s : State) (off : Byte),
    let target : Int := (s.cpu.pc.toNat + off.toInt) % 0x10000
    let claim := fun (i : Instr) (op : Byte) (taken : Bool) =>
      encode i = [op, off] ∧
      ∃ t, exec i s = .next t ∧ t.cpu = { s.cpu with pc := t.cpu.pc } ∧ OnlyCpuDiffers s t ∧ StorageKept s t ∧
        if taken = true then
          (t.cpu.pc.toNat : Int) = target ∧
          t.cycles = s.cycles + (if target / 256 = (s.cpu.pc.toNat / 256 : Nat) then 3 else 4)
        else t.cpu.pc = s.cpu.pc ∧ t.cycles = s.cycles + 2
    claim (.bcc off) 0x90 (!flag s.cpu.p .c) ∧ claim (.bcs off) 0xB0 (flag s.cpu.p .c) ∧
    claim (.bne off) 0xD0 (!flag s.cpu.p .z) ∧ claim (.beq off) 0xF0 (flag s.cpu.p .z) ∧
    claim (.bpl off) 0x10 (!flag s.cpu.p .n) ∧ claim (.bmi off) 0x30 (flag s.cpu.p .n) ∧
    claim (.bvc off) 0x50 (!flag s.cpu.p .v) ∧ claim (.bvs off) 0x70 (flag s.cpu.p .v)

/-! ## Stack, flags, system -/

/-- PHA and PHP push `A` and `P | 0x30`: the byte at `0x0100 | S` changes, `S` goes down, nothing else changes (R251, R253). -/
def Obligations.PushesStoreOneByte : Prop :=
  ∀ s : State,
    let claim := fun (i : Instr) (op v : Byte) =>
      encode i = [op] ∧
      ∃ t, exec i s = .next t ∧ t.cpu = { s.cpu with s := s.cpu.s - 1 } ∧ busPeek t (stackAddr s.cpu.s) = v ∧
        BusKeptBut [stackAddr s.cpu.s] s t ∧ OnlyCpuAndRamDiffer s t ∧ t.cycles = s.cycles + 3
    claim .pha 0x48 s.cpu.a ∧ claim .php 0x08 (s.cpu.p ||| 0x30)

/-- PLA and PLP pull the byte above `S`: PLA into `A` with `Z` and `N`, PLP into `P` with `B` forced 0 and `U` forced 1 (R252,
R254). -/
def Obligations.PullsLoadOneByte : Prop :=
  ∀ s : State,
    let v := busPeek s (stackAddr (s.cpu.s + 1))
    (encode .pla = [0x68] ∧
      ∃ t, exec .pla s = .next t ∧ t.cpu = { s.cpu with a := v, s := s.cpu.s + 1, p := t.cpu.p } ∧
        ZNOf v t ∧ FlagsKeptBut [.z, .n] s t ∧ OnlyCpuDiffers s t ∧ StorageKept s t ∧ t.cycles = s.cycles + 4) ∧
    (encode .plp = [0x28] ∧
      ∃ t, exec .plp s = .next t ∧ t.cpu = { s.cpu with s := s.cpu.s + 1, p := t.cpu.p } ∧
        (∀ f : Flag, flag t.cpu.p f = if f = .b then false else if f = .u then true else flag v f) ∧
        OnlyCpuDiffers s t ∧ StorageKept s t ∧ t.cycles = s.cycles + 4)

/-- The seven flag instructions write their one flag and change nothing else (R255 to R261). -/
def Obligations.FlagInstructionsWriteOneFlag : Prop :=
  ∀ s : State,
    let claim := fun (i : Instr) (op : Byte) (f : Flag) (v : Bool) =>
      encode i = [op] ∧
      ∃ t, exec i s = .next t ∧ t.cpu = { s.cpu with p := t.cpu.p } ∧ flag t.cpu.p f = v ∧ FlagsKeptBut [f] s t ∧
        OnlyCpuDiffers s t ∧ StorageKept s t ∧ t.cycles = s.cycles + 2
    claim .clc 0x18 .c false ∧ claim .sec 0x38 .c true ∧ claim .cli 0x58 .i false ∧ claim .sei 0x78 .i true ∧
    claim .cld 0xD8 .d false ∧ claim .sed 0xF8 .d true ∧ claim .clv 0xB8 .v false

/-- NOP and the unmapped bytes change nothing but the cycle count (R262, R265). -/
def Obligations.NopsOnlyCountCycles : Prop :=
  encode .nop = [0xEA] ∧
  ∀ s : State,
    exec .nop s = .next { s with cycles := s.cycles + 2 } ∧
    ∀ op ∈ unmappedBytes,
      encode (.unmapped op) = [op] ∧
      exec (.unmapped op) s = .next { s with cycles := s.cycles + s.params.unmappedCycles }

/-- The interrupt frame of BRK and of NMI entry: return address and status on the stack, `S` three lower, `I` set, `PC` from the
vector; nothing else is saved or changed. BRK's return address skips the byte after its opcode and its status has `B` set; an
NMI's return address is the `PC` it found, its status has `B` clear, and it clears the request (R263, R422, R423, R426). -/
def Obligations.InterruptEntrySavesAndJumps : Prop :=
  ∀ s : State,
    let frame := fun (t : State) (ret : Word) (b : Bool) (lo hi : Word) =>
      t.cpu = { s.cpu with s := s.cpu.s - 3, p := t.cpu.p, pc := t.cpu.pc } ∧
      (busPeek t (stackAddr s.cpu.s)).toNat * 256 + (busPeek t (stackAddr (s.cpu.s - 1))).toNat = ret.toNat ∧
      (∀ f : Flag, flag (busPeek t (stackAddr (s.cpu.s - 2))) f =
        if f = .b then b else if f = .u then true else flag s.cpu.p f) ∧
      flag t.cpu.p .i = true ∧ FlagsKeptBut [.i] s t ∧
      t.cpu.pc.toNat = (busPeek s hi).toNat * 256 + (busPeek s lo).toNat ∧
      BusKeptBut [stackAddr s.cpu.s, stackAddr (s.cpu.s - 1), stackAddr (s.cpu.s - 2)] s t
    (encode .brk = [0x00] ∧
      ∃ t, exec .brk s = .next t ∧ frame t (s.cpu.pc + 1) true 0xFFFE 0xFFFF ∧
        OnlyCpuAndRamDiffer s t ∧ t.cycles = s.cycles + 7) ∧
    (let t := nmiEntry s;
      frame t s.cpu.pc false 0xFFFA 0xFFFB ∧ t.nmiPending = false ∧
        OnlyCpuAndRamDiffer { s with nmiPending := false } t ∧ t.cycles = s.cycles)

/-- RTI pulls status and then the return address and continues exactly there; nothing else changes (R264, R429). -/
def Obligations.RtiRestoresStatusAndPc : Prop :=
  encode .rti = [0x40] ∧
  ∀ s : State, ∃ t, exec .rti s = .next t ∧
    t.cpu = { s.cpu with s := s.cpu.s + 3, p := t.cpu.p, pc := t.cpu.pc } ∧
    (∀ f : Flag, flag t.cpu.p f = if f = .b then false else if f = .u then true
      else flag (busPeek s (stackAddr (s.cpu.s + 1))) f) ∧
    t.cpu.pc.toNat =
      (busPeek s (stackAddr (s.cpu.s + 3))).toNat * 256 + (busPeek s (stackAddr (s.cpu.s + 2))).toNat ∧
    OnlyCpuDiffers s t ∧ StorageKept s t ∧ t.cycles = s.cycles + 6

/-- RTS undoes JSR and RTI undoes BRK and NMI entry, also where the stack pointer wraps: the registers, `S` and the status come
back, and `PC` is the return address: after the JSR, at the instruction not yet executed for an NMI, two past the opcode for BRK.
For RTI the status must hold `B` 0 and `U` 1, as it always does (R26, R232, R233, R263, R264, R422, R429). -/
def Obligations.ReturnsUndoCallsAndEntries : Prop :=
  ∀ s : State,
    (∀ w : Word, ∃ t u, exec (.jsr w) s = .next t ∧ exec .rts t = .next u ∧ u.cpu = s.cpu) ∧
    (s.cpu.Inv →
      (∃ t u, exec .brk s = .next t ∧ exec .rti t = .next u ∧ u.cpu = { s.cpu with pc := s.cpu.pc + 1 }) ∧
      ∃ u, exec .rti (nmiEntry s) = .next u ∧ u.cpu = s.cpu)

/-! ## The CPU bus -/

/-- On plain storage a write is seen by every later read of an address with the same target, mirrors included, and by no other
read (R74, R77, R78, R85). -/
def Obligations.WriteThenRead : Prop :=
  ∀ (s : State) (a b : Word) (v : Byte), (a.toNat < 0x2000 ∨ (0x4018 ≤ a.toNat ∧ a.toNat < 0x8000)) →
    busValue (busWrite s a v) a = v ∧
    (busValue (busWrite s a v) b = if busTarget b = busTarget a then v else busValue s b) ∧
    (a.toNat < 0x2000 → b.toNat < 0x2000 → (busTarget b = busTarget a ↔ b.toNat % 0x800 = a.toNat % 0x800)) ∧
    (0x4018 ≤ a.toNat → (busTarget b = busTarget a ↔ b = a))

/-- Reads change state only at the status and data ports of the PPU and at 0x4016 (R72, R103). -/
def Obligations.ReadsAreQuietOutsidePorts : Prop :=
  ∀ (s : State) (a : Word),
    ¬(0x2000 ≤ a.toNat ∧ a.toNat < 0x4000 ∧ (a.toNat % 8 = 2 ∨ a.toNat % 8 = 7)) → a.toNat ≠ 0x4016 →
    busAfterRead s a = s

/-- The APU stub: a write to one of its addresses stores the byte at the address's own offset and changes no other byte of the stub, no
other byte on the CPU bus and nothing else; a read gives 0x00, but at 0x4015 the byte last written there, and changes nothing (R80). -/
def Obligations.ApuStubReadsZero : Prop :=
  ∀ (s : State) (a : Word) (v : Byte), 0x4000 ≤ a.toNat → a.toNat ≤ 0x4017 → a.toNat ≠ 0x4014 → a.toNat ≠ 0x4016 →
    let t := busWrite s a v
    busTarget a = .apu (a.toNat - 0x4000) ∧
    t = { s with bus := { s.bus with apu := t.bus.apu } } ∧
    (∀ n, t.bus.apu.read n = if n = a.toNat - 0x4000 then v else s.bus.apu.read n) ∧
    busPeek t a = v ∧ (∀ b : Word, busTarget b ≠ busTarget a → busPeek t b = busPeek s b) ∧
    busValue s a = (if a.toNat = 0x4015 then busPeek s a else 0x00) ∧ busAfterRead s a = s ∧
    busValue t a = (if a.toNat = 0x4015 then v else 0x00) ∧ busAfterRead t a = t

/-- OAM-DMA from any page is 256 bus reads in ascending order, with their side effects, and changes besides only OAM: the byte each read
gives goes to the next OAM address from the current one on, wrapping, and that address does not move. Where the page is the PPU's
ports, a read of the OAM data port gives the byte the transfer itself put at the current OAM address first, the control register. A page
of storage (all but 0x20 to 0x40) is copied as it stands and nothing else changes (R300). -/
def Obligations.OamDmaCopiesAPage : Prop :=
  ∀ (s : State) (page : Byte),
    let t := busWrite s 0x4014 page
    let source := fun (i : Nat) => BitVec.ofNat 16 (page.toNat * 256 + i)
    let reads := fun (k : Nat) => (List.range k).foldl (fun u i => busAfterRead u (source i)) s
    let slot := fun (i : Nat) => (s.ppu.regs.oamAddr.toNat + i) % 256
    let ownByte := fun (i : Nat) => 0x20 ≤ page.toNat ∧ page.toNat < 0x40 ∧ i % 8 = 4
    t = { s with ppu := t.ppu, ctl := t.ctl } ∧ t.ppu.regs.oamAddr = s.ppu.regs.oamAddr ∧
    t = { reads 256 with ppu := { (reads 256).ppu with oam := t.ppu.oam } } ∧
    (∀ i < 256, t.ppu.oam.read (slot i) =
      if ownByte i then s.ppu.regs.control else busValue (reads i) (source i)) ∧
    (∀ n, 256 ≤ n → t.ppu.oam.read n = s.ppu.oam.read n) ∧
    (page.toNat < 0x20 ∨ 0x41 ≤ page.toNat →
      t = { s with ppu := { s.ppu with oam := t.ppu.oam } } ∧
      ∀ i < 256, t.ppu.oam.read (slot i) = busValue s (source i))

/-- The reference controller: after a strobe of 1 and then 0, the reads of 0x4016 give the eight buttons in index order and then
1s (R82). -/
def Obligations.ReferenceControllerShiftsButtons : Prop :=
  ∀ (s : State) (one zero : Byte) (k : Nat), s.params.controller = .reference →
    one.getLsbD 0 = true → zero.getLsbD 0 = false →
    let t := busWrite (busWrite s 0x4016 one) 0x4016 zero
    busValue (Nat.repeat (fun u => busAfterRead u 0x4016) k t) 0x4016 =
      if k < 8 then (if s.ctl.buttons.getLsbD k = true then 0x01 else 0x00) else 0x01

/-! ## The PPU's ports and bus -/

/-- A status read returns the register and clears the vblank bit and the write toggle, and nothing else; it withdraws no NMI
request (R283). -/
def Obligations.StatusReadClearsVblankAndToggle : Prop :=
  ∀ (s : State) (a : Word), 0x2000 ≤ a.toNat → a.toNat < 0x4000 → a.toNat % 8 = 2 →
    let t := busAfterRead s a
    busValue s a = s.ppu.regs.status ∧
    t = { s with ppu := { s.ppu with w := false, regs := { s.ppu.regs with status := t.ppu.regs.status } } } ∧
    ∀ k < 8, t.ppu.regs.status.getLsbD k = (s.ppu.regs.status.getLsbD k && k != 7)

/-- The PPU ports but the two data ports, at every address of the window that selects them: what a write changes, and that it changes
nothing else. Control latches the name-table bits of `t`, mask and OAM address are stored, status ignores the write, and the scroll and
address ports alternate between their halves by the write toggle. Control, mask, OAM address, scroll and address read as the last byte
written to them, and reading them changes nothing; a peek of any port shows what a read would give (R282, R291 to R294, R296,
R297). -/
def Obligations.PpuPortsLatchWrites : Prop :=
  ∀ (s : State) (a : Word) (val : Byte), 0x2000 ≤ a.toNat → a.toNat < 0x4000 →
    let p := s.ppu
    let t := p.t.toNat
    let n := val.toNat
    let port := a.toNat % 8
    let claim := fun (q : Ppu) => busWrite s a val = { s with ppu := q }
    let reads := fun (last : Byte) => busValue s a = last ∧ busAfterRead s a = s ∧
      ∀ b : Word, 0x2000 ≤ b.toNat → b.toNat < 0x4000 → b.toNat % 8 = port → busValue (busWrite s a val) b = val
    (port = 0 → reads p.regs.control ∧
      ∃ t' : Scroll, t'.toNat = t / 4096 * 4096 + n % 4 * 1024 + t % 1024 ∧
        claim { p with t := t', regs := { p.regs with control := val } }) ∧
    (port = 1 → reads p.regs.mask ∧ claim { p with regs := { p.regs with mask := val } }) ∧
    (port = 2 → claim p) ∧
    (port = 3 → reads p.regs.oamAddr ∧ claim { p with regs := { p.regs with oamAddr := val } }) ∧
    (port = 5 → reads p.regs.scroll ∧
      ∃ t' : Scroll,
        t'.toNat = (if p.w = true then n % 8 * 4096 + t / 1024 % 4 * 1024 + n / 8 * 32 + t % 32 else t / 32 * 32 + n / 8) ∧
        claim { p with
          t := t', w := !p.w, fx := if p.w = true then p.fx else BitVec.ofNat 3 n, regs := { p.regs with scroll := val } }) ∧
    (port = 6 → reads p.regs.address ∧
      ∃ t' : Scroll,
        t'.toNat = (if p.w = true then t / 256 * 256 + n else n % 64 * 256 + t % 256) ∧
        claim { p with
          t := t', w := !p.w, v := if p.w = true then t' else p.v, regs := { p.regs with address := val } }) ∧
    busPeek s a = busValue s a

/-- The data port, at every address that selects it, on the PPU-bus address in the low 14 bits of `v`: a read returns the buffered
byte, or the palette byte at once, and reloads the buffer with the byte at that address; a write stores there. Each advances `v` by 1
or 32 in 15 bits and changes nothing else (R298, R299). -/
def Obligations.DataPortReadsAndWrites : Prop :=
  ∀ (s : State) (port : Word) (val : Byte), 0x2000 ≤ port.toNat → port.toNat < 0x4000 → port.toNat % 8 = 7 →
    let a : Word := BitVec.ofNat 16 (s.ppu.v.toNat % 0x4000)
    let v' := BitVec.ofNat 15 (s.ppu.v.toNat + if s.ppu.regs.control.getLsbD 2 = true then 32 else 1)
    busValue s port = (if 0x3F00 ≤ a.toNat then ppuRead s a else s.ppu.rdbuf) ∧
    busAfterRead s port = { s with ppu := { s.ppu with rdbuf := ppuRead s a, v := v' } } ∧
    (let stored := ppuWrite s a val;
      busWrite s port val =
        { stored with ppu := { stored.ppu with regs := { s.ppu.regs with data := val }, v := v' } })

/-- The OAM data port, at every address that selects it: a read gives the byte at the OAM address and changes nothing; a write stores
the byte there and in the port's register, moves the address by 1 modulo 256 and changes nothing else. So what is written at an OAM
address through the two ports reads back at the same address, by whichever mirrors (R284, R294, R295). -/
def Obligations.OamReadsBackThroughPorts : Prop :=
  ∀ (s : State) (addr addr' data data' : Word) (o v : Byte),
    (∀ a ∈ [addr, addr', data, data'], 0x2000 ≤ a.toNat ∧ a.toNat < 0x4000) →
    addr.toNat % 8 = 3 → addr'.toNat % 8 = 3 → data.toNat % 8 = 4 → data'.toNat % 8 = 4 →
    (busValue s data = s.ppu.oam.read s.ppu.regs.oamAddr.toNat ∧ busAfterRead s data = s) ∧
    (let t := busWrite s data v;
      t = { s with ppu := { s.ppu with
        oam := t.ppu.oam, regs := { s.ppu.regs with oamData := v, oamAddr := t.ppu.regs.oamAddr } } } ∧
      t.ppu.regs.oamAddr.toNat = (s.ppu.regs.oamAddr.toNat + 1) % 256 ∧
      ∀ n, t.ppu.oam.read n = if n = s.ppu.regs.oamAddr.toNat then v else s.ppu.oam.read n) ∧
    (busWrite s addr o = { s with ppu := { s.ppu with regs := { s.ppu.regs with oamAddr := o } } }) ∧
    let t := busWrite (busWrite s addr o) data v
    t.ppu.regs.oamAddr = o + 1 ∧
    busValue (busWrite t addr' o) data' = v ∧ busAfterRead t data' = t ∧
    ∀ n, n ≠ o.toNat → t.ppu.oam.read n = s.ppu.oam.read n

/-- The palette: the eight slots with low two bits 00 are one byte, slot 0, every other slot its own, mirrored every 0x20, and a write
changes nothing else (R94). -/
def Obligations.PaletteAliasesBackdrop : Prop :=
  ∀ (s : State) (a b : Word) (v : Byte), 0x3F00 ≤ a.toNat → a.toNat < 0x4000 → 0x3F00 ≤ b.toNat → b.toNat < 0x4000 →
    let slot := if a.toNat % 4 = 0 then 0 else a.toNat % 32
    let t := ppuWrite s a v
    (ppuRead s a = s.ppu.pal.read slot ∧ t = { s with ppu := { s.ppu with pal := t.ppu.pal } } ∧
      ∀ n, t.ppu.pal.read n = if n = slot then v else s.ppu.pal.read n) ∧
    ppuRead t b =
      if (a.toNat % 4 = 0 ∧ b.toNat % 4 = 0) ∨ a.toNat % 32 = b.toNat % 32 then v else ppuRead s b

/-- Name-table mirroring. The mode says which of the two physical tables a logical table is: horizontal 0, 0, 1, 1, vertical 0, 1, 0,
1, single-lower always 0, single-upper always 1; an access is to the byte of name-table RAM at that table and the address's offset, and
a write changes nothing else. So two addresses of the range name the same byte exactly as the mode says (R93). -/
def Obligations.NameTablesMirror : Prop :=
  ∀ (s : State) (a b : Word) (v : Byte), 0x2000 ≤ a.toNat → a.toNat < 0x3F00 → 0x2000 ≤ b.toNat → b.toNat < 0x3F00 →
    let ta := a.toNat / 0x400 % 4
    let tb := b.toNat / 0x400 % 4
    let sameTable := match s.map.mirroring with
      | .horizontal => ta / 2 = tb / 2
      | .vertical => ta % 2 = tb % 2
      | .singleLower => True
      | .singleUpper => True
    let phys := match s.map.mirroring with
      | .horizontal => ta / 2
      | .vertical => ta % 2
      | .singleLower => 0
      | .singleUpper => 1
    let i := phys * 0x400 + a.toNat % 0x400
    let t := ppuWrite s a v
    (ppuRead s a = s.ppu.nt.read i ∧ t = { s with ppu := { s.ppu with nt := t.ppu.nt } } ∧
      ∀ n, t.ppu.nt.read n = if n = i then v else s.ppu.nt.read n) ∧
    (sameTable ∧ a.toNat % 0x400 = b.toNat % 0x400 → ppuRead t b = v) ∧
    (¬(sameTable ∧ a.toNat % 0x400 = b.toNat % 0x400) → ppuRead t b = ppuRead s b)

/-! ## The dot/scanline machine and rendering -/

/-- The position after any number of PPU steps: `dot` wraps from 340 to 0 and `scanline` from 261 to 0 each time, 89342 steps a
frame (R315, R462). -/
def Obligations.PositionAfterPpuSteps : Prop :=
  ∀ (n : Nat) (s : State), s.ppu.dot ≤ 340 → s.ppu.scanline ≤ 261 →
    let p := (ppuSteps n s).ppu
    p.dot ≤ 340 ∧ p.scanline ≤ 261 ∧ p.index = (s.ppu.index + n) % frameSteps

/-- Of any 89342 PPU steps in a row exactly one is a vblank entry; with the NMI-enable bit set it raises the request, with the bit
clear no request is raised (R312, R316). -/
def Obligations.OneNmiRequestPerFrame : Prop :=
  ∀ s : State, s.ppu.dot ≤ 340 → s.ppu.scanline ≤ 261 →
    (∃! k, k < frameSteps ∧ (ppuSteps k s).ppu.index = 241 * 341 + 1) ∧
    (∀ n, (ppuSteps n s).nmiPending = true ↔
      s.nmiPending = true ∨
        (s.ppu.regs.control.getLsbD 7 = true ∧ ∃ k < n, (ppuSteps k s).ppu.index = 241 * 341 + 1))

/-- One PPU step does the work of its position and advances. On a visible line: a background tile at dots 1, 9 to 249, sprite
evaluation at dot 65 (after that dot's tile), sprite drawing at dot 255, and with rendering enabled the vertical increment at dot
256 and the horizontal copy at dot 257. On scanline 240 the frame is marked complete at dot 0, at 241 dot 1 vblank is set and an NMI
requested when enabled, on scanline 261 the three status bits are cleared at dot 1 and with rendering enabled the horizontal copy
runs at dot 257 and the vertical copy at dots 280 to 304. Nothing else happens, so from scanline 240 on no pixel and no priority cell
is written; and `ppuSteps` is one step after the other (R310 to R315, R364). -/
def Obligations.PpuStepDoesTheWorkOfItsPosition : Prop :=
  ∀ s : State, s.ppu.dot ≤ 340 → s.ppu.scanline ≤ 261 →
    let p := s.ppu
    let d := p.dot
    let line := p.scanline
    let rendering := p.regs.mask.getLsbD 3 = true ∨ p.regs.mask.getLsbD 4 = true
    let claim := fun (q : Ppu) (nmi : Bool) =>
      ppuStep s = { s with
        nmiPending := nmi
        ppu := { q with
          dot := if d = 340 then 0 else d + 1
          scanline := if d < 340 then line else if line = 261 then 0 else line + 1 } }
    let status := fun (v : Byte) => { p with regs := { p.regs with status := v } }
    (line ≤ 239 →
      (∀ k < 32, d = 8 * k + 1 →
        claim (if k = 8 then spriteEval line (bgTile line 8 s) else bgTile line k s) s.nmiPending) ∧
      (d = 255 → claim (spriteDraw line s) s.nmiPending) ∧
      (d = 256 → rendering → claim { p with v := incrementVertical p.v } s.nmiPending) ∧
      (d = 257 → rendering → claim { p with v := copyHorizontal p.v p.t } s.nmiPending) ∧
      (¬(d ≤ 249 ∧ d % 8 = 1) → d ≠ 255 → ¬(rendering ∧ (d = 256 ∨ d = 257)) → claim p s.nmiPending)) ∧
    (line = 261 →
      (d = 1 → ∃ v : Byte, (∀ k < 8, v.getLsbD k = (p.regs.status.getLsbD k && decide (k < 5))) ∧ claim (status v) s.nmiPending) ∧
      (d = 257 → rendering → claim { p with v := copyHorizontal p.v p.t } s.nmiPending) ∧
      (280 ≤ d → d ≤ 304 → rendering → claim { p with v := copyVertical p.v p.t } s.nmiPending) ∧
      (d ≠ 1 → ¬(rendering ∧ (d = 257 ∨ (280 ≤ d ∧ d ≤ 304))) → claim p s.nmiPending)) ∧
    (line = 240 → d = 0 → claim { p with frameComplete := true } s.nmiPending) ∧
    (line = 241 → d = 1 → ∃ v : Byte, (∀ k < 8, v.getLsbD k = (p.regs.status.getLsbD k || k == 7)) ∧
      claim (status v) (s.nmiPending || p.regs.control.getLsbD 7)) ∧
    (240 ≤ line → line ≤ 260 → ¬(line = 240 ∧ d = 0) → ¬(line = 241 ∧ d = 1) → claim p s.nmiPending) ∧
    ppuSteps 0 s = s ∧ ∀ n, ppuSteps (n + 1) s = ppuSteps n (ppuStep s)

/-- The four scroll operations on the fields of `v` (R360 to R363). -/
def Obligations.ScrollOperationsMoveFields : Prop :=
  ∀ v t : Scroll,
    let cx := fun x : Scroll => x.toNat % 32
    let cy := fun x : Scroll => x.toNat / 32 % 32
    let nx := fun x : Scroll => x.toNat / 1024 % 2
    let ny := fun x : Scroll => x.toNat / 2048 % 2
    let fy := fun x : Scroll => x.toNat / 4096
    (let h := incrementHorizontal v;
      cx h = (cx v + 1) % 32 ∧ nx h = (if cx v = 31 then 1 - nx v else nx v) ∧
      cy h = cy v ∧ ny h = ny v ∧ fy h = fy v) ∧
    (let u := incrementVertical v;
      fy u = (fy v + 1) % 8 ∧ cx u = cx v ∧ nx u = nx v ∧
      cy u = (if fy v ≠ 7 then cy v else if cy v = 29 then 0 else (cy v + 1) % 32) ∧
      ny u = (if fy v = 7 ∧ cy v = 29 then 1 - ny v else ny v)) ∧
    (let c := copyHorizontal v t;
      cx c = cx t ∧ nx c = nx t ∧ cy c = cy v ∧ ny c = ny v ∧ fy c = fy v) ∧
    (let c := copyVertical v t;
      cx c = cx v ∧ nx c = nx v ∧ cy c = cy t ∧ ny c = ny t ∧ fy c = fy t)

/-- Background production. Composing one pixel: a sprite pixel in front stays, one behind stays only over a transparent background,
the sprite-0 hit is set exactly where an opaque background pixel meets a sprite-0 cell, the background colour is the low six bits of
its palette byte, the backdrop's where it is transparent, and no other cell changes. Tile column `k`: with the background enabled the
name-table, attribute and pattern bytes are fetched from where `v` and the control register say, with it disabled every pixel is
transparent; pixel `i` is composed at column `8k + i - fx` where that is not below 0; then with rendering enabled `v` moves one tile
on. Nothing else changes (R340 to R344). -/
def Obligations.BackgroundPixelsResolvePriority : Prop :=
  (∀ (p : Ppu) (row x palsel px : Nat),
    let c := gridRead PrioCell.clear p.prio row x
    let q := compose row x palsel px p
    let bgcol : Colour := BitVec.ofNat 6 (p.pal.read (if px = 0 then 0 else palsel * 4 + px)).toNat
    gridRead 0 q.grid row x =
      (if c.spr = true ∧ (px = 0 ∨ c.behind = false) then gridRead 0 p.grid row x else bgcol) ∧
    (∀ r y, (r, y) ≠ (row, x) → gridRead 0 q.grid r y = gridRead 0 p.grid r y) ∧
    (∀ k < 8, q.regs.status.getLsbD k =
      (p.regs.status.getLsbD k || (k == 6 && c.spr && c.zero && px != 0))) ∧
    q = { p with grid := q.grid, regs := { p.regs with status := q.regs.status } }) ∧
  ∀ (s : State) (row k : Nat),
    let p := s.ppu
    let v := p.v.toNat
    let fetch := fun (n : Nat) => ppuRead s (BitVec.ofNat 16 n)
    let tile := (fetch (0x2000 + v % 0x1000)).toNat
    let attr := (fetch (0x23C0 + v / 1024 % 4 * 1024 + v / 32 % 32 / 4 * 8 + v % 32 / 4)).toNat
    let pattern := (if p.regs.control.getLsbD 4 = true then 0x1000 else 0) + tile * 16 + v / 4096
    let enabled := p.regs.mask.getLsbD 3
    let palsel := attr / 2 ^ (v / 64 % 2 * 4 + v / 2 % 2 * 2) % 4
    let px := fun (i : Nat) => if enabled = true then
        2 * ((fetch (pattern + 8)).getLsbD (7 - i)).toNat + ((fetch pattern).getLsbD (7 - i)).toNat
      else 0
    let colour := fun (i : Nat) => (BitVec.ofNat 6 (p.pal.read (if px i = 0 then 0 else palsel * 4 + px i)).toNat : Colour)
    let cell := fun (x : Nat) => gridRead PrioCell.clear p.prio row x
    let q := bgTile row k s
    (∀ i x, i < 8 → x + p.fx.toNat = 8 * k + i → gridRead 0 q.grid row x =
      if (cell x).spr = true ∧ (px i = 0 ∨ (cell x).behind = false) then gridRead 0 p.grid row x else colour i) ∧
    (∀ r x, (r ≠ row ∨ ∀ i < 8, x + p.fx.toNat ≠ 8 * k + i) → gridRead 0 q.grid r x = gridRead 0 p.grid r x) ∧
    (∀ j < 8, q.regs.status.getLsbD j = true ↔ p.regs.status.getLsbD j = true ∨
      (j = 6 ∧ ∃ i x, i < 8 ∧ x + p.fx.toNat = 8 * k + i ∧ (cell x).spr = true ∧ (cell x).zero = true ∧ px i ≠ 0)) ∧
    q.v = (if p.regs.mask.getLsbD 3 = true ∨ p.regs.mask.getLsbD 4 = true then incrementHorizontal p.v else p.v) ∧
    q = { p with grid := q.grid, v := q.v, regs := { p.regs with status := q.regs.status } }

/-- Sprite evaluation with rendering enabled: of the sprites that intersect the next row, in index order, the first eight and no
more are copied, the rest of secondary OAM is 0xFF, sprite 0 is recorded, and the overflow bit is set exactly when there is a
ninth; with rendering disabled nothing changes (R346). -/
def Obligations.SpriteEvalSelectsEight : Prop :=
  ∀ (p : Ppu) (line : Nat),
    let q := spriteEval line p
    let found := (List.range 64).filter fun n =>
      decide ((p.oam.read (4 * n)).toNat ≤ line ∧
        line < (p.oam.read (4 * n)).toNat + if p.regs.control.getLsbD 5 = true then 16 else 8)
    (p.regs.mask.getLsbD 3 = false ∧ p.regs.mask.getLsbD 4 = false → q = p) ∧
    (p.regs.mask.getLsbD 3 = true ∨ p.regs.mask.getLsbD 4 = true →
      q.secCount = min 8 found.length ∧
      (∀ k j, k < q.secCount → j < 4 → q.secOam.read (4 * k + j) = p.oam.read (4 * found.getD k 0 + j)) ∧
      (∀ i, 4 * q.secCount ≤ i → i < 32 → q.secOam.read i = 0xFF) ∧
      (q.spr0Sel = true ↔ 0 ∈ found) ∧
      (∀ k < 8, q.regs.status.getLsbD k = (p.regs.status.getLsbD k || (k == 5 && decide (8 < found.length)))) ∧
      q = { p with
        secOam := q.secOam, secCount := q.secCount, spr0Sel := q.spr0Sel,
        regs := { p.regs with status := q.regs.status } })

/-- Sprite drawing on scanline N, into row N+1 only and never past row 239: the row's priority cells are cleared, and with sprites
enabled each column shows the first sprite of secondary OAM that has an opaque pixel there, in its palette, with its priority bit and
whether it is sprite 0; a column where none has keeps its pixel. The pattern bytes come from the bank, tile and row that the control
register, the tile byte, the height and the vertical flip select, and the horizontal flip mirrors the row (R350 to R352). -/
def Obligations.SpriteDrawDrawsTheNextRow : Prop :=
  ∀ (s : State) (line : Nat),
    let p := s.ppu
    let q := spriteDraw line s
    let height := if p.regs.control.getLsbD 5 = true then 16 else 8
    let sprite := fun (slot j : Nat) => p.secOam.read (4 * slot + j)
    let top := fun (slot : Nat) => (sprite slot 0).toNat
    let left := fun (slot : Nat) => (sprite slot 3).toNat
    let attr := fun (slot : Nat) => sprite slot 2
    let pattern := fun (slot : Nat) =>
      let tile := (sprite slot 1).toNat
      let row := if (attr slot).getLsbD 7 = true then height - 1 - (line - top slot) else line - top slot
      if height = 8 then (if p.regs.control.getLsbD 3 = true then 0x1000 else 0) + tile * 16 + row
      else tile % 2 * 0x1000 + (tile / 2 * 2 + row / 8) * 16 + row % 8
    let fetch := fun (n : Nat) => ppuRead s (BitVec.ofNat 16 n)
    let px := fun (slot x : Nat) =>
      let i := x - left slot
      let b := if (attr slot).getLsbD 6 = true then i else 7 - i
      if top slot ≤ line ∧ line < top slot + height ∧ left slot ≤ x ∧ i < 8 then
        2 * ((fetch (pattern slot + 8)).getLsbD b).toNat + ((fetch (pattern slot)).getLsbD b).toNat
      else 0
    let owner := fun (x : Nat) => (List.range p.secCount).find? fun slot => px slot x != 0
    q = { p with grid := q.grid, prio := q.prio } ∧
    (239 ≤ line → q = p) ∧
    (∀ r x, r ≠ line + 1 → gridRead 0 q.grid r x = gridRead 0 p.grid r x ∧
      gridRead PrioCell.clear q.prio r x = gridRead PrioCell.clear p.prio r x) ∧
    (line < 239 → ∀ x,
      match (if p.regs.mask.getLsbD 4 = true ∧ x < 256 then owner x else none) with
      | none => gridRead 0 q.grid (line + 1) x = gridRead 0 p.grid (line + 1) x ∧
          gridRead PrioCell.clear q.prio (line + 1) x = PrioCell.clear
      | some slot =>
        gridRead 0 q.grid (line + 1) x =
          BitVec.ofNat 6 (p.pal.read (16 + (attr slot).toNat % 4 * 4 + px slot x)).toNat ∧
        gridRead PrioCell.clear q.prio (line + 1) x = ⟨true, (attr slot).getLsbD 5, decide (slot = 0) && p.spr0Sel⟩)

/-! ## Cartridge, mapper and host interface -/

/-- A bus write at 0x8000 and above is the serial port's under serial-shift mapping and changes nothing under fixed mapping. The
serial port: a write with bit 7 set clears shift and count and nothing else; a qualifying write shifts its low bit in from the
top and counts, and the fifth commits the value into the register its own address selects, the control register with the mirroring;
so five writes from a count of 0 commit their five low bits, the first written lowest, whatever the first four addresses are (R383 to
R385). -/
def Obligations.FiveSerialWritesCommit : Prop :=
  (∀ (s : State) (c : Cartridge) (a : Word) (v : Byte), s.cart = some c → 0x8000 ≤ a.toNat →
    busWrite s a v = match c.kind with
      | .fixed => s
      | .serialShift => { s with map := serialWrite a v s.map }) ∧
  ∀ (m : Mapper) (b₀ b₁ b₂ b₃ b₄ : Byte) (a₀ a₁ a₂ a₃ a₄ : Word),
    let commit := fun (a : Word) (value : BitVec 5) =>
      let done : Mapper := { m with shift := 0, count := 0 }
      if a.toNat / 0x2000 % 4 = 0 then
        { done with
          control := value
          mirroring := if value.toNat % 4 = 0 then .singleLower else if value.toNat % 4 = 1 then .singleUpper
            else if value.toNat % 4 = 2 then .vertical else .horizontal }
      else if a.toNat / 0x2000 % 4 = 1 then { done with chr0 := value }
      else if a.toNat / 0x2000 % 4 = 2 then { done with chr1 := value }
      else { done with prg := value }
    (b₀.getLsbD 7 = true → serialWrite a₀ b₀ m = { m with shift := 0, count := 0 }) ∧
    (b₀.getLsbD 7 = false →
      let value : BitVec 5 := BitVec.ofNat 5 (m.shift.toNat / 2 + b₀.toNat % 2 * 16)
      serialWrite a₀ b₀ m = if m.count = 4 then commit a₀ value else { m with shift := value, count := m.count + 1 }) ∧
    (m.count = 0 → (∀ b ∈ [b₀, b₁, b₂, b₃, b₄], b.getLsbD 7 = false) →
      serialWrite a₄ b₄ (serialWrite a₃ b₃ (serialWrite a₂ b₂ (serialWrite a₁ b₁ (serialWrite a₀ b₀ m)))) =
        commit a₄ (BitVec.ofNat 5
          (b₀.toNat % 2 + b₁.toNat % 2 * 2 + b₂.toNat % 2 * 4 + b₃.toNat % 2 * 8 + b₄.toNat % 2 * 16)))

/-- A bus read at 0x8000 and above gives the PRG byte at an index that is always inside the PRG data and changes nothing; the banks
of the two windows are those of the mapper: first and last under fixed mapping, the PRG mode's under serial-shift mapping (R380,
R386, R387). -/
def Obligations.PrgIndexStaysInsidePrg : Prop :=
  ∀ (s : State) (c : Cartridge) (a : Word), s.cart = some c → 1 ≤ c.prgBanks →
    let i := prgIndex s.params c s.map a
    let mode := s.map.control.toNat / 4 % 4
    let p := s.map.prg.toNat % 16
    let last := c.prgBanks - 1
    let bank := match c.kind with
      | .fixed => if a.toNat < 0xC000 then 0 else last
      | .serialShift =>
        if mode = 3 then (if a.toNat < 0xC000 then p else last)
        else if mode = 2 then
          (if a.toNat < 0xC000 then (if s.params.fixedLow = .last then last else 0) else p)
        else (if a.toNat < 0xC000 then p - p % 2 else p - p % 2 + 1)
    i < 16384 * c.prgBanks ∧ i = bank % c.prgBanks * 16384 + a.toNat % 16384 ∧
    (0x8000 ≤ a.toNat → busValue s a = c.prg.read i ∧ busAfterRead s a = s)

/-- CHR reads and writes: the two 4 KiB banks are 0 and 1 under fixed mapping and those of the CHR registers under serial-shift
mapping. With CHR banks a read is inside the CHR data and a write changes nothing; without, CHR-RAM is read, and a write stores the
one byte and changes nothing else (R381, R382, R386, R389). -/
def Obligations.ChrIsRomOrRam : Prop :=
  ∀ (s : State) (c : Cartridge) (a : Word) (v : Byte), s.cart = some c → a.toNat < 0x2000 →
    let c0 := s.map.chr0.toNat
    let low := a.toNat < 0x1000
    let bank := match c.kind with
      | .fixed => if low then 0 else 1
      | .serialShift =>
        if s.map.control.getLsbD 4 = true then (if low then c0 else s.map.chr1.toNat)
        else (if low then c0 - c0 % 2 else c0 - c0 % 2 + 1)
    let t := ppuWrite s a v
    (c.chrBanks ≠ 0 →
      let i := bank % (2 * c.chrBanks) * 0x1000 + a.toNat % 0x1000
      i < 8192 * c.chrBanks ∧ ppuRead s a = c.chr.read i ∧ t = s) ∧
    (c.chrBanks = 0 →
      let i := bank % 2 * 0x1000 + a.toNat % 0x1000
      i < 0x2000 ∧ ppuRead s a = s.map.chrRam.read i ∧
      t = { s with map := { s.map with chrRam := t.map.chrRam } } ∧
      ∀ n, t.map.chrRam.read n = if n = i then v else s.map.chrRam.read n)

/-- `reset()` of a loaded machine sets the CPU registers, `PC` from the vector at 0xFFFC, and leaves everything else as it was
(R451, R452). -/
def Obligations.ResetSetsCpuRegistersOnly : Prop :=
  ∀ (s : State) (c : Cartridge), s.cart = some c →
    let t := (hostCall .reset s).2
    t = { s with cpu := t.cpu } ∧
    t.cpu.a = 0x00 ∧ t.cpu.x = 0x00 ∧ t.cpu.y = 0x00 ∧ t.cpu.s = 0xFD ∧ t.cpu.p = 0x24 ∧
    t.cpu.pc.toNat = (busPeek s 0xFFFD).toNat * 256 + (busPeek s 0xFFFC).toNat

/-- `load_cartridge`: an unreadable file, a bad header, a mapper other than 0 and 1 and a truncated image each give their error and
change nothing; any other image is loaded: kind by mapper number, banks, PRG and CHR bytes and header bits from the image, mapper
registers and mirroring at their initial values, cartridge RAM all 0x00 (`MEM_INIT`, log 4), the CPU registers of `Init` with `PC`
from the reset vector; and the machine can step (R370 to R373, R451). That nothing else changes is the model's reading (DEDUCED, log
15). -/
def Obligations.LoadCartridgeOrError : Prop :=
  ∀ (bytes : List Byte) (s : State),
    let byte := fun (n : Nat) => bytes.getD n 0
    let prgLen := 16384 * (byte 4).toNat
    let chrLen := 8192 * (byte 5).toNat
    let offset := 16 + if (byte 6).getLsbD 2 = true then 512 else 0
    let mapper := (byte 7).toNat / 16 * 16 + (byte 6).toNat / 16
    let badHeader := bytes.length < 16 ∨ bytes.take 4 ≠ [0x4E, 0x45, 0x53, 0x1A] ∨ byte 4 = 0
    let r := hostCall (.loadCartridge (some bytes)) s
    hostCall (.loadCartridge none) s = (.romError .unreadable, s) ∧
    (badHeader → r = (.romError .invalidHeader, s)) ∧
    (¬badHeader → 2 ≤ mapper → r = (.romError (.unsupportedMapper (BitVec.ofNat 8 mapper)), s)) ∧
    (¬badHeader → mapper < 2 → bytes.length < offset + prgLen + chrLen → r = (.romError .invalidHeader, s)) ∧
    (¬badHeader → mapper < 2 → offset + prgLen + chrLen ≤ bytes.length →
      let t := r.2
      r.1 = .done ∧
      (∃ c, t.cart = some c ∧ c.kind = (if mapper = 0 then .fixed else .serialShift) ∧
        c.prgBanks = (byte 4).toNat ∧ c.chrBanks = (byte 5).toNat ∧
        (∀ i < prgLen, c.prg.read i = byte (offset + i)) ∧
        (∀ i < chrLen, c.chr.read i = byte (offset + prgLen + i)) ∧
        c.mirrorVertical = (byte 6).getLsbD 0 ∧ c.battery = (byte 6).getLsbD 1 ∧ c.trainer = (byte 6).getLsbD 2 ∧
        c.ignoreMirroring = (byte 6).getLsbD 3 ∧ c.vs.toNat = (byte 7).toNat % 4 ∧ c.version.toNat = (byte 7).toNat / 4 % 4) ∧
      t.map.mirroring = (if (byte 6).getLsbD 0 = true then .vertical else .horizontal) ∧
      t.map.shift = 0 ∧ t.map.count = 0 ∧ t.map.control = 0x0C ∧ t.map.chr0 = 0 ∧ t.map.chr1 = 0 ∧ t.map.prg = 0 ∧
      (∀ n, t.map.prgRam.read n = 0x00 ∧ t.map.chrRam.read n = 0x00) ∧
      t.cpu.a = 0x00 ∧ t.cpu.x = 0x00 ∧ t.cpu.y = 0x00 ∧ t.cpu.s = 0xFD ∧ t.cpu.p = 0x24 ∧
      t.cpu.pc.toNat = (busPeek t 0xFFFD).toNat * 256 + (busPeek t 0xFFFC).toNat ∧
      t = { s with cart := t.cart, map := t.map, cpu := t.cpu } ∧
      ∃ u, step t = .next u)
end

