-- ==== Sys2Proof/Laws/Memory.lean ====
section
/-! SUPPORT. Sparse storage: a read after a write, and the canonical form that every storage operation keeps. -/

namespace Sys2Proof.Machine

variable {α : Type}

/-! Reads. -/

@[simp] theorem sparseRead_nil (d : α) (a : Nat) : sparseRead d [] a = d := rfl

@[simp] theorem sparseRead_erase_same (d : α) (m : Sparse α) (a : Nat) : sparseRead d (sparseErase m a) a = d := by
  induction m with
  | nil => rfl
  | cons e m ih =>
    by_cases h : e.1 = a
    · simpa [sparseErase, h] using ih
    · simpa [sparseErase, sparseRead, h, Ne.symm h] using ih

theorem sparseRead_erase_other (d : α) (m : Sparse α) {a b : Nat} (hab : b ≠ a) :
    sparseRead d (sparseErase m a) b = sparseRead d m b := by
  induction m with
  | nil => rfl
  | cons e m ih =>
    by_cases h : e.1 = a
    · simpa [sparseErase, sparseRead, h, hab] using ih
    · have : sparseErase (e :: m) a = e :: sparseErase m a := by simp [sparseErase, h]
      rw [this]; simp only [sparseRead, ih]

theorem sparseRead_insert_other (d : α) (m : Sparse α) (v : α) {a b : Nat} (hab : b ≠ a) :
    sparseRead d (sparseInsert a v m) b = sparseRead d m b := by
  induction m with
  | nil => simp [sparseInsert, sparseRead, hab]
  | cons e m ih => by_cases h : a < e.1 <;> simp [sparseInsert, sparseRead, h, hab, ih]

theorem sparseRead_insert_same (d : α) (m : Sparse α) (a : Nat) (v : α) (h : ∀ e ∈ m, e.1 ≠ a) :
    sparseRead d (sparseInsert a v m) a = v := by
  induction m with
  | nil => simp [sparseInsert, sparseRead]
  | cons e m ih =>
    have he : a ≠ e.1 := (h e (by simp)).symm
    by_cases hlt : a < e.1
    · simp [sparseInsert, sparseRead, hlt]
    · simpa [sparseInsert, sparseRead, hlt, he] using ih fun x hx => h x (by simp [hx])

theorem fst_ne_of_mem_erase {m : Sparse α} {a : Nat} {e : Nat × α} (h : e ∈ sparseErase m a) : e.1 ≠ a := by
  simpa using (List.mem_filter.mp h).2

/-- A read after a write to the same offset gives the value written, whatever the list is. -/
@[simp] theorem sparseRead_write_same [DecidableEq α] (d : α) (m : Sparse α) (a : Nat) (v : α) :
    sparseRead d (sparseWrite d m a v) a = v := by
  unfold sparseWrite
  split
  next h => simp [h]
  next => exact sparseRead_insert_same d _ a v fun _ => fst_ne_of_mem_erase

/-- A write leaves every other offset alone. -/
theorem sparseRead_write_other [DecidableEq α] (d : α) (m : Sparse α) (v : α) {a b : Nat} (hab : b ≠ a) :
    sparseRead d (sparseWrite d m a v) b = sparseRead d m b := by
  unfold sparseWrite
  split
  · exact sparseRead_erase_other d m hab
  · rw [sparseRead_insert_other d _ v hab, sparseRead_erase_other d m hab]

/-- Both read laws at once. -/
theorem sparseRead_write [DecidableEq α] (d : α) (m : Sparse α) (a b : Nat) (v : α) :
    sparseRead d (sparseWrite d m a v) b = if b = a then v else sparseRead d m b := by
  split
  next h => rw [h, sparseRead_write_same]
  next h => exact sparseRead_write_other d m v h

@[simp] theorem Memory.read_nil (a : Nat) : Memory.read [] a = Config.memInit := rfl

@[simp] theorem Memory.read_write_same (m : Memory) (a : Nat) (v : Byte) : (m.write a v).read a = v :=
  sparseRead_write_same _ m a v

theorem Memory.read_write_other (m : Memory) (v : Byte) {a b : Nat} (h : b ≠ a) : (m.write a v).read b = m.read b :=
  sparseRead_write_other _ m v h

theorem Memory.read_write (m : Memory) (a b : Nat) (v : Byte) :
    (m.write a v).read b = if b = a then v else m.read b :=
  sparseRead_write _ m a b v

@[simp] theorem gridRead_write_same [DecidableEq α] (d : α) (g : Grid α) (r c : Nat) (v : α) :
    gridRead d (gridWrite d g r c v) r c = v := by
  simp [gridRead, gridWrite]

theorem gridRead_write [DecidableEq α] (d : α) (g : Grid α) (r c r' c' : Nat) (v : α) :
    gridRead d (gridWrite d g r c v) r' c' = if r' = r ∧ c' = c then v else gridRead d g r' c' := by
  unfold gridRead gridWrite
  rw [sparseRead_write]
  by_cases hr : r' = r <;> simp [hr, sparseRead_write]

theorem gridRead_clearRow [DecidableEq α] (d : α) (g : Grid α) (r r' c : Nat) :
    gridRead d (gridClearRow g r) r' c = if r' = r then d else gridRead d g r' c := by
  unfold gridRead gridClearRow
  rw [sparseRead_write]
  by_cases hr : r' = r <;> simp [hr]

/-! The canonical form. -/

theorem Sparse.wf_nil (d : α) : Sparse.wf d [] := ⟨List.Pairwise.nil, by simp⟩

theorem Sparse.below_nil (n : Nat) : Sparse.below n ([] : Sparse α) := by simp

theorem mem_of_mem_erase {m : Sparse α} {a : Nat} {e : Nat × α} (h : e ∈ sparseErase m a) : e ∈ m :=
  (List.mem_filter.mp h).1

theorem mem_insert {m : Sparse α} {a : Nat} {v : α} {e : Nat × α} (h : e ∈ sparseInsert a v m) :
    e = (a, v) ∨ e ∈ m := by
  induction m with
  | nil => simpa [sparseInsert] using h
  | cons x m ih =>
    by_cases hlt : a < x.1
    · simpa [sparseInsert, hlt] using h
    · rcases (by simpa [sparseInsert, hlt] using h : e = x ∨ e ∈ sparseInsert a v m) with h | h
      · exact Or.inr (by simp [h])
      · exact (ih h).imp id fun h => by simp [h]

/-- A cell that is listed after a write was written or was there. -/
theorem mem_sparseWrite [DecidableEq α] {d : α} {m : Sparse α} {a : Nat} {v : α} {e : Nat × α}
    (h : e ∈ sparseWrite d m a v) : (e = (a, v) ∧ v ≠ d) ∨ e ∈ m := by
  unfold sparseWrite at h
  split at h
  · exact Or.inr (mem_of_mem_erase h)
  · exact (mem_insert h).imp (fun h => ⟨h, ‹_›⟩) mem_of_mem_erase

theorem pairwise_insert {m : Sparse α} {a : Nat} (v : α) (h : m.Pairwise fun x y => x.1 < y.1)
    (hne : ∀ e ∈ m, e.1 ≠ a) : (sparseInsert a v m).Pairwise fun x y => x.1 < y.1 := by
  induction m with
  | nil => simp [sparseInsert]
  | cons x m ih =>
    obtain ⟨hx, hm⟩ := List.pairwise_cons.mp h
    by_cases hlt : a < x.1
    · have hall : ∀ y ∈ x :: m, (a, v).1 < y.1 := by
        intro y hy
        rcases List.mem_cons.mp hy with rfl | hy
        · exact hlt
        · exact Nat.lt_trans hlt (hx y hy)
      simpa [sparseInsert, hlt] using List.pairwise_cons.mpr ⟨hall, h⟩
    · have hxa : x.1 < a := by
        have := hne x (by simp)
        omega
      have := ih hm fun e he => hne e (by simp [he])
      simp only [sparseInsert, hlt, if_false]
      refine List.pairwise_cons.mpr ⟨fun y hy => ?_, this⟩
      rcases mem_insert hy with rfl | hy
      · exact hxa
      · exact hx y hy

/-- A write keeps the canonical form. -/
theorem Sparse.wf_write [DecidableEq α] {d : α} {m : Sparse α} (h : Sparse.wf d m) (a : Nat) (v : α) :
    Sparse.wf d (sparseWrite d m a v) := by
  refine ⟨?_, fun e he => ?_⟩
  · unfold sparseWrite
    split
    · exact h.1.filter _
    · exact pairwise_insert v (h.1.filter _) fun _ => fst_ne_of_mem_erase
  · rcases mem_sparseWrite he with ⟨rfl, hv⟩ | he
    · exact hv
    · exact h.2 e he

/-- A write inside the bound keeps the bound. -/
theorem Sparse.below_write [DecidableEq α] {d : α} {n : Nat} {m : Sparse α} (h : Sparse.below n m) {a : Nat} (ha : a < n)
    (v : α) : Sparse.below n (sparseWrite d m a v) := by
  intro e he
  rcases mem_sparseWrite he with ⟨rfl, _⟩ | he
  · exact ha
  · exact h e he

theorem Memory.wf_write {m : Memory} (h : m.wf) (a : Nat) (v : Byte) : (m.write a v).wf := Sparse.wf_write h a v

theorem Memory.below_write {n : Nat} {m : Memory} (h : Sparse.below n m) {a : Nat} (ha : a < n) (v : Byte) :
    Sparse.below n (m.write a v) := Sparse.below_write h ha v

theorem Memory.mem_write {m : Memory} {a : Nat} {v : Byte} {e : Nat × Byte} (h : e ∈ m.write a v) : e = (a, v) ∨ e ∈ m :=
  (mem_sparseWrite h).imp And.left id

/-- The listed offsets of a memory made from bytes lie where the bytes were put. -/
theorem Memory.mem_ofBytesFrom {bs : List Byte} {a : Nat} {e : Nat × Byte} (h : e ∈ Memory.ofBytesFrom a bs) :
    a ≤ e.1 ∧ e.1 < a + bs.length ∧ e.2 ≠ Config.memInit := by
  induction bs generalizing a with
  | nil => simp [Memory.ofBytesFrom] at h
  | cons b bs ih =>
    unfold Memory.ofBytesFrom at h
    split at h
    · obtain ⟨h₁, h₂, h₃⟩ := ih h
      exact ⟨by omega, by simp only [List.length_cons]; omega, h₃⟩
    · rcases List.mem_cons.mp h with rfl | h
      · exact ⟨Nat.le_refl _, by simp, ‹_›⟩
      · obtain ⟨h₁, h₂, h₃⟩ := ih h
        exact ⟨by omega, by simp only [List.length_cons]; omega, h₃⟩

/-- A memory made from bytes is canonical. -/
theorem Memory.wf_ofBytesFrom (bs : List Byte) (a : Nat) : (Memory.ofBytesFrom a bs).wf := by
  refine ⟨?_, fun e he => (Memory.mem_ofBytesFrom he).2.2⟩
  induction bs generalizing a with
  | nil => exact List.Pairwise.nil
  | cons b bs ih =>
    unfold Memory.ofBytesFrom
    split
    · exact ih (a + 1)
    · exact List.pairwise_cons.mpr ⟨fun e he => (Memory.mem_ofBytesFrom he).1, ih (a + 1)⟩

theorem Memory.wf_ofBytes (bs : List Byte) : (Memory.ofBytes bs).wf := Memory.wf_ofBytesFrom bs 0

theorem Memory.below_ofBytes {bs : List Byte} {n : Nat} (h : bs.length ≤ n) : Sparse.below n (Memory.ofBytes bs) :=
  fun e he => by have := Memory.mem_ofBytesFrom he; omega

/-- What a memory made from bytes reads as. -/
theorem Memory.read_ofBytesFrom (bs : List Byte) (a i : Nat) :
    (Memory.ofBytesFrom a bs).read (a + i) = bs.getD i Config.memInit := by
  induction bs generalizing a i with
  | nil => simp [Memory.ofBytesFrom]
  | cons b bs ih =>
    have low : ∀ bs' : List Byte, (Memory.ofBytesFrom (a + 1) bs').read a = Config.memInit := by
      intro bs'
      have : ∀ m : Memory, (∀ e ∈ m, e.1 ≠ a) → m.read a = Config.memInit := by
        intro m
        induction m with
        | nil => intro _; rfl
        | cons e m ih =>
          intro h
          have he : a ≠ e.1 := (h e (by simp)).symm
          simpa [Memory.read, sparseRead, he] using ih fun x hx => h x (by simp [hx])
      exact this _ fun e he => by have := Memory.mem_ofBytesFrom he; omega
    unfold Memory.ofBytesFrom
    cases i with
    | zero =>
      split
      next h => simpa [h] using low bs
      next => simp [Memory.read, sparseRead]
    | succ i =>
      have key : (Memory.ofBytesFrom (a + 1) bs).read (a + (i + 1)) = bs.getD i Config.memInit := by
        rw [show a + (i + 1) = a + 1 + i by omega]; exact ih (a + 1) i
      split
      · simpa using key
      · simpa [Memory.read, sparseRead] using key

/-- Clearing a row keeps a grid canonical. -/
theorem Grid.wf_clearRow [DecidableEq α] {d : α} {g : Grid α} (h : Grid.wf d g) {r : Nat} (hr : r < 240) :
    Grid.wf d (gridClearRow g r) := by
  refine ⟨Sparse.wf_write h.1 r [], Sparse.below_write h.2.1 hr [], fun e he => ?_⟩
  rcases mem_sparseWrite he with ⟨rfl, hne⟩ | he
  · exact absurd rfl hne
  · exact h.2.2 e he

/-- A row that is listed or not is a canonical row. -/
theorem Grid.row_wf {d : α} {g : Grid α} (h : Grid.wf d g) (r : Nat) :
    Sparse.wf d (sparseRead [] g r) ∧ Sparse.below 256 (sparseRead [] g r) := by
  obtain ⟨-, -, hg⟩ := h
  induction g with
  | nil => exact ⟨Sparse.wf_nil d, Sparse.below_nil 256⟩
  | cons e g ih =>
    by_cases he : r = e.1
    · simpa [sparseRead, he] using hg e (by simp)
    · simpa [sparseRead, he] using ih fun x hx => hg x (by simp [hx])

/-- Writing a cell inside the picture keeps a grid canonical. -/
theorem Grid.wf_write [DecidableEq α] {d : α} {g : Grid α} (h : Grid.wf d g) {r c : Nat} (hr : r < 240) (hc : c < 256) (v : α) :
    Grid.wf d (gridWrite d g r c v) := by
  refine ⟨Sparse.wf_write h.1 r _, Sparse.below_write h.2.1 hr _, fun e he => ?_⟩
  rcases mem_sparseWrite he with ⟨rfl, -⟩ | he
  · exact ⟨Sparse.wf_write (Grid.row_wf h r).1 c v, Sparse.below_write (Grid.row_wf h r).2 hc v⟩
  · exact h.2.2 e he

end Sys2Proof.Machine
end

