-- ==== Sys2Proof/Laws/State.lean ====
section
/-! SUPPORT. One lemma per field for each register update and for the cycle count, so that no proof unfolds a record update. -/

namespace Sys2Proof.Machine

/-! `setA`. -/

@[simp] theorem State.setA_a (s : State) (v : Byte) : (s.setA v).cpu.a = v := rfl
@[simp] theorem State.setA_x (s : State) (v : Byte) : (s.setA v).cpu.x = s.cpu.x := rfl
@[simp] theorem State.setA_y (s : State) (v : Byte) : (s.setA v).cpu.y = s.cpu.y := rfl
@[simp] theorem State.setA_s (s : State) (v : Byte) : (s.setA v).cpu.s = s.cpu.s := rfl
@[simp] theorem State.setA_pc (s : State) (v : Byte) : (s.setA v).cpu.pc = s.cpu.pc := rfl
@[simp] theorem State.setA_p (s : State) (v : Byte) : (s.setA v).cpu.p = s.cpu.p := rfl
@[simp] theorem State.setA_nmiPending (s : State) (v : Byte) : (s.setA v).nmiPending = s.nmiPending := rfl
@[simp] theorem State.setA_bus (s : State) (v : Byte) : (s.setA v).bus = s.bus := rfl
@[simp] theorem State.setA_ctl (s : State) (v : Byte) : (s.setA v).ctl = s.ctl := rfl
@[simp] theorem State.setA_ppu (s : State) (v : Byte) : (s.setA v).ppu = s.ppu := rfl
@[simp] theorem State.setA_map (s : State) (v : Byte) : (s.setA v).map = s.map := rfl
@[simp] theorem State.setA_cart (s : State) (v : Byte) : (s.setA v).cart = s.cart := rfl
@[simp] theorem State.setA_params (s : State) (v : Byte) : (s.setA v).params = s.params := rfl
@[simp] theorem State.setA_cycles (s : State) (v : Byte) : (s.setA v).cycles = s.cycles := rfl

/-! `setX`. -/

@[simp] theorem State.setX_a (s : State) (v : Byte) : (s.setX v).cpu.a = s.cpu.a := rfl
@[simp] theorem State.setX_x (s : State) (v : Byte) : (s.setX v).cpu.x = v := rfl
@[simp] theorem State.setX_y (s : State) (v : Byte) : (s.setX v).cpu.y = s.cpu.y := rfl
@[simp] theorem State.setX_s (s : State) (v : Byte) : (s.setX v).cpu.s = s.cpu.s := rfl
@[simp] theorem State.setX_pc (s : State) (v : Byte) : (s.setX v).cpu.pc = s.cpu.pc := rfl
@[simp] theorem State.setX_p (s : State) (v : Byte) : (s.setX v).cpu.p = s.cpu.p := rfl
@[simp] theorem State.setX_nmiPending (s : State) (v : Byte) : (s.setX v).nmiPending = s.nmiPending := rfl
@[simp] theorem State.setX_bus (s : State) (v : Byte) : (s.setX v).bus = s.bus := rfl
@[simp] theorem State.setX_ctl (s : State) (v : Byte) : (s.setX v).ctl = s.ctl := rfl
@[simp] theorem State.setX_ppu (s : State) (v : Byte) : (s.setX v).ppu = s.ppu := rfl
@[simp] theorem State.setX_map (s : State) (v : Byte) : (s.setX v).map = s.map := rfl
@[simp] theorem State.setX_cart (s : State) (v : Byte) : (s.setX v).cart = s.cart := rfl
@[simp] theorem State.setX_params (s : State) (v : Byte) : (s.setX v).params = s.params := rfl
@[simp] theorem State.setX_cycles (s : State) (v : Byte) : (s.setX v).cycles = s.cycles := rfl

/-! `setY`. -/

@[simp] theorem State.setY_a (s : State) (v : Byte) : (s.setY v).cpu.a = s.cpu.a := rfl
@[simp] theorem State.setY_x (s : State) (v : Byte) : (s.setY v).cpu.x = s.cpu.x := rfl
@[simp] theorem State.setY_y (s : State) (v : Byte) : (s.setY v).cpu.y = v := rfl
@[simp] theorem State.setY_s (s : State) (v : Byte) : (s.setY v).cpu.s = s.cpu.s := rfl
@[simp] theorem State.setY_pc (s : State) (v : Byte) : (s.setY v).cpu.pc = s.cpu.pc := rfl
@[simp] theorem State.setY_p (s : State) (v : Byte) : (s.setY v).cpu.p = s.cpu.p := rfl
@[simp] theorem State.setY_nmiPending (s : State) (v : Byte) : (s.setY v).nmiPending = s.nmiPending := rfl
@[simp] theorem State.setY_bus (s : State) (v : Byte) : (s.setY v).bus = s.bus := rfl
@[simp] theorem State.setY_ctl (s : State) (v : Byte) : (s.setY v).ctl = s.ctl := rfl
@[simp] theorem State.setY_ppu (s : State) (v : Byte) : (s.setY v).ppu = s.ppu := rfl
@[simp] theorem State.setY_map (s : State) (v : Byte) : (s.setY v).map = s.map := rfl
@[simp] theorem State.setY_cart (s : State) (v : Byte) : (s.setY v).cart = s.cart := rfl
@[simp] theorem State.setY_params (s : State) (v : Byte) : (s.setY v).params = s.params := rfl
@[simp] theorem State.setY_cycles (s : State) (v : Byte) : (s.setY v).cycles = s.cycles := rfl

/-! `setS`. -/

@[simp] theorem State.setS_a (s : State) (v : Byte) : (s.setS v).cpu.a = s.cpu.a := rfl
@[simp] theorem State.setS_x (s : State) (v : Byte) : (s.setS v).cpu.x = s.cpu.x := rfl
@[simp] theorem State.setS_y (s : State) (v : Byte) : (s.setS v).cpu.y = s.cpu.y := rfl
@[simp] theorem State.setS_s (s : State) (v : Byte) : (s.setS v).cpu.s = v := rfl
@[simp] theorem State.setS_pc (s : State) (v : Byte) : (s.setS v).cpu.pc = s.cpu.pc := rfl
@[simp] theorem State.setS_p (s : State) (v : Byte) : (s.setS v).cpu.p = s.cpu.p := rfl
@[simp] theorem State.setS_nmiPending (s : State) (v : Byte) : (s.setS v).nmiPending = s.nmiPending := rfl
@[simp] theorem State.setS_bus (s : State) (v : Byte) : (s.setS v).bus = s.bus := rfl
@[simp] theorem State.setS_ctl (s : State) (v : Byte) : (s.setS v).ctl = s.ctl := rfl
@[simp] theorem State.setS_ppu (s : State) (v : Byte) : (s.setS v).ppu = s.ppu := rfl
@[simp] theorem State.setS_map (s : State) (v : Byte) : (s.setS v).map = s.map := rfl
@[simp] theorem State.setS_cart (s : State) (v : Byte) : (s.setS v).cart = s.cart := rfl
@[simp] theorem State.setS_params (s : State) (v : Byte) : (s.setS v).params = s.params := rfl
@[simp] theorem State.setS_cycles (s : State) (v : Byte) : (s.setS v).cycles = s.cycles := rfl

/-! `setP`. -/

@[simp] theorem State.setP_a (s : State) (v : Byte) : (s.setP v).cpu.a = s.cpu.a := rfl
@[simp] theorem State.setP_x (s : State) (v : Byte) : (s.setP v).cpu.x = s.cpu.x := rfl
@[simp] theorem State.setP_y (s : State) (v : Byte) : (s.setP v).cpu.y = s.cpu.y := rfl
@[simp] theorem State.setP_s (s : State) (v : Byte) : (s.setP v).cpu.s = s.cpu.s := rfl
@[simp] theorem State.setP_pc (s : State) (v : Byte) : (s.setP v).cpu.pc = s.cpu.pc := rfl
@[simp] theorem State.setP_p (s : State) (v : Byte) : (s.setP v).cpu.p = v := rfl
@[simp] theorem State.setP_nmiPending (s : State) (v : Byte) : (s.setP v).nmiPending = s.nmiPending := rfl
@[simp] theorem State.setP_bus (s : State) (v : Byte) : (s.setP v).bus = s.bus := rfl
@[simp] theorem State.setP_ctl (s : State) (v : Byte) : (s.setP v).ctl = s.ctl := rfl
@[simp] theorem State.setP_ppu (s : State) (v : Byte) : (s.setP v).ppu = s.ppu := rfl
@[simp] theorem State.setP_map (s : State) (v : Byte) : (s.setP v).map = s.map := rfl
@[simp] theorem State.setP_cart (s : State) (v : Byte) : (s.setP v).cart = s.cart := rfl
@[simp] theorem State.setP_params (s : State) (v : Byte) : (s.setP v).params = s.params := rfl
@[simp] theorem State.setP_cycles (s : State) (v : Byte) : (s.setP v).cycles = s.cycles := rfl

/-! `setPc`. -/

@[simp] theorem State.setPc_a (s : State) (v : Word) : (s.setPc v).cpu.a = s.cpu.a := rfl
@[simp] theorem State.setPc_x (s : State) (v : Word) : (s.setPc v).cpu.x = s.cpu.x := rfl
@[simp] theorem State.setPc_y (s : State) (v : Word) : (s.setPc v).cpu.y = s.cpu.y := rfl
@[simp] theorem State.setPc_s (s : State) (v : Word) : (s.setPc v).cpu.s = s.cpu.s := rfl
@[simp] theorem State.setPc_pc (s : State) (v : Word) : (s.setPc v).cpu.pc = v := rfl
@[simp] theorem State.setPc_p (s : State) (v : Word) : (s.setPc v).cpu.p = s.cpu.p := rfl
@[simp] theorem State.setPc_nmiPending (s : State) (v : Word) : (s.setPc v).nmiPending = s.nmiPending := rfl
@[simp] theorem State.setPc_bus (s : State) (v : Word) : (s.setPc v).bus = s.bus := rfl
@[simp] theorem State.setPc_ctl (s : State) (v : Word) : (s.setPc v).ctl = s.ctl := rfl
@[simp] theorem State.setPc_ppu (s : State) (v : Word) : (s.setPc v).ppu = s.ppu := rfl
@[simp] theorem State.setPc_map (s : State) (v : Word) : (s.setPc v).map = s.map := rfl
@[simp] theorem State.setPc_cart (s : State) (v : Word) : (s.setPc v).cart = s.cart := rfl
@[simp] theorem State.setPc_params (s : State) (v : Word) : (s.setPc v).params = s.params := rfl
@[simp] theorem State.setPc_cycles (s : State) (v : Word) : (s.setPc v).cycles = s.cycles := rfl

/-! `charge`. -/

@[simp] theorem State.charge_cpu (s : State) (n : Cycles) : (s.charge n).cpu = s.cpu := rfl
@[simp] theorem State.charge_nmiPending (s : State) (n : Cycles) : (s.charge n).nmiPending = s.nmiPending := rfl
@[simp] theorem State.charge_bus (s : State) (n : Cycles) : (s.charge n).bus = s.bus := rfl
@[simp] theorem State.charge_ctl (s : State) (n : Cycles) : (s.charge n).ctl = s.ctl := rfl
@[simp] theorem State.charge_ppu (s : State) (n : Cycles) : (s.charge n).ppu = s.ppu := rfl
@[simp] theorem State.charge_map (s : State) (n : Cycles) : (s.charge n).map = s.map := rfl
@[simp] theorem State.charge_cart (s : State) (n : Cycles) : (s.charge n).cart = s.cart := rfl
@[simp] theorem State.charge_params (s : State) (n : Cycles) : (s.charge n).params = s.params := rfl
@[simp] theorem State.charge_cycles (s : State) (n : Cycles) : (s.charge n).cycles = s.cycles + n := rfl

end Sys2Proof.Machine
end

