-- ==== Sys2Proof/Laws/Bus.lean ====
section
/-! SUPPORT. What a read and a write of the CPU bus can do: the fields they leave alone, the bytes they leave alone, and that they
keep the invariant. -/

namespace Sys2Proof.Machine

/-! Reads. -/

/-- All a bus read can do: nothing, or the status port's, the data port's or the controller port's side effect (R72). -/
theorem busAfterRead_cases (s : State) (a : Word) :
    busAfterRead s a = s ∨ busAfterRead s a = ppuRegAfterRead s .status ∨
    busAfterRead s a = ppuRegAfterRead s .data ∨ busAfterRead s a = controllerAfterRead s := by
  unfold busAfterRead
  split
  next port _ => cases port <;> simp [ppuRegAfterRead]
  all_goals simp

/-- A read leaves an address with no side effect alone. -/
@[simp] theorem busAfterRead_quiet {s : State} {a : Word} (h : quiet a = true) : busAfterRead s a = s := by
  unfold quiet at h
  unfold busAfterRead
  split <;> simp_all

theorem controllerAfterRead_frame (s : State) :
    controllerAfterRead s = { s with ctl := (controllerAfterRead s).ctl } := by
  unfold controllerAfterRead
  split <;> rfl

/-- A read changes at most the controller and the PPU's status bit, toggle, buffer and address. -/
theorem busAfterRead_frame (s : State) (a : Word) :
    busAfterRead s a =
      { s with
        ctl := (busAfterRead s a).ctl
        ppu := { s.ppu with
          regs := { s.ppu.regs with status := (busAfterRead s a).ppu.regs.status }
          w := (busAfterRead s a).ppu.w
          rdbuf := (busAfterRead s a).ppu.rdbuf
          v := (busAfterRead s a).ppu.v } } := by
  rcases busAfterRead_cases s a with h | h | h | h
  · rw [h]
  · rw [h]; rfl
  · rw [h]; rfl
  · rw [h, controllerAfterRead_frame]

@[simp] theorem busAfterRead_cpu (s : State) (a : Word) : (busAfterRead s a).cpu = s.cpu := by rw [busAfterRead_frame]
@[simp] theorem busAfterRead_bus (s : State) (a : Word) : (busAfterRead s a).bus = s.bus := by rw [busAfterRead_frame]
@[simp] theorem busAfterRead_map (s : State) (a : Word) : (busAfterRead s a).map = s.map := by rw [busAfterRead_frame]
@[simp] theorem busAfterRead_cart (s : State) (a : Word) : (busAfterRead s a).cart = s.cart := by rw [busAfterRead_frame]
@[simp] theorem busAfterRead_params (s : State) (a : Word) : (busAfterRead s a).params = s.params := by
  rw [busAfterRead_frame]
@[simp] theorem busAfterRead_cycles (s : State) (a : Word) : (busAfterRead s a).cycles = s.cycles := by
  rw [busAfterRead_frame]
@[simp] theorem busAfterRead_nmiPending (s : State) (a : Word) : (busAfterRead s a).nmiPending = s.nmiPending := by
  rw [busAfterRead_frame]
@[simp] theorem busAfterRead_oam (s : State) (a : Word) : (busAfterRead s a).ppu.oam = s.ppu.oam := by
  rw [busAfterRead_frame]
@[simp] theorem busAfterRead_nt (s : State) (a : Word) : (busAfterRead s a).ppu.nt = s.ppu.nt := by
  rw [busAfterRead_frame]
@[simp] theorem busAfterRead_pal (s : State) (a : Word) : (busAfterRead s a).ppu.pal = s.ppu.pal := by
  rw [busAfterRead_frame]
@[simp] theorem busAfterRead_oamAddr (s : State) (a : Word) :
    (busAfterRead s a).ppu.regs.oamAddr = s.ppu.regs.oamAddr := by
  rw [busAfterRead_frame]

/-- What a peek of a quiet address depends on. -/
theorem busPeek_congr {s t : State} (hb : t.bus = s.bus) (hm : t.map = s.map) (hc : t.cart = s.cart)
    (hp : t.params = s.params) {a : Word} (ha : quiet a = true) : busPeek t a = busPeek s a := by
  unfold quiet at ha
  unfold busPeek
  split <;> simp_all [prgRead]

/-- What a read of the PPU bus depends on. -/
theorem ppuRead_congr {s t : State} (hm : t.map = s.map) (hc : t.cart = s.cart) (hn : t.ppu.nt = s.ppu.nt)
    (hp : t.ppu.pal = s.ppu.pal) (a : Word) : ppuRead t a = ppuRead s a := by
  unfold ppuRead chrRead
  rw [hm, hc, hn, hp]

/-- A quiet read sees what a peek sees, but for the write-only APU bytes. -/
theorem busValue_eq_peek {s : State} {a : Word} (h : quiet a = true) (hapu : ∀ o, busTarget a = .apu o → o = 0x15) :
    busValue s a = busPeek s a := by
  unfold quiet at h
  unfold busValue busPeek
  split <;> simp_all

/-- Storage is kept where the fields that hold it are. -/
theorem StorageKept.of_fields {s t : State} (hb : t.bus = s.bus) (hm : t.map = s.map) (hc : t.cart = s.cart)
    (hp : t.params = s.params) (hn : t.ppu.nt = s.ppu.nt) (hpal : t.ppu.pal = s.ppu.pal)
    (ho : t.ppu.oam = s.ppu.oam) : StorageKept s t :=
  ⟨fun _ ha => busPeek_congr hb hm hc hp ha, fun a => ppuRead_congr hm hc hn hpal a, fun n => by rw [ho]⟩

/-- Reads of the bus keep all storage. -/
theorem StorageKept.busAfterRead (s : State) (a : Word) : StorageKept s (busAfterRead s a) :=
  .of_fields (by simp) (by simp) (by simp) (by simp) (by simp) (by simp) (by simp)

theorem StorageKept.trans {s t u : State} (h : StorageKept s t) (h' : StorageKept t u) : StorageKept s u :=
  ⟨fun a ha => (h'.1 a ha).trans (h.1 a ha), fun a => (h'.2.1 a).trans (h.2.1 a),
    fun n => (h'.2.2 n).trans (h.2.2 n)⟩

/-! Registers and the cycle count are no business of the bus. -/

@[simp] theorem busValue_cpu (s : State) (c : Cpu) (a : Word) : busValue { s with cpu := c } a = busValue s a := rfl
@[simp] theorem busPeek_cpu (s : State) (c : Cpu) (a : Word) : busPeek { s with cpu := c } a = busPeek s a := rfl
@[simp] theorem busPeek_cycles (s : State) (n : Cycles) (a : Word) : busPeek { s with cycles := n } a = busPeek s a := rfl

theorem busAfterRead_cpu_update (s : State) (c : Cpu) (a : Word) :
    busAfterRead { s with cpu := c } a = { busAfterRead s a with cpu := c } := by
  unfold busAfterRead
  split
  next port _ => cases port <;> rfl
  next => cases h : s.params.controller <;> simp [controllerAfterRead, h]
  all_goals rfl

/-! Targets. -/

/-- The target of an address in page 0 or 1 is its own byte of RAM (R74). -/
theorem busTarget_low {a : Word} (h : a.toNat < 0x800) : busTarget a = .ram a.toNat := by
  unfold busTarget
  rw [if_pos (by omega), Nat.mod_eq_of_lt h]

/-- The addresses of each target. -/
theorem quiet_of_lt {a : Word} (h : a.toNat < 0x2000) : quiet a = true := by
  simp [quiet, busTarget, h]

theorem quiet_of_ge {a : Word} (h : 0x4018 ≤ a.toNat) : quiet a = true := by
  unfold quiet busTarget
  rw [if_neg (by omega), if_neg (by omega), if_neg (by omega), if_neg (by omega), if_neg (by omega)]
  split_ifs <;> rfl

theorem busTarget_oamDma_iff (a : Word) : busTarget a = .oamDma ↔ a = 0x4014 := by
  rw [BitVec.toNat_eq]
  unfold busTarget
  have : (0x4014 : Word).toNat = 0x4014 := rfl
  constructor
  · intro h
    dsimp only at h
    split_ifs at h
    simpa using ‹_›
  · intro h
    simp [h]

/-! Writes. -/

theorem oamDma_frame (page : Byte) (s : State) :
    ∃ (o : Memory) (c : Controller) (p : Ppu), oamDma page s =
      { s with ctl := c, ppu := { p with oam := o, nt := s.ppu.nt, pal := s.ppu.pal } } := by
  unfold oamDma
  generalize List.range 256 = l
  induction l generalizing s with
  | nil => exact ⟨s.ppu.oam, s.ctl, s.ppu, rfl⟩
  | cons i l ih =>
    obtain ⟨o, c, p, h⟩ := ih (oamDmaByte page s i)
    refine ⟨o, c, p, ?_⟩
    rw [List.foldl_cons, h]
    unfold oamDmaByte
    simp

theorem mapperWrite_frame (s : State) (a : Word) (v : Byte) :
    mapperWrite s a v = { s with map := (mapperWrite s a v).map } := by
  unfold mapperWrite
  split
  · split <;> rfl
  · rfl

theorem chrWrite_frame (s : State) (a : Nat) (v : Byte) :
    chrWrite s a v = { s with map := { s.map with chrRam := (chrWrite s a v).map.chrRam } } := by
  unfold chrWrite
  split
  · split <;> rfl
  · rfl

theorem ppuWrite_frame (s : State) (a : Word) (v : Byte) :
    ppuWrite s a v = { s with
      map := { s.map with chrRam := (ppuWrite s a v).map.chrRam }
      ppu := { s.ppu with nt := (ppuWrite s a v).ppu.nt, pal := (ppuWrite s a v).ppu.pal } } := by
  unfold ppuWrite
  dsimp only
  split
  · rw [chrWrite_frame]
  · split <;> rfl

theorem controllerWrite_frame (s : State) (v : Byte) :
    controllerWrite s v = { s with ctl := (controllerWrite s v).ctl } := by
  unfold controllerWrite
  split <;> rfl

theorem ppuRegWrite_frame (s : State) (port : PpuPort) (v : Byte) :
    ∃ m p, ppuRegWrite s port v = { s with map := m, ppu := p } := by
  cases port with
  | data =>
    simp only [ppuRegWrite, dataWrite]
    rw [ppuWrite_frame]
    exact ⟨_, _, rfl⟩
  | _ => exact ⟨s.map, _, rfl⟩

/-- A bus write changes no CPU register, no request, no cartridge, no parameter and no cycle count. -/
theorem busWrite_frame (s : State) (a : Word) (v : Byte) :
    ∃ b c p m, busWrite s a v = { s with bus := b, ctl := c, ppu := p, map := m } := by
  unfold busWrite
  split
  · exact ⟨_, _, _, _, rfl⟩
  · obtain ⟨m, p, h⟩ := ppuRegWrite_frame s ‹_› v
    exact ⟨_, _, _, _, h⟩
  · obtain ⟨o, c, p, h⟩ := oamDma_frame v s
    exact ⟨_, _, _, _, h⟩
  · exact ⟨_, _, _, _, controllerWrite_frame s v⟩
  · exact ⟨_, _, _, _, rfl⟩
  · exact ⟨_, _, _, _, rfl⟩
  · exact ⟨_, _, _, _, rfl⟩
  · exact ⟨_, _, _, _, mapperWrite_frame s a v⟩

@[simp] theorem busWrite_cpu (s : State) (a : Word) (v : Byte) : (busWrite s a v).cpu = s.cpu := by
  obtain ⟨_, _, _, _, h⟩ := busWrite_frame s a v; rw [h]
@[simp] theorem busWrite_nmiPending (s : State) (a : Word) (v : Byte) : (busWrite s a v).nmiPending = s.nmiPending := by
  obtain ⟨_, _, _, _, h⟩ := busWrite_frame s a v; rw [h]
@[simp] theorem busWrite_cart (s : State) (a : Word) (v : Byte) : (busWrite s a v).cart = s.cart := by
  obtain ⟨_, _, _, _, h⟩ := busWrite_frame s a v; rw [h]
@[simp] theorem busWrite_params (s : State) (a : Word) (v : Byte) : (busWrite s a v).params = s.params := by
  obtain ⟨_, _, _, _, h⟩ := busWrite_frame s a v; rw [h]
@[simp] theorem busWrite_cycles (s : State) (a : Word) (v : Byte) : (busWrite s a v).cycles = s.cycles := by
  obtain ⟨_, _, _, _, h⟩ := busWrite_frame s a v; rw [h]

/-- A write to RAM is a write of one byte of the array and nothing else (R74). -/
theorem busWrite_ram (s : State) {a : Word} (v : Byte) (h : a.toNat < 0x2000) :
    busWrite s a v = { s with bus := { s.bus with ram := s.bus.ram.write (a.toNat % 0x800) v } } := by
  simp [busWrite, busTarget, h]

/-- What a read of a RAM address returns. -/
theorem busPeek_ram (s : State) {a : Word} (h : a.toNat < 0x2000) : busPeek s a = s.bus.ram.read (a.toNat % 0x800) := by
  simp [busPeek, busTarget, h]

theorem busValue_ram (s : State) {a : Word} (h : a.toNat < 0x2000) : busValue s a = s.bus.ram.read (a.toNat % 0x800) := by
  simp [busValue, busTarget, h]

/-- A write to RAM leaves every quiet byte with another target alone. -/
theorem busPeek_write_ram (s : State) {a b : Word} (v : Byte) (ha : a.toNat < 0x2000) (hb : quiet b = true)
    (hne : busTarget b ≠ busTarget a) : busPeek (busWrite s a v) b = busPeek s b := by
  rw [busWrite_ram s v ha]
  have hta : busTarget a = .ram (a.toNat % 0x800) := by simp [busTarget, ha]
  unfold quiet at hb
  unfold busPeek
  split <;> simp_all [prgRead]
  exact Memory.read_write_other _ _ hne

/-- A quiet address whose target is no listed stack byte reads as before after those bytes changed. -/
theorem busPeek_ram_update (s : State) (ram : Memory) {a : Word} (ha : quiet a = true)
    (h : ∀ o, busTarget a = .ram o → ram.read o = s.bus.ram.read o) :
    busPeek { s with bus := { s.bus with ram := ram } } a = busPeek s a := by
  unfold quiet at ha
  unfold busPeek
  split <;> simp_all [prgRead]

/-- The memory frame of a bus write: no quiet byte with another target changes, but that a write to the mapper may switch the banks
seen at 0x8000 and above (R79, R383). -/
theorem busPeek_write (s : State) (ea a : Word) (v : Byte) (hq : quiet a = true) (hne : busTarget a ≠ busTarget ea)
    (hh : a.toNat < 0x8000 ∨ ea.toNat < 0x8000) : busPeek (busWrite s ea v) a = busPeek s a := by
  unfold busWrite
  split
  next o h =>
    exact busPeek_ram_update s _ hq (fun o' ho' => Memory.read_write_other _ _ (by rintro rfl; exact hne (ho'.trans h.symm)))
  next p h =>
    have : ∀ m p, m.prgRam = s.map.prgRam → m.control = s.map.control → m.prg = s.map.prg →
        busPeek { s with map := m, ppu := p } a = busPeek s a := by
      intro m p h1 h2 h3
      unfold quiet at hq
      unfold busPeek
      split <;> simp_all [prgRead, prgIndex, prgBanks]
    cases p with
    | data => simp only [ppuRegWrite, dataWrite]; rw [ppuWrite_frame]; exact this _ _ rfl rfl rfl
    | _ => exact this _ _ rfl rfl rfl
  next h => obtain ⟨o, c, p, h⟩ := oamDma_frame v s; rw [h]; refine busPeek_congr (s := s) ?_ ?_ ?_ ?_ hq <;> rfl
  next h => rw [controllerWrite_frame]; refine busPeek_congr (s := s) ?_ ?_ ?_ ?_ hq <;> rfl
  next o h =>
    unfold quiet at hq
    unfold busPeek
    split <;> simp_all [prgRead]
    exact Memory.read_write_other _ _ hne
  next o h =>
    unfold quiet at hq
    unfold busPeek
    split <;> simp_all [prgRead]
    exact Memory.read_write_other _ _ hne
  next o h =>
    unfold quiet at hq
    unfold busPeek
    split <;> simp_all [prgRead]
    · exact Memory.read_write_other _ _ hne
    · rfl
  next h =>
    have ha : ∀ x : Word, busTarget x = .prgRom → 0x8000 ≤ x.toNat := by
      intro x hx
      unfold busTarget at hx; dsimp only at hx; split_ifs at hx; omega
    have h1 := ha ea h
    have : busTarget a ≠ .prgRom := fun h' => by have := ha a h'; omega
    rw [mapperWrite_frame]
    unfold quiet at hq
    unfold busPeek
    split <;> simp_all
    have : ∀ v, (mapperWrite s ea v).map.prgRam = s.map.prgRam := by
      intro v
      unfold mapperWrite serialWrite serialCommit
      split
      · split
        · dsimp only; split_ifs <;> try rfl
          split <;> rfl
        · rfl
      · rfl
    rw [this]

/-- A write to plain storage leaves the PPU and the mapper registers alone. -/
theorem busWrite_plain (s : State) (ea : Word) (v : Byte) (hq : quiet ea = true) (h4 : ea ≠ 0x4014)
    (h8 : ea.toNat < 0x8000) :
    (busWrite s ea v).ppu = s.ppu ∧
      (busWrite s ea v).map = { s.map with prgRam := (busWrite s ea v).map.prgRam } := by
  have h4' : busTarget ea ≠ .oamDma := fun h => h4 ((busTarget_oamDma_iff ea).1 h)
  have h5 : busTarget ea ≠ .prgRom := by
    unfold busTarget; dsimp only; split_ifs <;> simp
  unfold quiet at hq
  unfold busWrite
  split <;> simp_all

end Sys2Proof.Machine
end

