-- ==== Sys2Proof/Laws/Flags.lean ====
section
/-! SUPPORT. What each flag computation does to each flag, so that no later proof unfolds one. -/

namespace Sys2Proof.Machine

@[simp] theorem flag_setFlag (f g : Flag) (v : Bool) (p : Byte) :
    flag (setFlag f v p) g = if g = f then v else flag p g := by
  cases f <;> cases g <;> cases v <;> simp [flag, setFlag, Flag.pos]

/-- A status byte is its eight flags. -/
theorem status_ext {p q : Byte} (h : ∀ f, flag p f = flag q f) : p = q := by
  refine BitVec.eq_of_getLsbD_eq fun i hi => ?_
  have key : ∃ f : Flag, f.pos = i := by
    match i, hi with
    | 0, _ => exact ⟨.c, rfl⟩
    | 1, _ => exact ⟨.z, rfl⟩
    | 2, _ => exact ⟨.i, rfl⟩
    | 3, _ => exact ⟨.d, rfl⟩
    | 4, _ => exact ⟨.b, rfl⟩
    | 5, _ => exact ⟨.u, rfl⟩
    | 6, _ => exact ⟨.v, rfl⟩
    | 7, _ => exact ⟨.n, rfl⟩
  obtain ⟨f, rfl⟩ := key
  exact h f

@[simp] theorem flag_setZN (v p : Byte) (g : Flag) :
    flag (setZN v p) g = if g = .n then v.getLsbD 7 else if g = .z then v == 0 else flag p g := by
  simp [setZN]

/-- Bit 7 of a byte is its sign (R24). -/
theorem bit7_iff (v : Byte) : v.getLsbD 7 = true ↔ 0x80 ≤ v.toNat := by
  have := v.isLt
  rw [BitVec.getLsbD, Nat.testBit_eq_decide_div_mod_eq]
  simp only [decide_eq_true_eq]
  omega

theorem beq_zero_iff (v : Byte) : (v == 0) = true ↔ v.toNat = 0 := by
  rw [beq_iff_eq, BitVec.toNat_eq]; rfl

@[simp] theorem flag_pulledStatus (v : Byte) (f : Flag) :
    flag (pulledStatus v) f = if f = .b then false else if f = .u then true else flag v f := by
  cases f <;> simp [flag, pulledStatus, Flag.pos]

@[simp] theorem flag_pushedByInstr (p : Byte) (f : Flag) :
    flag (pushedByInstr p) f = if f = .b then true else if f = .u then true else flag p f := by
  cases f <;> simp [flag, pushedByInstr, Flag.pos]

@[simp] theorem flag_pushedByNmi (p : Byte) (f : Flag) :
    flag (pushedByNmi p) f = if f = .b then false else if f = .u then true else flag p f := by
  cases f <;> simp [flag, pushedByNmi, Flag.pos]

/-- The break bit is 0 and the unused bit 1 (R26), flag by flag. -/
theorem status_inv_iff (p : Byte) : p &&& 0x30 = 0x20 ↔ flag p .b = false ∧ flag p .u = true := by
  revert p; decide +kernel

/-- The sum of ADC as a number. -/
theorem toNat_adcSum (a m : Byte) (c : Bool) : (adcSum a m c).toNat = a.toNat + m.toNat + c.toNat := by
  have ha := a.isLt
  have hm := m.isLt
  have hc : c.toNat ≤ 1 := Bool.toNat_le c
  simp only [adcSum, BitVec.toNat_add, BitVec.toNat_setWidth, BitVec.toNat_ofBool]
  omega

/-- The result of ADC as a number (R192). -/
theorem toNat_adcResult (a m : Byte) (c : Bool) : (adcResult a m c).toNat = (a.toNat + m.toNat + c.toNat) % 256 := by
  simp [adcResult, toNat_adcSum]

/-- The carry of ADC (R192). -/
theorem adcSum_carry (a m : Byte) (c : Bool) :
    (adcSum a m c).getLsbD 8 = true ↔ 0x100 ≤ a.toNat + m.toNat + c.toNat := by
  have ha := a.isLt
  have hm := m.isLt
  have hc : c.toNat ≤ 1 := Bool.toNat_le c
  rw [BitVec.getLsbD, Nat.testBit_eq_decide_div_mod_eq, toNat_adcSum]
  simp only [decide_eq_true_eq]
  omega

/-- A byte as a signed number. -/
theorem toInt_byte (v : Byte) : v.toInt = if 0x80 ≤ v.toNat then (v.toNat : Int) - 256 else v.toNat := by
  have := v.isLt
  rw [BitVec.toInt_eq_toNat_cond]
  split <;> split <;> omega

/-- The overflow of ADC is that of the signed sum (R192). -/
theorem adc_overflow (a m : Byte) (c : Bool) :
    ((a ^^^ adcResult a m c) &&& (m ^^^ adcResult a m c)).getLsbD 7 = true ↔
      (a.toInt + m.toInt + (c.toNat : Int) < -128 ∨ 127 < a.toInt + m.toInt + (c.toNat : Int)) := by
  have ha := a.isLt
  have hm := m.isLt
  have hc : c.toNat ≤ 1 := Bool.toNat_le c
  have hr := toNat_adcResult a m c
  have h1 := bit7_iff a
  have h2 := bit7_iff m
  have h3 := bit7_iff (adcResult a m c)
  simp only [BitVec.getLsbD_and, BitVec.getLsbD_xor, toInt_byte]
  cases hA : a.getLsbD 7 <;> cases hM : m.getLsbD 7 <;> cases hR : (adcResult a m c).getLsbD 7 <;>
    simp only [hA, hM, hR, true_iff, Bool.false_eq_true, false_iff] at h1 h2 h3 <;>
    simp <;> (repeat' split) <;> omega

@[simp] theorem flag_adcStatus (a m p : Byte) (g : Flag) :
    flag (adcStatus a m p) g =
      if g = .n then (adcResult a m (flag p .c)).getLsbD 7
      else if g = .z then adcResult a m (flag p .c) == 0
      else if g = .v then
        ((a ^^^ adcResult a m (flag p .c)) &&& (m ^^^ adcResult a m (flag p .c))).getLsbD 7
      else if g = .c then (adcSum a m (flag p .c)).getLsbD 8
      else flag p g := by
  simp [adcStatus]

@[simp] theorem flag_compareStatus (r m p : Byte) (g : Flag) :
    flag (compareStatus r m p) g =
      if g = .n then (r - m).getLsbD 7
      else if g = .z then r == m
      else if g = .c then decide (m.toNat ≤ r.toNat)
      else flag p g := by
  simp [compareStatus]

@[simp] theorem flag_bitStatus (a m p : Byte) (g : Flag) :
    flag (bitStatus a m p) g =
      if g = .v then m.getLsbD 6
      else if g = .n then m.getLsbD 7
      else if g = .z then (a &&& m) == 0
      else flag p g := by
  simp [bitStatus]

/-! The shifts as arithmetic on numbers (R221 to R224). -/

theorem toNat_aslOut (b p : Byte) : (aslOut b p).result.toNat = 2 * b.toNat % 256 := by
  simp only [aslOut, BitVec.toNat_shiftLeft, Nat.shiftLeft_eq]
  omega

theorem toNat_lsrOut (b p : Byte) : (lsrOut b p).result.toNat = b.toNat / 2 := by
  simp [lsrOut, BitVec.toNat_ushiftRight, Nat.shiftRight_eq_div_pow]

theorem toNat_rolOut (b p : Byte) : (rolOut b p).result.toNat = 2 * b.toNat % 256 + (flag p .c).toNat := by
  simp only [rolOut]
  generalize flag p .c = c
  cases c <;> revert b <;> decide +kernel

theorem toNat_rorOut (b p : Byte) : (rorOut b p).result.toNat = b.toNat / 2 + 128 * (flag p .c).toNat := by
  simp only [rorOut]
  generalize flag p .c = c
  cases c <;> revert b <;> decide +kernel

theorem toNat_bit7 (b : Byte) : (b.getLsbD 7).toNat = b.toNat / 128 := by
  revert b; decide +kernel

theorem toNat_bit0 (b : Byte) : (b.getLsbD 0).toNat = b.toNat % 2 := by
  revert b; decide +kernel

@[simp] theorem flag_aslOut (b p : Byte) (g : Flag) :
    flag (aslOut b p).status g =
      if g = .n then (aslOut b p).result.getLsbD 7 else if g = .z then (aslOut b p).result == 0
      else if g = .c then b.getLsbD 7 else flag p g := by
  simp only [aslOut, flag_setZN, flag_setFlag]

@[simp] theorem flag_lsrOut (b p : Byte) (g : Flag) :
    flag (lsrOut b p).status g =
      if g = .n then (lsrOut b p).result.getLsbD 7 else if g = .z then (lsrOut b p).result == 0
      else if g = .c then b.getLsbD 0 else flag p g := by
  simp only [lsrOut, flag_setZN, flag_setFlag]

@[simp] theorem flag_rolOut (b p : Byte) (g : Flag) :
    flag (rolOut b p).status g =
      if g = .n then (rolOut b p).result.getLsbD 7 else if g = .z then (rolOut b p).result == 0
      else if g = .c then b.getLsbD 7 else flag p g := by
  simp only [rolOut, flag_setZN, flag_setFlag]

@[simp] theorem flag_rorOut (b p : Byte) (g : Flag) :
    flag (rorOut b p).status g =
      if g = .n then (rorOut b p).result.getLsbD 7 else if g = .z then (rorOut b p).result == 0
      else if g = .c then b.getLsbD 0 else flag p g := by
  simp only [rorOut, flag_setZN, flag_setFlag]

@[simp] theorem flag_incOut (b p : Byte) (g : Flag) :
    flag (incOut b p).status g =
      if g = .n then (b + 1).getLsbD 7 else if g = .z then b + 1 == 0 else flag p g := by
  simp only [incOut, flag_setZN]

@[simp] theorem flag_decOut (b p : Byte) (g : Flag) :
    flag (decOut b p).status g =
      if g = .n then (b - 1).getLsbD 7 else if g = .z then b - 1 == 0 else flag p g := by
  simp only [decOut, flag_setZN]

end Sys2Proof.Machine
end

