-- ==== Sys2Proof/Laws/Ops.lean ====
section
/-! SUPPORT. What the shared operations do: words, the stack, vectors, entering and leaving an interrupt, operand resolution, and
the shared shapes of an instruction. -/

namespace Sys2Proof.Machine

/-! Words (R101). -/

@[simp] theorem toNat_wordOf (hi lo : Byte) : (wordOf hi lo).toNat = hi.toNat * 256 + lo.toNat := by
  have := lo.isLt
  rw [wordOf, BitVec.toNat_append, ← Nat.shiftLeft_add_eq_or_of_lt this, Nat.shiftLeft_eq]

@[simp] theorem toNat_hiByte (w : Word) : (hiByte w).toNat = w.toNat / 256 := by
  have := w.isLt
  simp only [hiByte, BitVec.extractLsb'_toNat, Nat.shiftRight_eq_div_pow]
  omega

@[simp] theorem toNat_loByte (w : Word) : (loByte w).toNat = w.toNat % 256 := by
  simp [loByte]

@[simp] theorem wordOf_hi_lo (w : Word) : wordOf (hiByte w) (loByte w) = w := by
  rw [BitVec.toNat_eq, toNat_wordOf, toNat_hiByte, toNat_loByte]
  omega

@[simp] theorem loByte_wordOf (hi lo : Byte) : loByte (wordOf hi lo) = lo := by
  have := lo.isLt
  rw [BitVec.toNat_eq, toNat_loByte, toNat_wordOf]
  omega

@[simp] theorem hiByte_wordOf (hi lo : Byte) : hiByte (wordOf hi lo) = hi := by
  have := lo.isLt
  rw [BitVec.toNat_eq, toNat_hiByte, toNat_wordOf]
  omega

/-! The stack (R22). -/

@[simp] theorem toNat_stackAddr (sp : Byte) : (stackAddr sp).toNat = 0x100 + sp.toNat := by
  have h := sp.isLt
  have : stackAddr sp = wordOf 0x01 sp := by revert sp; decide +kernel
  rw [this, toNat_wordOf]
  rfl

theorem stackAddr_lt (sp : Byte) : (stackAddr sp).toNat < 0x800 := by
  have := sp.isLt
  rw [toNat_stackAddr]
  omega

/-- The offset of a stack byte in RAM. -/
theorem stackAddr_mod (sp : Byte) : (stackAddr sp).toNat % 0x800 = 0x100 + sp.toNat := by
  rw [Nat.mod_eq_of_lt (stackAddr_lt sp), toNat_stackAddr]

@[simp] theorem quiet_stackAddr (sp : Byte) : quiet (stackAddr sp) = true :=
  quiet_of_lt (Nat.lt_trans (stackAddr_lt sp) (by decide))

@[simp] theorem busPeek_stackAddr (s : State) (sp : Byte) : busPeek s (stackAddr sp) = s.bus.ram.read (0x100 + sp.toNat) := by
  rw [busPeek_ram s (Nat.lt_trans (stackAddr_lt sp) (by decide)), stackAddr_mod]

/-- A push writes one byte of RAM and lowers `S` (R14, R251). -/
theorem push_eq (v : Byte) (s : State) :
    push v s = { s with
      cpu := { s.cpu with s := s.cpu.s - 1 }
      bus := { s.bus with ram := s.bus.ram.write (0x100 + s.cpu.s.toNat) v } } := by
  rw [push, busWrite_ram s v (Nat.lt_trans (stackAddr_lt _) (by decide)), stackAddr_mod]
  rfl

/-- A pull raises `S`, reads the byte of RAM there and changes nothing else (R14, R252). -/
theorem pull_eq (s : State) :
    pull s = ⟨s.bus.ram.read (0x100 + (s.cpu.s + 1).toNat), s.setS (s.cpu.s + 1)⟩ := by
  have h : (stackAddr (s.cpu.s + 1)).toNat < 0x2000 := Nat.lt_trans (stackAddr_lt _) (by decide)
  unfold pull busRead
  rw [busValue_ram _ h, stackAddr_mod, busAfterRead_quiet (quiet_stackAddr _)]
  rfl

/-- Pushing a word puts its high byte at `S` and its low byte below. -/
theorem pushWord_eq (w : Word) (s : State) :
    pushWord w s = { s with
      cpu := { s.cpu with s := s.cpu.s - 2 }
      bus := { s.bus with
        ram := (s.bus.ram.write (0x100 + s.cpu.s.toNat) (hiByte w)).write (0x100 + (s.cpu.s - 1).toNat) (loByte w) } } := by
  have : s.cpu.s - 1 - 1 = s.cpu.s - 2 := by bv_omega
  simp only [pushWord, push_eq, this]

/-- Pulling a word reads the two bytes above `S`, the low one first. -/
theorem pullWord_eq (s : State) :
    pullWord s =
      ⟨wordOf (s.bus.ram.read (0x100 + (s.cpu.s + 2).toNat)) (s.bus.ram.read (0x100 + (s.cpu.s + 1).toNat)),
        s.setS (s.cpu.s + 2)⟩ := by
  have : s.cpu.s + 1 + 1 = s.cpu.s + 2 := by bv_omega
  simp only [pullWord, pull_eq, State.setS_s, State.setS_bus, this]
  rfl

/-- Two addresses of the stack with different offsets have different targets. -/
theorem busTarget_stackAddr (sp : Byte) : busTarget (stackAddr sp) = .ram (0x100 + sp.toNat) := by
  rw [busTarget_low (stackAddr_lt sp), toNat_stackAddr]

/-! Vectors and interrupts. -/

/-- An address in the PRG-ROM range reads what it peeks, with no side effect. -/
theorem busRead_rom (s : State) {a : Word} (h : 0x8000 ≤ a.toNat) : busRead s a = ⟨busPeek s a, s⟩ := by
  have hq : quiet a = true := quiet_of_ge (by omega)
  have ht : ∀ o, busTarget a = .apu o → o = 0x15 := by
    intro o ho
    unfold busTarget at ho
    dsimp only at ho
    split_ifs at ho <;> omega
  unfold busRead
  rw [busValue_eq_peek hq ht, busAfterRead_quiet hq]

/-- A peek of PRG-ROM does not depend on RAM or registers. -/
theorem busPeek_rom_congr {s t : State} (hm : t.map = s.map) (hc : t.cart = s.cart) (hp : t.params = s.params) {a : Word}
    (h : 0x8000 ≤ a.toNat) : busPeek t a = busPeek s a := by
  have ht : busTarget a = .prgRom := by
    unfold busTarget
    rw [if_neg (by omega), if_neg (by omega), if_neg (by omega), if_neg (by omega), if_neg (by omega), if_neg (by omega),
      if_neg (by omega)]
  simp [busPeek, ht, prgRead, hm, hc, hp]

/-- Taking an exception: all it does (R422, R423, R426), for a vector in PRG-ROM whose second byte follows it. -/
theorem enterInterrupt_eq (ret : Word) (pushed : Byte) (vector : Word) (s : State) (h : 0x8000 ≤ vector.toNat)
    (h' : 0x8000 ≤ (vector + 1).toNat) :
    enterInterrupt ret pushed vector s = { s with
      cpu := { s.cpu with
        s := s.cpu.s - 3
        p := setFlag .i true s.cpu.p
        pc := wordOf (busPeek s (vector + 1)) (busPeek s vector) }
      bus := { s.bus with
        ram := ((s.bus.ram.write (0x100 + s.cpu.s.toNat) (hiByte ret)).write (0x100 + (s.cpu.s - 1).toNat)
          (loByte ret)).write (0x100 + (s.cpu.s - 2).toNat) pushed } } := by
  have hs : s.cpu.s - 2 - 1 = s.cpu.s - 3 := by bv_omega
  simp only [enterInterrupt, pushWord_eq, push_eq, read16, readPair, busRead_rom _ h, busRead_rom _ h', hs]
  rw [busPeek_rom_congr (t := State.setP _ _) (s := s) ?_ ?_ ?_ h, busPeek_rom_congr (t := State.setP _ _) (s := s) ?_ ?_ ?_ h']
  all_goals rfl

/-- Returning from an exception: all it does (R264, R429). -/
theorem returnFromInterrupt_eq (s : State) :
    returnFromInterrupt s = { s with
      cpu := { s.cpu with
        s := s.cpu.s + 3
        p := pulledStatus (s.bus.ram.read (0x100 + (s.cpu.s + 1).toNat))
        pc := wordOf (s.bus.ram.read (0x100 + (s.cpu.s + 3).toNat)) (s.bus.ram.read (0x100 + (s.cpu.s + 2).toNat)) } } := by
  have h1 : s.cpu.s + 1 + 1 = s.cpu.s + 2 := by bv_omega
  have h2 : s.cpu.s + 1 + 2 = s.cpu.s + 3 := by bv_omega
  simp only [returnFromInterrupt, pull_eq, pullWord_eq, State.setP_s, State.setS_s, State.setP_bus, State.setS_bus, h1, h2]
  rfl

/-! Operand resolution. -/

/-- Two bus reads in a row: only their side effects. -/
theorem readPair_state (s : State) (a b : Word) : (readPair s a b).state = busAfterRead (busAfterRead s a) b := rfl

/-- What a run of bus reads leaves of a state. -/
structure ReadFrame (s t : State) : Prop where
  cpu : t.cpu = s.cpu
  bus : t.bus = s.bus
  map : t.map = s.map
  cart : t.cart = s.cart
  params : t.params = s.params
  cycles : t.cycles = s.cycles
  nmi : t.nmiPending = s.nmiPending
  oam : t.ppu.oam = s.ppu.oam
  nt : t.ppu.nt = s.ppu.nt
  pal : t.ppu.pal = s.ppu.pal

theorem ReadFrame.refl (s : State) : ReadFrame s s := ⟨rfl, rfl, rfl, rfl, rfl, rfl, rfl, rfl, rfl, rfl⟩

theorem ReadFrame.read {s t : State} (h : ReadFrame s t) (a : Word) : ReadFrame s (busAfterRead t a) :=
  ⟨by simp [h.cpu], by simp [h.bus], by simp [h.map], by simp [h.cart], by simp [h.params], by simp [h.cycles],
    by simp [h.nmi], by simp [h.oam], by simp [h.nt], by simp [h.pal]⟩

theorem ReadFrame.storage {s t : State} (h : ReadFrame s t) : StorageKept s t :=
  .of_fields h.bus h.map h.cart h.params h.nt h.pal h.oam

/-- Resolving an operand only reads (R138 to R145). -/
theorem resolve_frame (m : MemOperand) (s : State) : ReadFrame s (resolve m s).state := by
  cases m with
  | indirect w => exact ((ReadFrame.refl s).read _).read _
  | indexedIndirect b => exact ((ReadFrame.refl s).read _).read _
  | indirectIndexed b => exact ((ReadFrame.refl s).read _).read _
  | _ => exact ReadFrame.refl s

/-- Reading an operand's value only reads (R169). -/
theorem operandValue_frame (src : Source) (s : State) : ReadFrame s (operandValue src s).state := by
  cases src with
  | immediate b => exact ReadFrame.refl s
  | mem m => exact (resolve_frame m s).read _

/-- What a reading instruction leaves of storage when its own operation writes registers only. -/
theorem StorageKept.of_onlyCpu {s r t : State} (h : ReadFrame s r) (ht : OnlyCpuDiffers r t) : StorageKept s t := by
  rw [ht]
  exact .of_fields h.bus h.map h.cart h.params h.nt h.pal h.oam

/-! Stack offsets and return addresses, in the form `simp` leaves them in. -/

theorem stack_offsets_ne (x : Byte) :
    (x - 1#8).toNat ≠ x.toNat ∧ (x - 2#8).toNat ≠ x.toNat ∧ (x - 2#8).toNat ≠ (x - 1#8).toNat ∧
    x.toNat ≠ (x - 1#8).toNat ∧ x.toNat ≠ (x - 2#8).toNat ∧ (x - 1#8).toNat ≠ (x - 2#8).toNat := by
  revert x; decide +kernel

theorem stack_cancel (x : Byte) :
    x - 3#8 + 1#8 = x - 2#8 ∧ x - 3#8 + 2#8 = x - 1#8 ∧ x - 3#8 + 3#8 = x ∧ x - 2#8 + 1#8 = x - 1#8 ∧ x - 2#8 + 2#8 = x := by
  refine ⟨?_, ?_, ?_, ?_, ?_⟩ <;> bv_omega

/-! Addresses as numbers. -/

/-- The second pointer byte of the indirect mode is in the page of the first (R142). -/
theorem indirectHigh_eq (w : Word) : indirectHigh w = wordOf (hiByte w) (loByte (w + 1)) := by
  refine BitVec.eq_of_getLsbD_eq fun i hi => ?_
  simp only [indirectHigh, wordOf, BitVec.getLsbD_append, hiByte, loByte, BitVec.getLsbD_or, BitVec.getLsbD_and,
    BitVec.getLsbD_extractLsb']
  interval_cases i <;> simp

/-- Sign extension of a branch offset as a number (R12). -/
theorem toNat_sext16 (b : Byte) : (sext16 b).toNat = if b.toNat < 0x80 then b.toNat else 0xFF00 + b.toNat := by
  revert b; decide +kernel

/-- The target of a taken branch: `PC` plus the signed offset, modulo 0x10000 (R146). -/
theorem toNat_branchTarget (off : Byte) (s : State) :
    ((branchTarget off s).toNat : Int) = (s.cpu.pc.toNat + off.toInt) % 0x10000 := by
  have hl := off.isLt
  have hp := s.cpu.pc.isLt
  unfold branchTarget
  rw [toInt_byte, BitVec.toNat_add, toNat_sext16]
  split <;> split <;> omega

/-! The cycles of the shared shapes (R134). -/

theorem readInstr_cycles (i : Instr) (src : Source) {f : Byte → State → State} (hf : ∀ v u, (f v u).cycles = u.cycles)
    (s : State) : (readInstr i src f s).cycles = s.cycles + baseCycles s.params i + (operandValue src s).extra := by
  simp [readInstr, hf, (operandValue_frame src s).cycles, BitVec.add_assoc]

theorem storeInstr_cycles (i : Instr) (m : MemOperand) (v : Byte) (s : State) :
    (storeInstr i m v s).cycles = s.cycles + baseCycles s.params i +
      (if s.params.pageCrossOnAll = true then (resolve m s).extra else 0) +
      (if (resolve m s).ea = 0x4014 then s.params.oamDmaCycles else 0) := by
  simp [storeInstr, (resolve_frame m s).cycles, writeExtra, dmaExtra, busTarget_oamDma_iff, BitVec.add_assoc]

theorem modifyInstr_cycles (i : Instr) (m : MemOperand) (f : Byte → Byte → AluOut) (s : State) :
    (modifyInstr i m f s).cycles = s.cycles + baseCycles s.params i +
      (if s.params.pageCrossOnAll = true then (resolve m s).extra else 0) +
      (if (resolve m s).ea = 0x4014 then s.params.oamDmaCycles else 0) := by
  simp [modifyInstr, busRead, (resolve_frame m s).cycles, writeExtra, dmaExtra, busTarget_oamDma_iff, BitVec.add_assoc]

/-! Flags of a next state. -/

/-- `Z` and `N` come from a result where the two flags are those `SetZN` gives. -/
theorem ZNOf.of_flags {v : Byte} {t : State} (hn : flag t.cpu.p .n = v.getLsbD 7) (hz : flag t.cpu.p .z = (v == 0)) :
    ZNOf v t :=
  ⟨by rw [hz]; exact beq_zero_iff v, by rw [hn]; exact bit7_iff v⟩

/-- `SetZN` sets `Z` and `N` from its argument. -/
theorem ZNOf.of_setZN {v p : Byte} {t : State} (h : t.cpu.p = setZN v p) : ZNOf v t :=
  .of_flags (by simp [h]) (by simp [h])

/-- `SetZN` on a status keeps every other flag. -/
theorem FlagsKeptBut.of_setZN {v : Byte} {s t : State} (h : t.cpu.p = setZN v s.cpu.p) : FlagsKeptBut [.z, .n] s t := by
  intro f hf
  rw [h]
  cases f <;> simp_all

end Sys2Proof.Machine
end

