-- ==== Sys2Proof/Laws/Decode.lean ====
section
/-! SUPPORT. Each entry of the opcode table against the encoder: the listing by opcode (R148) and the listing by mnemonic (R149) say
the same. -/

namespace Sys2Proof

/-- An instruction of the table: well formed, with this opcode byte and these operand bytes, and of that length. -/
def EntryOk (op : Byte) (operands : List Byte) (i : Instr) : Prop :=
  WellFormed i = true ∧ opcodeOf i = some op ∧ i.operandBytes = operands ∧ i.length = operands.length + 1

/-- A table entry agrees with the encoder for every operand. -/
def Form.Ok (op : Byte) : Form → Prop
  | .none i => EntryOk op [] i
  | .byte f => ∀ b, EntryOk op [b] (f b)
  | .word f => ∀ w, EntryOk op [loByte w, hiByte w] (f w)

/-- A list of entries agrees with the encoder, the first standing for opcode `n`. -/
def RowOk (n : Nat) : List Form → Prop
  | [] => True
  | f :: fs => f.Ok (BitVec.ofNat 8 n) ∧ RowOk (n + 1) fs

theorem RowOk.append {n k : Nat} {l m : List Form} (h : RowOk n l) (hk : n + l.length = k) (h' : RowOk k m) :
    RowOk n (l ++ m) := by
  induction l generalizing n with
  | nil =>
    obtain rfl : n = k := by simpa using hk
    exact h'
  | cons f fs ih => exact ⟨h.1, ih h.2 (by simpa [Nat.add_assoc, Nat.add_comm 1] using hk)⟩

theorem RowOk.get {n k : Nat} {l : List Form} (h : RowOk n l) (d : Form) (hk : k < l.length) :
    (l.getD k d).Ok (BitVec.ofNat 8 (n + k)) := by
  induction l generalizing n k with
  | nil => simp at hk
  | cons f fs ih =>
    cases k with
    | zero => exact h.1
    | succ k =>
      have := ih h.2 (k := k) (by simpa using hk)
      rwa [show n + 1 + k = n + (k + 1) by omega] at this

theorem row0_ok : RowOk 0x00 opcodeRow0 := by
  refine ⟨?_, ?_, ?_, ?_, ?_, ?_, ?_, ?_, ?_, ?_, ?_, ?_, ?_, ?_, ?_, ?_, trivial⟩ <;>
    first | exact ⟨rfl, rfl, rfl, rfl⟩ | exact fun _ => ⟨rfl, rfl, rfl, rfl⟩

theorem row1_ok : RowOk 0x10 opcodeRow1 := by
  refine ⟨?_, ?_, ?_, ?_, ?_, ?_, ?_, ?_, ?_, ?_, ?_, ?_, ?_, ?_, ?_, ?_, trivial⟩ <;>
    first | exact ⟨rfl, rfl, rfl, rfl⟩ | exact fun _ => ⟨rfl, rfl, rfl, rfl⟩

theorem row2_ok : RowOk 0x20 opcodeRow2 := by
  refine ⟨?_, ?_, ?_, ?_, ?_, ?_, ?_, ?_, ?_, ?_, ?_, ?_, ?_, ?_, ?_, ?_, trivial⟩ <;>
    first | exact ⟨rfl, rfl, rfl, rfl⟩ | exact fun _ => ⟨rfl, rfl, rfl, rfl⟩

theorem row3_ok : RowOk 0x30 opcodeRow3 := by
  refine ⟨?_, ?_, ?_, ?_, ?_, ?_, ?_, ?_, ?_, ?_, ?_, ?_, ?_, ?_, ?_, ?_, trivial⟩ <;>
    first | exact ⟨rfl, rfl, rfl, rfl⟩ | exact fun _ => ⟨rfl, rfl, rfl, rfl⟩

theorem row4_ok : RowOk 0x40 opcodeRow4 := by
  refine ⟨?_, ?_, ?_, ?_, ?_, ?_, ?_, ?_, ?_, ?_, ?_, ?_, ?_, ?_, ?_, ?_, trivial⟩ <;>
    first | exact ⟨rfl, rfl, rfl, rfl⟩ | exact fun _ => ⟨rfl, rfl, rfl, rfl⟩

theorem row5_ok : RowOk 0x50 opcodeRow5 := by
  refine ⟨?_, ?_, ?_, ?_, ?_, ?_, ?_, ?_, ?_, ?_, ?_, ?_, ?_, ?_, ?_, ?_, trivial⟩ <;>
    first | exact ⟨rfl, rfl, rfl, rfl⟩ | exact fun _ => ⟨rfl, rfl, rfl, rfl⟩

theorem row6_ok : RowOk 0x60 opcodeRow6 := by
  refine ⟨?_, ?_, ?_, ?_, ?_, ?_, ?_, ?_, ?_, ?_, ?_, ?_, ?_, ?_, ?_, ?_, trivial⟩ <;>
    first | exact ⟨rfl, rfl, rfl, rfl⟩ | exact fun _ => ⟨rfl, rfl, rfl, rfl⟩

theorem row7_ok : RowOk 0x70 opcodeRow7 := by
  refine ⟨?_, ?_, ?_, ?_, ?_, ?_, ?_, ?_, ?_, ?_, ?_, ?_, ?_, ?_, ?_, ?_, trivial⟩ <;>
    first | exact ⟨rfl, rfl, rfl, rfl⟩ | exact fun _ => ⟨rfl, rfl, rfl, rfl⟩

theorem row8_ok : RowOk 0x80 opcodeRow8 := by
  refine ⟨?_, ?_, ?_, ?_, ?_, ?_, ?_, ?_, ?_, ?_, ?_, ?_, ?_, ?_, ?_, ?_, trivial⟩ <;>
    first | exact ⟨rfl, rfl, rfl, rfl⟩ | exact fun _ => ⟨rfl, rfl, rfl, rfl⟩

theorem row9_ok : RowOk 0x90 opcodeRow9 := by
  refine ⟨?_, ?_, ?_, ?_, ?_, ?_, ?_, ?_, ?_, ?_, ?_, ?_, ?_, ?_, ?_, ?_, trivial⟩ <;>
    first | exact ⟨rfl, rfl, rfl, rfl⟩ | exact fun _ => ⟨rfl, rfl, rfl, rfl⟩

theorem rowA_ok : RowOk 0xA0 opcodeRowA := by
  refine ⟨?_, ?_, ?_, ?_, ?_, ?_, ?_, ?_, ?_, ?_, ?_, ?_, ?_, ?_, ?_, ?_, trivial⟩ <;>
    first | exact ⟨rfl, rfl, rfl, rfl⟩ | exact fun _ => ⟨rfl, rfl, rfl, rfl⟩

theorem rowB_ok : RowOk 0xB0 opcodeRowB := by
  refine ⟨?_, ?_, ?_, ?_, ?_, ?_, ?_, ?_, ?_, ?_, ?_, ?_, ?_, ?_, ?_, ?_, trivial⟩ <;>
    first | exact ⟨rfl, rfl, rfl, rfl⟩ | exact fun _ => ⟨rfl, rfl, rfl, rfl⟩

theorem rowC_ok : RowOk 0xC0 opcodeRowC := by
  refine ⟨?_, ?_, ?_, ?_, ?_, ?_, ?_, ?_, ?_, ?_, ?_, ?_, ?_, ?_, ?_, ?_, trivial⟩ <;>
    first | exact ⟨rfl, rfl, rfl, rfl⟩ | exact fun _ => ⟨rfl, rfl, rfl, rfl⟩

theorem rowD_ok : RowOk 0xD0 opcodeRowD := by
  refine ⟨?_, ?_, ?_, ?_, ?_, ?_, ?_, ?_, ?_, ?_, ?_, ?_, ?_, ?_, ?_, ?_, trivial⟩ <;>
    first | exact ⟨rfl, rfl, rfl, rfl⟩ | exact fun _ => ⟨rfl, rfl, rfl, rfl⟩

theorem rowE_ok : RowOk 0xE0 opcodeRowE := by
  refine ⟨?_, ?_, ?_, ?_, ?_, ?_, ?_, ?_, ?_, ?_, ?_, ?_, ?_, ?_, ?_, ?_, trivial⟩ <;>
    first | exact ⟨rfl, rfl, rfl, rfl⟩ | exact fun _ => ⟨rfl, rfl, rfl, rfl⟩

theorem rowF_ok : RowOk 0xF0 opcodeRowF := by
  refine ⟨?_, ?_, ?_, ?_, ?_, ?_, ?_, ?_, ?_, ?_, ?_, ?_, ?_, ?_, ?_, ?_, trivial⟩ <;>
    first | exact ⟨rfl, rfl, rfl, rfl⟩ | exact fun _ => ⟨rfl, rfl, rfl, rfl⟩

/-- The whole table agrees with the encoder. -/
theorem opcodeTable_ok : RowOk 0 opcodeTable := by
  have h1 := row0_ok.append (by decide +kernel) row1_ok
  have h2 := h1.append (by decide +kernel) row2_ok
  have h3 := h2.append (by decide +kernel) row3_ok
  have h4 := h3.append (by decide +kernel) row4_ok
  have h5 := h4.append (by decide +kernel) row5_ok
  have h6 := h5.append (by decide +kernel) row6_ok
  have h7 := h6.append (by decide +kernel) row7_ok
  have h8 := h7.append (by decide +kernel) row8_ok
  have h9 := h8.append (by decide +kernel) row9_ok
  have hA := h9.append (by decide +kernel) rowA_ok
  have hB := hA.append (by decide +kernel) rowB_ok
  have hC := hB.append (by decide +kernel) rowC_ok
  have hD := hC.append (by decide +kernel) rowD_ok
  have hE := hD.append (by decide +kernel) rowE_ok
  have hF := hE.append (by decide +kernel) rowF_ok
  exact hF

theorem opcodeTable_length : opcodeTable.length = 256 := by decide +kernel

/-- The entry of every opcode byte agrees with the encoder. -/
theorem opcodeForm_ok (op : Byte) : (opcodeForm op).Ok op := by
  have h := opcodeTable_ok.get (k := op.toNat) (.un op) (by rw [opcodeTable_length]; exact op.isLt)
  rwa [Nat.zero_add, BitVec.ofNat_toNat, BitVec.setWidth_eq] at h

/-- An unmapped byte selects the fallback (R151). -/
theorem opcodeForm_unmapped {op : Byte} (h : op ∈ unmappedBytes) : opcodeForm op = .none (.unmapped op) := by
  fin_cases h <;> rfl

end Sys2Proof
end

