-- ==== Sys2Proof/Laws/Step.lean ====
section
/-! SUPPORT. What a step is made of: every instruction completes, fetching reads the bytes that decode, and nothing in a step changes
the cartridge or the parameters. -/

namespace Sys2Proof.Machine

/-- No instruction faults and none is refused (R420). -/
theorem exec_total (i : Instr) (s : State) : ∃ t, exec i s = .next t := by
  cases i <;> exact ⟨_, rfl⟩

theorem instr_length_pos (i : Instr) : 0 < i.length := by
  show 0 < i.mode.length
  cases i.mode <;> decide

/-- A step of a loaded machine is its CPU step and the PPU steps that follow (R471). -/
theorem step_loaded {s t : State} {c : Cartridge} (hc : s.cart = some c) (h : cpuStep s = .next t) :
    step s = .next (ppuSteps (3 * t.cycles.toNat) t) := by
  unfold step
  split
  next hn => rw [hn] at hc; cases hc
  next => rw [h]; rfl

theorem fetch8_quiet {s : State} (h : quiet s.cpu.pc = true) :
    fetch8 s = ⟨busValue s s.cpu.pc, s.setPc (s.cpu.pc + 1)⟩ := by
  simp [fetch8, busRead, h]

/-- Fetching an instruction fetches exactly the bytes that decode to it (R133). -/
theorem fetchInstr_of_decode {n : Nat} {s : State} {i : Instr} (h : decode (fetchBytes n s).value = .ok (i, [])) :
    fetchInstr s = ⟨i, (fetchBytes n s).state⟩ := by
  have key : (fetchInstr s).value = i ∧ (fetchInstr s).state = (fetchBytes n s).state := by
    rcases n with _ | _ | _ | _ | n <;> simp only [fetchBytes, decode] at h <;> unfold fetchInstr <;> dsimp only
    · cases h
    all_goals split at h <;> simp_all [fetchBytes, fetch16]
  rw [← key.1, ← key.2]

/-! The cartridge and the parameters stay as they are. -/

/-- The cartridge and the parameters of a state are those of another. -/
def SameMachine (s t : State) : Prop := t.cart = s.cart ∧ t.params = s.params

theorem SameMachine.refl (s : State) : SameMachine s s := ⟨rfl, rfl⟩

theorem SameMachine.trans {s t u : State} (h : SameMachine s t) (h' : SameMachine t u) : SameMachine s u :=
  ⟨h'.1.trans h.1, h'.2.trans h.2⟩

theorem SameMachine.read {s t : State} (h : SameMachine s t) (a : Word) : SameMachine s (busAfterRead t a) :=
  h.trans ⟨by simp, by simp⟩

theorem SameMachine.write {s t : State} (h : SameMachine s t) (a : Word) (v : Byte) : SameMachine s (busWrite t a v) :=
  h.trans ⟨by simp, by simp⟩

theorem SameMachine.of_readFrame {s t : State} (h : ReadFrame s t) : SameMachine s t := ⟨h.cart, h.params⟩

theorem fetch8_same (s : State) : SameMachine s (fetch8 s).state := (SameMachine.refl s).read _

theorem fetchInstr_same (s : State) : SameMachine s (fetchInstr s).state := by
  unfold fetchInstr
  dsimp only
  split
  · exact fetch8_same s
  · exact (fetch8_same s).trans (fetch8_same _)
  · exact (fetch8_same s).trans ((fetch8_same _).trans (fetch8_same _))

theorem nmiEntry_eq (s : State) :
    nmiEntry s = { s with
      nmiPending := false
      cpu := { s.cpu with
        s := s.cpu.s - 3
        p := setFlag .i true s.cpu.p
        pc := wordOf (busPeek s 0xFFFB) (busPeek s 0xFFFA) }
      bus := { s.bus with
        ram := ((s.bus.ram.write (0x100 + s.cpu.s.toNat) (hiByte s.cpu.pc)).write (0x100 + (s.cpu.s - 1).toNat)
          (loByte s.cpu.pc)).write (0x100 + (s.cpu.s - 2).toNat) (pushedByNmi s.cpu.p) } } := by
  rw [nmiEntry, enterInterrupt_eq _ _ _ _ (by decide) (by decide)]
  rfl

theorem serviceNmi_same (s : State) : SameMachine s (serviceNmi s) := by
  unfold serviceNmi
  split
  · rw [nmiEntry_eq]; exact ⟨rfl, rfl⟩
  · exact SameMachine.refl s

theorem readInstr_same (i : Instr) (src : Source) {f : Byte → State → State} (hf : ∀ v u, SameMachine u (f v u)) (s : State) :
    SameMachine s (readInstr i src f s) :=
  (SameMachine.of_readFrame (operandValue_frame src s)).trans (hf _ _)

theorem storeInstr_same (i : Instr) (m : MemOperand) (v : Byte) (s : State) : SameMachine s (storeInstr i m v s) :=
  (SameMachine.of_readFrame (resolve_frame m s)).write _ _

theorem modifyInstr_same (i : Instr) (m : MemOperand) (f : Byte → Byte → AluOut) (s : State) :
    SameMachine s (modifyInstr i m f s) :=
  ((SameMachine.of_readFrame (resolve_frame m s)).read _).write _ _

theorem shiftInstr_same (i : Instr) (d : Target) (f : Byte → Byte → AluOut) (s : State) :
    SameMachine s (shiftInstr i d f s) := by
  cases d with
  | accumulator => exact ⟨rfl, rfl⟩
  | mem m => exact modifyInstr_same i m f s

theorem branchInstr_same (i : Instr) (taken : Bool) (off : Byte) (s : State) :
    SameMachine s (branchInstr i taken off s) := by
  unfold branchInstr
  split <;> exact ⟨rfl, rfl⟩

theorem push_same (v : Byte) (s : State) : SameMachine s (push v s) := (SameMachine.refl s).write _ _

theorem pull_same (s : State) : SameMachine s (pull s).state := (SameMachine.refl (s.setS (s.cpu.s + 1))).read _

/-- No instruction changes the cartridge or the parameters. -/
theorem exec_same {i : Instr} {s t : State} (h : exec i s = .next t) : SameMachine s t := by
  cases i <;> injection h with h <;> subst h
  case sta m => exact storeInstr_same _ m _ s
  case stx m => exact storeInstr_same _ m _ s
  case sty m => exact storeInstr_same _ m _ s
  case inc m => exact modifyInstr_same _ m _ s
  case dec m => exact modifyInstr_same _ m _ s
  case asl d => exact shiftInstr_same _ d _ s
  case lsr d => exact shiftInstr_same _ d _ s
  case rol d => exact shiftInstr_same _ d _ s
  case ror d => exact shiftInstr_same _ d _ s
  case jmp m => exact ⟨(resolve_frame m s).cart, (resolve_frame m s).params⟩
  case jsr w => rw [pushWord_eq]; exact ⟨rfl, rfl⟩
  case rts => rw [pullWord_eq]; exact ⟨rfl, rfl⟩
  case pha => exact push_same _ s
  case pla => exact pull_same s
  case php => exact push_same _ s
  case plp => exact pull_same s
  case brk => rw [enterInterrupt_eq _ _ _ _ (by decide) (by decide)]; exact ⟨rfl, rfl⟩
  case rti => rw [returnFromInterrupt_eq]; exact ⟨rfl, rfl⟩
  all_goals first
    | (refine readInstr_same _ _ ?_ s; exact fun _ _ => ⟨rfl, rfl⟩)
    | exact branchInstr_same _ _ _ s
    | exact ⟨rfl, rfl⟩

/-- A CPU step completes and changes neither the cartridge nor the parameters. -/
theorem cpuStep_total (s : State) : ∃ t, cpuStep s = .next t ∧ SameMachine s t := by
  obtain ⟨t, ht⟩ := exec_total (fetchInstr (serviceNmi { s with cycles := 0 })).value
    (fetchInstr (serviceNmi { s with cycles := 0 })).state
  exact ⟨t, ht, ((serviceNmi_same { s with cycles := 0 }).trans (fetchInstr_same _)).trans (exec_same ht)⟩

/-- PPU steps change the PPU and the request only (R310). -/
theorem ppuSteps_frame (n : Nat) (s : State) :
    ppuSteps n s = { s with ppu := (ppuSteps n s).ppu, nmiPending := (ppuSteps n s).nmiPending } := by
  induction n generalizing s with
  | zero => rfl
  | succ n ih => rw [ppuSteps, ih]; rfl

/-- All a step can do: the CPU step, then its PPU steps; and it always completes in a loaded machine. -/
theorem step_cases {s t : State} (h : step s = .next t) :
    ∃ u, cpuStep s = .next u ∧ SameMachine s u ∧ t = ppuSteps (3 * u.cycles.toNat) u := by
  obtain ⟨u, hu, hs⟩ := cpuStep_total s
  unfold step at h
  split at h
  · cases h
  · rw [hu] at h
    injection h with h
    exact ⟨u, hu, hs, h.symm⟩

end Sys2Proof.Machine
end

