-- ==== Sys2Proof/Laws/Ppu.lean ====
section
/-! SUPPORT. What each piece of the PPU's work can do to the PPU's state, and that it keeps the PPU's invariant. -/

namespace Sys2Proof.Machine

/-! What a piece of work leaves alone. -/

/-- Everything but the status register, `v`, the secondary OAM and its counters, the grids and the completion flag is as before:
what no dot's work writes (R310). -/
def Ppu.WorkFrame (p q : Ppu) : Prop :=
  q = { p with
    v := q.v
    regs := { p.regs with status := q.regs.status }
    secOam := q.secOam, secCount := q.secCount, spr0Sel := q.spr0Sel
    grid := q.grid, prio := q.prio, frameComplete := q.frameComplete }

theorem Ppu.WorkFrame.refl (p : Ppu) : p.WorkFrame p := rfl

theorem Ppu.WorkFrame.trans {p q r : Ppu} (h : p.WorkFrame q) (h' : q.WorkFrame r) : p.WorkFrame r := by
  unfold Ppu.WorkFrame at *
  rw [h'] ; rw [h]

theorem Ppu.WorkFrame.setV (p : Ppu) (v : Scroll) : p.WorkFrame { p with v := v } := rfl

theorem Ppu.WorkFrame.setSec (p : Ppu) (m : Memory) (n : Nat) (b : Bool) :
    p.WorkFrame { p with secOam := m, secCount := n, spr0Sel := b } := rfl

theorem foldl_frame {α β : Type} (R : β → β → Prop) (hrefl : ∀ b, R b b) (htrans : ∀ {a b c}, R a b → R b c → R a c)
    (f : β → α → β) (hf : ∀ b x, R b (f b x)) (l : List α) (b : β) : R b (l.foldl f b) := by
  induction l generalizing b with
  | nil => exact hrefl b
  | cons x l ih => exact htrans (hf b x) (ih (f b x))

/-- A property that every step of a fold keeps holds after the fold. -/
theorem foldl_inv {α β : Type} (P : β → Prop) (f : β → α → β) (l : List α) (hf : ∀ b, ∀ x ∈ l, P b → P (f b x)) {b : β}
    (hb : P b) : P (l.foldl f b) := by
  induction l generalizing b with
  | nil => exact hb
  | cons x l ih =>
    exact ih (fun b y hy => hf b y (by simp [hy])) (hf b x (by simp) hb)

/-- Composing a pixel writes one cell of the grid and bit 6 of the status register (R343). -/
theorem compose_eq (row x palsel px : Nat) (p : Ppu) :
    compose row x palsel px p = { p with
      grid :=
        if (gridRead PrioCell.clear p.prio row x).spr = true ∧
            ¬((gridRead PrioCell.clear p.prio row x).behind = true ∧ px ≠ 0) then p.grid
        else gridWrite 0 p.grid row x (bgColour p palsel px)
      regs := { p.regs with
        status :=
          if (gridRead PrioCell.clear p.prio row x).spr = true ∧ (gridRead PrioCell.clear p.prio row x).zero = true ∧ px ≠ 0
          then p.regs.status ||| 0x40 else p.regs.status } } := by
  unfold compose
  dsimp only
  split_ifs <;> simp_all

theorem compose_frame (row x palsel px : Nat) (p : Ppu) : p.WorkFrame (compose row x palsel px p) := by
  rw [compose_eq]; rfl

theorem bgTile_frame (row k : Nat) (s : State) : s.ppu.WorkFrame (bgTile row k s) := by
  have h : ∀ r, s.ppu.WorkFrame ((List.range 8).foldl (bgPixelStep row k r) s.ppu) := fun r =>
    foldl_frame _ Ppu.WorkFrame.refl Ppu.WorkFrame.trans _
      (fun p i => by unfold bgPixelStep; split; exact .refl p; exact compose_frame ..) _ _
  unfold bgTile
  dsimp only
  generalize (if s.ppu.regs.mask.getLsbD 3 = true then bgFetch s else ⟨0, 0x00, 0x00⟩) = r
  replace h := h r
  generalize (List.range 8).foldl (bgPixelStep row k r) s.ppu = q at h ⊢
  split
  · exact h.trans (.setV q _)
  · exact h

theorem spriteScan_frame (line : Nat) (l : List Nat) (p : Ppu) : p.WorkFrame (spriteScan line l p) := by
  induction l generalizing p with
  | nil => exact .refl p
  | cons n ns ih =>
    unfold spriteScan
    split_ifs
    · exact (Ppu.WorkFrame.setSec p _ _ _).trans (ih _)
    · rfl
    · exact ih p

theorem spriteEval_frame (line : Nat) (p : Ppu) : p.WorkFrame (spriteEval line p) := by
  unfold spriteEval
  split
  · exact (Ppu.WorkFrame.setSec p _ _ _).trans (spriteScan_frame ..)
  · exact .refl p

theorem spritePixel_frame (row : Nat) (sp : SpriteRow) (p : Ppu) (i : Nat) : p.WorkFrame (spritePixel row sp p i) := by
  unfold spritePixel
  dsimp only
  split_ifs <;> rfl

theorem spriteDraw_frame (line : Nat) (s : State) : s.ppu.WorkFrame (spriteDraw line s) := by
  unfold spriteDraw
  split
  · exact .refl _
  · dsimp only
    split
    · refine Ppu.WorkFrame.trans (q := { s.ppu with prio := gridClearRow s.ppu.prio (line + 1) }) rfl ?_
      refine foldl_frame _ Ppu.WorkFrame.refl Ppu.WorkFrame.trans _ (fun p n => ?_) _ _
      unfold spriteDrawSlot
      dsimp only
      split
      · exact foldl_frame _ Ppu.WorkFrame.refl Ppu.WorkFrame.trans _ (spritePixel_frame _ _) _ _
      · exact .refl p
    · rfl

theorem visibleDot_frame (s : State) : s.ppu.WorkFrame (visibleDot s) := by
  unfold visibleDot
  dsimp only
  split_ifs
  · exact (bgTile_frame ..).trans (spriteEval_frame ..)
  · exact bgTile_frame ..
  · exact spriteDraw_frame ..
  all_goals rfl

theorem preRenderDot_frame (p : Ppu) : p.WorkFrame (preRenderDot p) := by
  unfold preRenderDot
  split_ifs <;> rfl

theorem dotWork_frame (s : State) : s.ppu.WorkFrame (dotWork s) := by
  unfold dotWork
  dsimp only
  split_ifs
  · exact visibleDot_frame s
  · rfl
  · rfl
  · rfl
  · rfl
  · rfl
  · exact preRenderDot_frame _

/-- The position after an advance (R315). -/
theorem advance_eq (p : Ppu) : advance p = { p with
    dot := if p.dot + 1 = 341 then 0 else p.dot + 1
    scanline := if p.dot + 1 = 341 then (if p.scanline + 1 = 262 then 0 else p.scanline + 1) else p.scanline } := by
  unfold advance
  split_ifs <;> rfl

/-- All a PPU step can do (R310): the dot's work and the advance, and raising the request at vblank entry. -/
theorem ppuStep_frame (s : State) :
    ppuStep s = { s with ppu := (ppuStep s).ppu, nmiPending := s.nmiPending || raisesNmi s.ppu } ∧
    (ppuStep s).ppu = { s.ppu with
      dot := if s.ppu.dot + 1 = 341 then 0 else s.ppu.dot + 1
      scanline :=
        if s.ppu.dot + 1 = 341 then (if s.ppu.scanline + 1 = 262 then 0 else s.ppu.scanline + 1) else s.ppu.scanline
      v := (dotWork s).v
      regs := { s.ppu.regs with status := (dotWork s).regs.status }
      secOam := (dotWork s).secOam, secCount := (dotWork s).secCount, spr0Sel := (dotWork s).spr0Sel
      grid := (dotWork s).grid, prio := (dotWork s).prio, frameComplete := (dotWork s).frameComplete } := by
  refine ⟨rfl, ?_⟩
  show advance (dotWork s) = _
  rw [advance_eq]
  have h := dotWork_frame s
  unfold Ppu.WorkFrame at h
  generalize dotWork s = q at h ⊢
  rw [h]

/-- The index of the position counts the steps modulo a frame (R315, R462). -/
theorem index_ppuStep {s : State} (hd : s.ppu.dot ≤ 340) (hs : s.ppu.scanline ≤ 261) :
    (ppuStep s).ppu.dot ≤ 340 ∧ (ppuStep s).ppu.scanline ≤ 261 ∧
    (ppuStep s).ppu.index = (s.ppu.index + 1) % frameSteps := by
  rw [(ppuStep_frame s).2]
  simp only [Ppu.index, frameSteps]
  split_ifs <;> omega

end Sys2Proof.Machine
end

