-- ==== Sys2Proof/Laws/Inv.lean ====
section
/-! SUPPORT. Each operation keeps the machine's invariant (R54): reads and writes of the buses, the stack and the interrupt entry,
the shared shapes of an instruction, and each piece of the PPU's work. -/

namespace Sys2Proof.Machine

/-! The status registers. -/

theorem cpuInv_iff (c : Cpu) : c.Inv ↔ flag c.p .b = false ∧ flag c.p .u = true := status_inv_iff c.p

theorem statusLow_and (x y : Byte) (h : x &&& 0x1F = 0) : (x &&& y) &&& 0x1F = 0 := by
  rw [BitVec.and_assoc, BitVec.and_comm y, ← BitVec.and_assoc, h]
  exact BitVec.zero_and

theorem statusLow_or40 (x : Byte) (h : x &&& 0x1F = 0) : (x ||| 0x40) &&& 0x1F = 0 := by
  revert h; revert x; decide +kernel

theorem statusLow_or20 (x : Byte) (h : x &&& 0x1F = 0) : (x ||| 0x20) &&& 0x1F = 0 := by
  revert h; revert x; decide +kernel

theorem statusLow_or80 (x : Byte) (h : x &&& 0x1F = 0) : (x ||| 0x80) &&& 0x1F = 0 := by
  revert h; revert x; decide +kernel

theorem statusLow_clear (x : Byte) (h : x &&& 0x1F = 0) : (x &&& 0x1F) &&& 0x1F = 0 := statusLow_and _ _ h

/-! Bus reads. -/

theorem busAfterRead_inv {s : State} (h : s.Inv) (a : Word) : (busAfterRead s a).Inv := by
  obtain ⟨hc, hb, ⟨hp1, hp2, hp3⟩, hm, hk⟩ := h
  rcases busAfterRead_cases s a with e | e | e | e
  · rw [e]; exact ⟨hc, hb, ⟨hp1, hp2, hp3⟩, hm, hk⟩
  · rw [e]; exact ⟨hc, hb, ⟨hp1, statusLow_and _ _ hp2, hp3⟩, hm, hk⟩
  · rw [e]; exact ⟨hc, hb, ⟨hp1, hp2, hp3⟩, hm, hk⟩
  · rw [e, controllerAfterRead_frame]; exact ⟨hc, hb, ⟨hp1, hp2, hp3⟩, hm, hk⟩

/-! Bus writes. -/

theorem palIndex_inv (a : Nat) : palIndex a < 32 ∧ (palIndex a % 4 = 0 → palIndex a = 0) := by
  unfold palIndex
  dsimp only
  split_ifs <;> omega

theorem ntIndex_lt (m : Mirroring) (a : Nat) : ntIndex m a < 0x800 := by
  have : physicalTable m (a % 0x1000 / 0x400) ≤ 1 := by
    cases m <;> simp only [physicalTable]
    · split_ifs <;> omega
    all_goals omega
  simp only [ntIndex]
  omega

theorem chrRamIndex_lt (c : Cartridge) (m : Mapper) (a : Nat) : chrRamIndex c m a < 0x2000 := by
  simp only [chrRamIndex]
  omega

theorem ppuWrite_inv {s : State} (h : s.Inv) (a : Word) (v : Byte) : (ppuWrite s a v).Inv := by
  obtain ⟨hc, hb, ⟨hp1, hp2, hp3, hp4, hp5, hp6, hp7, hp8⟩, ⟨hm1, hm2, hm3⟩, hk⟩ := h
  unfold ppuWrite
  dsimp only
  split_ifs
  · unfold chrWrite
    split
    · split_ifs
      · exact ⟨hc, hb, ⟨hp1, hp2, hp3, hp4, hp5, hp6, hp7, hp8⟩,
          ⟨hm1, hm2, Memory.wf_write hm3.1 _ _, Memory.below_write hm3.2 (chrRamIndex_lt ..) _⟩, hk⟩
      · exact ⟨hc, hb, ⟨hp1, hp2, hp3, hp4, hp5, hp6, hp7, hp8⟩, ⟨hm1, hm2, hm3⟩, hk⟩
    · exact ⟨hc, hb, ⟨hp1, hp2, hp3, hp4, hp5, hp6, hp7, hp8⟩, ⟨hm1, hm2, hm3⟩, hk⟩
  · exact ⟨hc, hb, ⟨hp1, hp2, hp3, hp4, hp5, ⟨Memory.wf_write hp6.1 _ _, Memory.below_write hp6.2 (ntIndex_lt ..) _⟩,
      hp7, hp8⟩, ⟨hm1, hm2, hm3⟩, hk⟩
  · refine ⟨hc, hb, ⟨hp1, hp2, hp3, hp4, hp5, hp6, ⟨Memory.wf_write hp7.1 _ _, fun e he => ?_⟩, hp8⟩, ⟨hm1, hm2, hm3⟩, hk⟩
    rcases Memory.mem_write he with rfl | he
    · exact palIndex_inv _
    · exact hp7.2 e he

theorem ppuRegWrite_inv {s : State} (h : s.Inv) (port : PpuPort) (v : Byte) : (ppuRegWrite s port v).Inv := by
  cases port with
  | data =>
    have h1 : State.Inv { s with ppu := { s.ppu with regs := { s.ppu.regs with data := v } } } := h
    have h2 := ppuWrite_inv h1 (dataPortAddr s.ppu) v
    exact h2
  | oamData =>
    obtain ⟨hc, hb, ⟨hp1, hp2, hp3, hp4, hp5⟩, hm, hk⟩ := h
    exact ⟨hc, hb, ⟨hp1, hp2, hp3, ⟨Memory.wf_write hp4.1 _ _,
      Memory.below_write hp4.2 (BitVec.isLt (s.ppu.regs.oamAddr)) _⟩, hp5⟩, hm, hk⟩
  | scroll =>
    simp only [ppuRegWrite, scrollWrite]
    split
    · exact h
    · exact h
  | address =>
    simp only [ppuRegWrite, addressWrite]
    split
    · exact h
    · exact h
  | control => exact h
  | mask => exact h
  | status => exact h
  | oamAddr => exact h

theorem oamDma_inv {s : State} (h : s.Inv) (page : Byte) : (oamDma page s).Inv := by
  unfold oamDma
  generalize List.range 256 = l
  refine foldl_inv State.Inv _ _ (fun s i _ h => ?_) h
  obtain ⟨hc, hb, ⟨hp1, hp2, hp3, hp4, hp5⟩, hm, hk⟩ := busAfterRead_inv h (wordOf page (BitVec.ofNat 8 i))
  exact ⟨hc, hb, ⟨hp1, hp2, hp3, ⟨Memory.wf_write hp4.1 _ _, Memory.below_write hp4.2 (Nat.mod_lt _ (by decide)) _⟩, hp5⟩,
    hm, hk⟩

theorem serialWrite_inv {m : Mapper} (h : m.Inv) (a : Word) (v : Byte) : (serialWrite a v m).Inv := by
  obtain ⟨h1, h2, h3⟩ := h
  unfold serialWrite
  dsimp only
  split_ifs
  · exact ⟨Nat.zero_le _, h2, h3⟩
  · unfold serialCommit
    dsimp only
    split <;> exact ⟨Nat.zero_le _, h2, h3⟩
  · exact ⟨by show m.count + 1 ≤ 4; omega, h2, h3⟩

/-- Every bus write keeps the invariant. -/
theorem busWrite_inv {s : State} (h : s.Inv) (a : Word) (v : Byte) : (busWrite s a v).Inv := by
  have ha := a.isLt
  have ht : ∀ o, (busTarget a = .ram o → o < 0x800) ∧ (busTarget a = .apu o → o < 0x18 ∧ o ≠ 0x14 ∧ o ≠ 0x16) ∧
      (busTarget a = .exp o → o < 0x1FE8) ∧ (busTarget a = .prgRam o → o < 0x2000) := by
    intro o
    unfold busTarget
    dsimp only
    split_ifs <;> refine ⟨?_, ?_, ?_, ?_⟩ <;> intro e <;>
      simp only [BusTarget.ram.injEq, BusTarget.apu.injEq, BusTarget.exp.injEq, BusTarget.prgRam.injEq, reduceCtorEq] at e <;>
      omega
  unfold busWrite
  split
  next o e =>
    obtain ⟨hc, ⟨hb1, hb2⟩, hp, hm, hk⟩ := h
    exact ⟨hc, ⟨⟨Memory.wf_write hb1.1 _ _, Memory.below_write hb1.2 ((ht o).1 e) _⟩, hb2⟩, hp, hm, hk⟩
  next => exact ppuRegWrite_inv h _ v
  next => exact oamDma_inv h v
  next => rw [controllerWrite_frame]; exact h
  next o e =>
    obtain ⟨hc, ⟨hb1, hb2, hb3⟩, hp, hm, hk⟩ := h
    refine ⟨hc, ⟨hb1, hb2, Memory.wf_write hb3.1 _ _, fun x hx => ?_⟩, hp, hm, hk⟩
    rcases Memory.mem_write hx with rfl | hx
    · exact (ht o).2.1 e
    · exact hb3.2 x hx
  next o e =>
    obtain ⟨hc, ⟨hb1, hb2, hb3⟩, hp, hm, hk⟩ := h
    exact ⟨hc, ⟨hb1, ⟨Memory.wf_write hb2.1 _ _, Memory.below_write hb2.2 ((ht o).2.2.1 e) _⟩, hb3⟩, hp, hm, hk⟩
  next o e =>
    obtain ⟨hc, hb, hp, ⟨hm1, hm2, hm3⟩, hk⟩ := h
    exact ⟨hc, hb, hp, ⟨hm1, ⟨Memory.wf_write hm2.1 _ _, Memory.below_write hm2.2 ((ht o).2.2.2 e) _⟩, hm3⟩, hk⟩
  next =>
    obtain ⟨hc, hb, hp, hm, hk⟩ := h
    unfold mapperWrite
    split
    · split
      · exact ⟨hc, hb, hp, serialWrite_inv hm a v, hk⟩
      · exact ⟨hc, hb, hp, hm, hk⟩
    · exact ⟨hc, hb, hp, hm, hk⟩

/-! Registers, the stack, interrupts. -/

/-- Registers other than the status do not matter. -/
theorem inv_of_p {s t : State} (h : s.Inv) (hp : t.cpu.p = s.cpu.p) (ht : t = { s with cpu := t.cpu, cycles := t.cycles }) :
    t.Inv := by
  rw [ht]
  exact ⟨by show t.cpu.p &&& 0x30 = 0x20; rw [hp]; exact h.1, h.2⟩

/-- A status with the break and unused bits of the old one will do. -/
theorem setP_inv {s : State} (h : s.Inv) {p : Byte} (hb : flag p .b = flag s.cpu.p .b) (hu : flag p .u = flag s.cpu.p .u) :
    (s.setP p).Inv := by
  refine ⟨(cpuInv_iff _).2 ?_, h.2⟩
  have := (cpuInv_iff _).1 h.1
  exact ⟨hb.trans this.1, hu.trans this.2⟩

theorem setPulled_inv {s : State} (h : s.Inv) (v : Byte) : (s.setP (pulledStatus v)).Inv :=
  ⟨(cpuInv_iff _).2 ⟨by simp, by simp⟩, h.2⟩

theorem push_inv {s : State} (h : s.Inv) (v : Byte) : (push v s).Inv :=
  inv_of_p (busWrite_inv h _ _) (by simp [push]) rfl

theorem pull_inv {s : State} (h : s.Inv) : (pull s).state.Inv :=
  busAfterRead_inv (s := s.setS (s.cpu.s + 1)) h _

theorem pushWord_inv {s : State} (h : s.Inv) (w : Word) : (pushWord w s).Inv := push_inv (push_inv h _) _

theorem pullWord_inv {s : State} (h : s.Inv) : (pullWord s).state.Inv := pull_inv (pull_inv h)

theorem enterInterrupt_inv {s : State} (h : s.Inv) (ret : Word) (pushed : Byte) (vector : Word) :
    (enterInterrupt ret pushed vector s).Inv := by
  have h1 := setP_inv (push_inv (pushWord_inv h ret) pushed)
    (p := setFlag .i true (push pushed (pushWord ret s)).cpu.p) (by simp) (by simp)
  exact inv_of_p (busAfterRead_inv (busAfterRead_inv h1 vector) (vector + 1)) rfl rfl

theorem returnFromInterrupt_inv {s : State} (h : s.Inv) : (returnFromInterrupt s).Inv :=
  inv_of_p (pullWord_inv (setPulled_inv (pull_inv h) (pull s).value)) rfl rfl

/-! Fetching. -/

theorem fetch8_inv {s : State} (h : s.Inv) : (fetch8 s).state.Inv := busAfterRead_inv h _

theorem fetchInstr_inv {s : State} (h : s.Inv) : (fetchInstr s).state.Inv := by
  unfold fetchInstr
  dsimp only
  split
  · exact fetch8_inv h
  · exact fetch8_inv (fetch8_inv h)
  · exact fetch8_inv (fetch8_inv (fetch8_inv h))

theorem serviceNmi_inv {s : State} (h : s.Inv) : (serviceNmi s).Inv := by
  unfold serviceNmi
  split
  · exact enterInterrupt_inv (s := { s with nmiPending := false }) h _ _ _
  · exact h

/-! The shared shapes of an instruction. -/

theorem resolve_inv {s : State} (h : s.Inv) (m : MemOperand) : (resolve m s).state.Inv := by
  cases m with
  | indirect w => exact busAfterRead_inv (busAfterRead_inv h _) _
  | indexedIndirect b => exact busAfterRead_inv (busAfterRead_inv h _) _
  | indirectIndexed b => exact busAfterRead_inv (busAfterRead_inv h _) _
  | _ => exact h

theorem operandValue_inv {s : State} (h : s.Inv) (src : Source) : (operandValue src s).state.Inv := by
  cases src with
  | immediate b => exact h
  | mem m => exact busAfterRead_inv (resolve_inv h m) _

theorem readInstr_inv {s : State} (h : s.Inv) (i : Instr) (src : Source) {f : Byte → State → State}
    (hf : ∀ v u, u.Inv → (f v u).Inv) : (readInstr i src f s).Inv := hf _ _ (operandValue_inv h src)

theorem storeInstr_inv {s : State} (h : s.Inv) (i : Instr) (m : MemOperand) (v : Byte) : (storeInstr i m v s).Inv :=
  busWrite_inv (resolve_inv h m) _ _

theorem modifyInstr_inv {s : State} (h : s.Inv) (i : Instr) (m : MemOperand) {f : Byte → Byte → AluOut}
    (hf : ∀ v p, flag (f v p).status .b = flag p .b ∧ flag (f v p).status .u = flag p .u) : (modifyInstr i m f s).Inv := by
  have h1 := busWrite_inv (busAfterRead_inv (resolve_inv h m) (resolve m s).ea) (resolve m s).ea
    (f (busRead (resolve m s).state (resolve m s).ea).value s.cpu.p).result
  refine setP_inv h1 ?_ ?_
  · rw [(hf _ _).1]; simp [(resolve_frame m s).cpu]
  · rw [(hf _ _).2]; simp [(resolve_frame m s).cpu]

theorem shiftInstr_inv {s : State} (h : s.Inv) (i : Instr) (d : Target) {f : Byte → Byte → AluOut}
    (hf : ∀ v p, flag (f v p).status .b = flag p .b ∧ flag (f v p).status .u = flag p .u) : (shiftInstr i d f s).Inv := by
  cases d with
  | accumulator => exact setP_inv (s := s.setA _) h (hf _ _).1 (hf _ _).2
  | mem m => exact modifyInstr_inv h i m hf

/-! The PPU's work. -/

theorem compose_inv {p : Ppu} (h : p.Inv) {row x : Nat} (hr : row < 240) (hx : x < 256) (palsel px : Nat) :
    (compose row x palsel px p).Inv := by
  obtain ⟨h1, h2, h3, h4, h5, h6, h7, h8, h9⟩ := h
  rw [compose_eq]
  refine ⟨h1, ?_, h3, h4, h5, h6, h7, ?_, h9⟩
  · dsimp only
    split_ifs
    · exact statusLow_or40 _ h2
    · exact h2
  · dsimp only
    split_ifs
    · exact h8
    · exact Grid.wf_write h8 hr hx _

theorem bgTile_inv {s : State} (h : s.ppu.Inv) {row k : Nat} (hr : row < 240) (hk : k ≤ 31) : (bgTile row k s).Inv := by
  have key : ∀ r, Ppu.Inv ((List.range 8).foldl (bgPixelStep row k r) s.ppu) := fun r => by
    refine foldl_inv Ppu.Inv _ _ (fun p i hi hp => ?_) h
    have := List.mem_range.mp hi
    unfold bgPixelStep
    split
    · exact hp
    · exact compose_inv hp hr (by omega) _ _
  unfold bgTile
  dsimp only
  generalize (if s.ppu.regs.mask.getLsbD 3 = true then bgFetch s else ⟨0, 0x00, 0x00⟩) = r
  replace key := key r
  generalize (List.range 8).foldl (bgPixelStep row k r) s.ppu = q at key ⊢
  split
  · exact key
  · exact key

theorem copySprite_inv {sec : Memory} (h : sec.wf ∧ Sparse.below 32 sec) (oam : Memory) (n : Nat) {slot : Nat} (hs : slot < 8) :
    (copySprite oam n slot sec).wf ∧ Sparse.below 32 (copySprite oam n slot sec) := by
  unfold copySprite
  refine foldl_inv (fun m : Memory => m.wf ∧ Sparse.below 32 m) _ _ (fun m j hj hm => ?_) h
  have := List.mem_range.mp hj
  exact ⟨Memory.wf_write hm.1 _ _, Memory.below_write hm.2 (by omega) _⟩

theorem spriteScan_inv {p : Ppu} (h : p.Inv) (line : Nat) (l : List Nat) : (spriteScan line l p).Inv := by
  induction l generalizing p with
  | nil => exact h
  | cons n ns ih =>
    unfold spriteScan
    split_ifs with hm hc
    · obtain ⟨h1, h2, h3, h4, h5, h6⟩ := h
      exact ih ⟨h1, h2, by show p.secCount + 1 ≤ 8; omega, h4, copySprite_inv h5 _ _ hc, h6⟩
    · obtain ⟨h1, h2, h3⟩ := h
      exact ⟨h1, statusLow_or20 _ h2, h3⟩
    · exact ih h

theorem secOamFill_inv : secOamFill.wf ∧ Sparse.below 32 secOamFill := by decide +kernel

theorem spriteEval_inv {p : Ppu} (h : p.Inv) (line : Nat) : (spriteEval line p).Inv := by
  unfold spriteEval
  split
  · obtain ⟨h1, h2, h3, h4, h5, h6⟩ := h
    exact spriteScan_inv (p := { p with secOam := secOamFill, secCount := 0, spr0Sel := false })
      ⟨h1, h2, Nat.zero_le _, h4, secOamFill_inv, h6⟩ _ _
  · exact h

theorem spritePixel_inv {p : Ppu} (h : p.Inv) {row : Nat} (hr : row < 240) (sp : SpriteRow) (i : Nat) :
    (spritePixel row sp p i).Inv := by
  obtain ⟨h1, h2, h3, h4, h5, h6, h7, h8, h9⟩ := h
  unfold spritePixel
  dsimp only
  split_ifs with hx
  · exact ⟨h1, h2, h3, h4, h5, h6, h7, h8, h9⟩
  · exact ⟨h1, h2, h3, h4, h5, h6, h7, h8, h9⟩
  · exact ⟨h1, h2, h3, h4, h5, h6, h7, Grid.wf_write h8 hr (by omega) _, Grid.wf_write h9 hr (by omega) _⟩
  · exact ⟨h1, h2, h3, h4, h5, h6, h7, h8, h9⟩
  · exact ⟨h1, h2, h3, h4, h5, h6, h7, h8, h9⟩
  · exact ⟨h1, h2, h3, h4, h5, h6, h7, Grid.wf_write h8 hr (by omega) _, Grid.wf_write h9 hr (by omega) _⟩

theorem spriteDraw_inv {s : State} (h : s.ppu.Inv) (line : Nat) : (spriteDraw line s).Inv := by
  unfold spriteDraw
  split_ifs with hl
  · exact h
  · obtain ⟨h1, h2, h3, h4, h5, h6, h7, h8, h9⟩ := h
    have h0 : Ppu.Inv { s.ppu with prio := gridClearRow s.ppu.prio (line + 1) } :=
      ⟨h1, h2, h3, h4, h5, h6, h7, h8, Grid.wf_clearRow h9 (by omega)⟩
    dsimp only
    split_ifs
    · refine foldl_inv Ppu.Inv _ _ (fun p slot _ hp => ?_) h0
      unfold spriteDrawSlot
      dsimp only
      split
      · exact foldl_inv Ppu.Inv _ _ (fun p i _ hp => spritePixel_inv hp (by omega) _ _) hp
      · exact hp
    · exact h0

theorem visibleDot_inv {s : State} (h : s.ppu.Inv) (hl : s.ppu.scanline ≤ 239) : (visibleDot s).Inv := by
  unfold visibleDot
  dsimp only
  split_ifs
  · exact spriteEval_inv (bgTile_inv h (by omega) (by omega)) _
  · exact bgTile_inv h (by omega) (by omega)
  · exact spriteDraw_inv h _
  all_goals exact h

theorem dotWork_inv {s : State} (h : s.ppu.Inv) : (dotWork s).Inv := by
  have h' := h
  obtain ⟨h1, h2, h3⟩ := h'
  unfold dotWork preRenderDot
  dsimp only
  split_ifs
  · exact visibleDot_inv h ‹_›
  · exact h
  · exact h
  · exact ⟨h1, statusLow_or80 _ h2, h3⟩
  · exact h
  · exact h
  · exact ⟨h1, statusLow_clear _ h2, h3⟩
  all_goals exact h

/-- A PPU step keeps the invariant. -/
theorem ppuStep_inv {s : State} (h : s.Inv) : (ppuStep s).Inv := by
  refine ⟨h.1, h.2.1, ?_, h.2.2.2⟩
  show (advance (dotWork s)).Inv
  obtain ⟨⟨h1, h1'⟩, h2⟩ := dotWork_inv h.2.2.1
  rw [advance_eq]
  refine ⟨⟨?_, ?_⟩, h2⟩ <;> dsimp only <;> split_ifs <;> omega

theorem ppuSteps_inv {s : State} (h : s.Inv) (n : Nat) : (ppuSteps n s).Inv := by
  induction n generalizing s with
  | zero => exact h
  | succ n ih => exact ih (ppuStep_inv h)

end Sys2Proof.Machine
end

