-- ==== Sys2Proof/Laws/PerInstr.lean ====
section
/-! SUPPORT. A law of every instruction as syntax: a well-formed instruction encodes to as many bytes as its mode says (R130,
R131). One lemma per constructor. -/

namespace Sys2Proof.Laws.EncodeLength

/-- The encoding of a well-formed instruction has the length its mode fixes. -/
def Statement (i : Instr) : Prop := WellFormed i = true → (encode i).length = i.length

/-- Where the table has a row, the encoding is the opcode byte and the operand bytes. -/
theorem of_opcode {i : Instr} {op : Byte} (h : opcodeOf i = some op) (hl : i.operandBytes.length + 1 = i.length) :
    (encode i).length = i.length := by
  simp [encode, h, hl]

/-- The operand bytes of a memory operand are one fewer than the length of its mode. -/
theorem memOperand_bytes (m : MemOperand) : m.bytes.length + 1 = m.mode.length := by
  cases m <;> rfl

/-- The operand bytes of a source operand are one fewer than the length of its mode. -/
theorem source_bytes (src : Source) : src.bytes.length + 1 = src.mode.length := by
  cases src with
  | immediate b => rfl
  | mem m => exact memOperand_bytes m

/-- The operand bytes of a shift's operand are one fewer than the length of its mode. -/
theorem target_bytes (d : Target) : d.bytes.length + 1 = d.mode.length := by
  cases d with
  | accumulator => rfl
  | mem m => exact memOperand_bytes m

/-- A mode that the list of well-formed modes contains has an opcode in a listing with those modes. -/
theorem lookup_of_contains {m : Mode} {modes : List Mode} {l : List (Mode × Byte)} (hm : modes.contains m = true)
    (h : ∀ x ∈ modes, (l.lookup x).isSome = true) : ∃ op, l.lookup m = some op :=
  Option.isSome_iff_exists.mp (h m (List.contains_iff_mem.mp hm))

theorem lda (src : Source) : Statement (.lda src) := fun h =>
  of_opcode (lookup_of_contains h (by simp only [opcodesOf]; decide)).choose_spec (source_bytes src)

theorem ldx (src : Source) : Statement (.ldx src) := fun h =>
  of_opcode (lookup_of_contains h (by simp only [opcodesOf]; decide)).choose_spec (source_bytes src)

theorem ldy (src : Source) : Statement (.ldy src) := fun h =>
  of_opcode (lookup_of_contains h (by simp only [opcodesOf]; decide)).choose_spec (source_bytes src)

theorem sta (m : MemOperand) : Statement (.sta m) := fun h =>
  of_opcode (lookup_of_contains h (by simp only [opcodesOf]; decide)).choose_spec (memOperand_bytes m)

theorem stx (m : MemOperand) : Statement (.stx m) := fun h =>
  of_opcode (lookup_of_contains h (by simp only [opcodesOf]; decide)).choose_spec (memOperand_bytes m)

theorem sty (m : MemOperand) : Statement (.sty m) := fun h =>
  of_opcode (lookup_of_contains h (by simp only [opcodesOf]; decide)).choose_spec (memOperand_bytes m)

theorem tax : Statement .tax := fun _ => rfl

theorem tay : Statement .tay := fun _ => rfl

theorem txa : Statement .txa := fun _ => rfl

theorem tya : Statement .tya := fun _ => rfl

theorem tsx : Statement .tsx := fun _ => rfl

theorem txs : Statement .txs := fun _ => rfl

theorem adc (src : Source) : Statement (.adc src) := fun h =>
  of_opcode (lookup_of_contains h (by simp only [opcodesOf]; decide)).choose_spec (source_bytes src)

theorem sbc (src : Source) : Statement (.sbc src) := fun h =>
  of_opcode (lookup_of_contains h (by simp only [opcodesOf]; decide)).choose_spec (source_bytes src)

theorem and (src : Source) : Statement (.and src) := fun h =>
  of_opcode (lookup_of_contains h (by simp only [opcodesOf]; decide)).choose_spec (source_bytes src)

theorem ora (src : Source) : Statement (.ora src) := fun h =>
  of_opcode (lookup_of_contains h (by simp only [opcodesOf]; decide)).choose_spec (source_bytes src)

theorem eor (src : Source) : Statement (.eor src) := fun h =>
  of_opcode (lookup_of_contains h (by simp only [opcodesOf]; decide)).choose_spec (source_bytes src)

theorem cmp (src : Source) : Statement (.cmp src) := fun h =>
  of_opcode (lookup_of_contains h (by simp only [opcodesOf]; decide)).choose_spec (source_bytes src)

theorem cpx (src : Source) : Statement (.cpx src) := fun h =>
  of_opcode (lookup_of_contains h (by simp only [opcodesOf]; decide)).choose_spec (source_bytes src)

theorem cpy (src : Source) : Statement (.cpy src) := fun h =>
  of_opcode (lookup_of_contains h (by simp only [opcodesOf]; decide)).choose_spec (source_bytes src)

theorem bit (src : Source) : Statement (.bit src) := fun h =>
  of_opcode (lookup_of_contains h (by simp only [opcodesOf]; decide)).choose_spec (source_bytes src)

theorem inc (m : MemOperand) : Statement (.inc m) := fun h =>
  of_opcode (lookup_of_contains h (by simp only [opcodesOf]; decide)).choose_spec (memOperand_bytes m)

theorem dec (m : MemOperand) : Statement (.dec m) := fun h =>
  of_opcode (lookup_of_contains h (by simp only [opcodesOf]; decide)).choose_spec (memOperand_bytes m)

theorem inx : Statement .inx := fun _ => rfl

theorem iny : Statement .iny := fun _ => rfl

theorem dex : Statement .dex := fun _ => rfl

theorem dey : Statement .dey := fun _ => rfl

theorem asl (d : Target) : Statement (.asl d) := fun h =>
  of_opcode (lookup_of_contains h (by simp only [opcodesOf]; decide)).choose_spec (target_bytes d)

theorem lsr (d : Target) : Statement (.lsr d) := fun h =>
  of_opcode (lookup_of_contains h (by simp only [opcodesOf]; decide)).choose_spec (target_bytes d)

theorem rol (d : Target) : Statement (.rol d) := fun h =>
  of_opcode (lookup_of_contains h (by simp only [opcodesOf]; decide)).choose_spec (target_bytes d)

theorem ror (d : Target) : Statement (.ror d) := fun h =>
  of_opcode (lookup_of_contains h (by simp only [opcodesOf]; decide)).choose_spec (target_bytes d)

theorem jmp (m : MemOperand) : Statement (.jmp m) := fun h =>
  of_opcode (lookup_of_contains h (by simp only [opcodesOf]; decide)).choose_spec (memOperand_bytes m)

theorem jsr (w : Word) : Statement (.jsr w) := fun _ => rfl

theorem rts : Statement .rts := fun _ => rfl

theorem bcc (off : Byte) : Statement (.bcc off) := fun _ => rfl

theorem bcs (off : Byte) : Statement (.bcs off) := fun _ => rfl

theorem beq (off : Byte) : Statement (.beq off) := fun _ => rfl

theorem bne (off : Byte) : Statement (.bne off) := fun _ => rfl

theorem bmi (off : Byte) : Statement (.bmi off) := fun _ => rfl

theorem bpl (off : Byte) : Statement (.bpl off) := fun _ => rfl

theorem bvc (off : Byte) : Statement (.bvc off) := fun _ => rfl

theorem bvs (off : Byte) : Statement (.bvs off) := fun _ => rfl

theorem pha : Statement .pha := fun _ => rfl

theorem pla : Statement .pla := fun _ => rfl

theorem php : Statement .php := fun _ => rfl

theorem plp : Statement .plp := fun _ => rfl

theorem clc : Statement .clc := fun _ => rfl

theorem sec : Statement .sec := fun _ => rfl

theorem cli : Statement .cli := fun _ => rfl

theorem sei : Statement .sei := fun _ => rfl

theorem cld : Statement .cld := fun _ => rfl

theorem sed : Statement .sed := fun _ => rfl

theorem clv : Statement .clv := fun _ => rfl

theorem nop : Statement .nop := fun _ => rfl

theorem brk : Statement .brk := fun _ => rfl

theorem rti : Statement .rti := fun _ => rfl

theorem unmapped (op : Byte) : Statement (.unmapped op) := fun h => by
  have e : opcodesOf (.unmapped op) = [(.implied, op)] := if_pos h
  refine of_opcode (op := op) ?_ rfl
  rw [opcodeOf, e]
  rfl

end Sys2Proof.Laws.EncodeLength
end

