-- ==== Sys2Proof/Laws/Scroll.lean ====
section
/-! SUPPORT. The masks of the scroll registers as arithmetic on numbers (R33). -/

namespace Sys2Proof.Machine

/-- Two appended bit strings as a number. -/
theorem toNat_append' {m n : Nat} (x : BitVec m) (y : BitVec n) : (x ++ y).toNat = x.toNat * 2 ^ n + y.toNat := by
  rw [BitVec.toNat_append, ← Nat.shiftLeft_add_eq_or_of_lt y.isLt, Nat.shiftLeft_eq]

theorem toNat_and_001F (v : Scroll) : (v &&& 0x001F).toNat = v.toNat % 32 := by
  have : v &&& 0x001F = 0#10 ++ v.extractLsb' 0 5 := by
    refine BitVec.eq_of_getLsbD_eq fun i hi => ?_
    simp only [BitVec.getLsbD_and, BitVec.getLsbD_append, BitVec.getLsbD_extractLsb']
    interval_cases i <;> simp
  rw [this, toNat_append', BitVec.extractLsb'_toNat, Nat.shiftRight_eq_div_pow]
  simp

theorem toNat_and_7FE0 (v : Scroll) : (v &&& 0x7FE0).toNat = v.toNat / 32 * 32 := by
  have h := v.isLt
  have : v &&& 0x7FE0 = v.extractLsb' 5 10 ++ 0#5 := by
    refine BitVec.eq_of_getLsbD_eq fun i hi => ?_
    simp only [BitVec.getLsbD_and, BitVec.getLsbD_append, BitVec.getLsbD_extractLsb']
    interval_cases i <;> simp
  rw [this, toNat_append', BitVec.extractLsb'_toNat, Nat.shiftRight_eq_div_pow]
  simp
  omega

theorem toNat_and_7C1F (v : Scroll) : (v &&& 0x7C1F).toNat = v.toNat / 1024 * 1024 + v.toNat % 32 := by
  have h := v.isLt
  have : v &&& 0x7C1F = v.extractLsb' 10 5 ++ (0#5 ++ v.extractLsb' 0 5) := by
    refine BitVec.eq_of_getLsbD_eq fun i hi => ?_
    simp only [BitVec.getLsbD_and, BitVec.getLsbD_append, BitVec.getLsbD_extractLsb']
    interval_cases i <;> simp
  rw [this, toNat_append', toNat_append', BitVec.extractLsb'_toNat, BitVec.extractLsb'_toNat, Nat.shiftRight_eq_div_pow,
    Nat.shiftRight_eq_div_pow]
  simp
  omega

theorem toNat_and_041F (v : Scroll) : (v &&& 0x041F).toNat = v.toNat / 1024 % 2 * 1024 + v.toNat % 32 := by
  have : v &&& 0x041F = 0#4 ++ (v.extractLsb' 10 1 ++ (0#5 ++ v.extractLsb' 0 5)) := by
    refine BitVec.eq_of_getLsbD_eq fun i hi => ?_
    simp only [BitVec.getLsbD_and, BitVec.getLsbD_append, BitVec.getLsbD_extractLsb']
    interval_cases i <;> simp
  rw [this, toNat_append', toNat_append', toNat_append', BitVec.extractLsb'_toNat, BitVec.extractLsb'_toNat,
    Nat.shiftRight_eq_div_pow, Nat.shiftRight_eq_div_pow]
  simp

theorem toNat_and_7BE0 (v : Scroll) : (v &&& 0x7BE0).toNat = v.toNat / 2048 * 2048 + v.toNat / 32 % 32 * 32 := by
  have h := v.isLt
  have : v &&& 0x7BE0 = v.extractLsb' 11 4 ++ (0#1 ++ (v.extractLsb' 5 5 ++ 0#5)) := by
    refine BitVec.eq_of_getLsbD_eq fun i hi => ?_
    simp only [BitVec.getLsbD_and, BitVec.getLsbD_append, BitVec.getLsbD_extractLsb']
    interval_cases i <;> simp
  rw [this, toNat_append', toNat_append', toNat_append', BitVec.extractLsb'_toNat, BitVec.extractLsb'_toNat,
    Nat.shiftRight_eq_div_pow, Nat.shiftRight_eq_div_pow]
  simp
  omega

theorem toNat_and_0FFF (v : Scroll) : (v &&& 0x0FFF).toNat = v.toNat % 4096 := by
  have : v &&& 0x0FFF = 0#3 ++ v.extractLsb' 0 12 := by
    refine BitVec.eq_of_getLsbD_eq fun i hi => ?_
    simp only [BitVec.getLsbD_and, BitVec.getLsbD_append, BitVec.getLsbD_extractLsb']
    interval_cases i <;> simp
  rw [this, toNat_append', BitVec.extractLsb'_toNat, Nat.shiftRight_eq_div_pow]
  simp

theorem toNat_and_7000 (v : Scroll) : (v &&& 0x7000).toNat = v.toNat / 4096 * 4096 := by
  have h := v.isLt
  have : v &&& 0x7000 = v.extractLsb' 12 3 ++ 0#12 := by
    refine BitVec.eq_of_getLsbD_eq fun i hi => ?_
    simp only [BitVec.getLsbD_and, BitVec.getLsbD_append, BitVec.getLsbD_extractLsb']
    interval_cases i <;> simp
  rw [this, toNat_append', BitVec.extractLsb'_toNat, Nat.shiftRight_eq_div_pow]
  simp
  omega

/-- Flipping bit 10, the horizontal name-table select. -/
theorem toNat_xor_0400 (v : Scroll) :
    (v ^^^ 0x0400).toNat = v.toNat / 2048 * 2048 + (1 - v.toNat / 1024 % 2) * 1024 + v.toNat % 1024 := by
  have h := v.isLt
  have hb : ∀ x : BitVec 1, (~~~x).toNat = 1 - x.toNat := by decide
  have : v ^^^ 0x0400 = v.extractLsb' 11 4 ++ (~~~(v.extractLsb' 10 1) ++ v.extractLsb' 0 10) := by
    refine BitVec.eq_of_getLsbD_eq fun i hi => ?_
    simp only [BitVec.getLsbD_xor, BitVec.getLsbD_append, BitVec.getLsbD_extractLsb', BitVec.getLsbD_not]
    interval_cases i <;> simp
  rw [this, toNat_append', toNat_append', hb, BitVec.extractLsb'_toNat, BitVec.extractLsb'_toNat, BitVec.extractLsb'_toNat,
    Nat.shiftRight_eq_div_pow, Nat.shiftRight_eq_div_pow, Nat.shiftRight_eq_div_pow]
  simp
  omega

/-- Flipping bit 11, the vertical name-table select. -/
theorem toNat_xor_0800 (v : Scroll) :
    (v ^^^ 0x0800).toNat = v.toNat / 4096 * 4096 + (1 - v.toNat / 2048 % 2) * 2048 + v.toNat % 2048 := by
  have h := v.isLt
  have hb : ∀ x : BitVec 1, (~~~x).toNat = 1 - x.toNat := by decide
  have : v ^^^ 0x0800 = v.extractLsb' 12 3 ++ (~~~(v.extractLsb' 11 1) ++ v.extractLsb' 0 11) := by
    refine BitVec.eq_of_getLsbD_eq fun i hi => ?_
    simp only [BitVec.getLsbD_xor, BitVec.getLsbD_append, BitVec.getLsbD_extractLsb', BitVec.getLsbD_not]
    interval_cases i <;> simp
  rw [this, toNat_append', toNat_append', hb, BitVec.extractLsb'_toNat, BitVec.extractLsb'_toNat, BitVec.extractLsb'_toNat,
    Nat.shiftRight_eq_div_pow, Nat.shiftRight_eq_div_pow, Nat.shiftRight_eq_div_pow]
  simp
  omega

end Sys2Proof.Machine
end

