-- ==== Sys2Proof/Tests/Slice0.lean ====
section
/-! SUPPORT. Tests of the model. Expected values come from the spec: its encodings (30_encoding.md R148, R149), its vectors
(95_test_vectors.md, named in each test) and its state after creation (10_state.md R53). For every obligation with hypotheses a
theorem `witness_…` shows states and operands that meet them. -/

namespace Sys2Proof.Tests

open Sys2Proof.Machine

/-! Well-formedness: an ill-formed term for each check, and a well-formed neighbour. -/

theorem test_ill_formed_refused :
    ([Instr.lda (.mem (.zeropageY 0x10)),
      .ldx (.mem (.zeropageX 0x10)),
      .ldy (.mem (.zeropageY 0x10)),
      .sta (.indirect 0x0200),
      .stx (.zeropageX 0x10),
      .sty (.zeropageY 0x10),
      .adc (.mem (.indirect 0x0200)),
      .sbc (.mem (.zeropageY 0x10)),
      .and (.mem (.indirect 0x0200)),
      .ora (.mem (.zeropageY 0x10)),
      .eor (.mem (.indirect 0x0200)),
      .cmp (.mem (.zeropageY 0x10)),
      .cpx (.mem (.zeropageX 0x10)),
      .cpy (.mem (.absoluteX 0x0200)),
      .bit (.immediate 0x10),
      .inc (.indexedIndirect 0x10),
      .dec (.absoluteY 0x0200),
      .asl (.mem (.absoluteY 0x0200)),
      .lsr (.mem (.zeropageY 0x10)),
      .rol (.mem (.indirectIndexed 0x10)),
      .ror (.mem (.indirect 0x0200)),
      .jmp (.absoluteX 0x0200),
      .unmapped 0xA9].all fun i => !WellFormed i) = true := by
  decide

theorem test_ill_formed_has_no_bytes :
    encode (.lda (.mem (.zeropageY 0x10))) = [] ∧ encode (.unmapped 0xA9) = [] := by
  decide

theorem test_well_formed_accepted :
    ([Instr.lda (.mem (.indirectIndexed 0x10)), .ldx (.mem (.zeropageY 0x10)), .ldy (.mem (.absoluteX 0x0200)), .sta (.indexedIndirect 0x10),
      .stx (.zeropageY 0x10), .bit (.mem (.absolute 0x0200)), .inc (.absoluteX 0x0200), .ror .accumulator, .jmp (.indirect 0x0200),
      .unmapped 0x02].all WellFormed) = true := by
  decide

/-- 105 bytes are unmapped and no byte is listed twice (R151). -/
theorem test_unmapped_count : unmappedBytes.length = 105 ∧ unmappedBytes.Nodup := by
  decide +kernel

/-! Decoding: for each mnemonic a word written out from R148. -/

theorem test_decode_loads :
    decode [0xA1, 0x20] = .ok (.lda (.mem (.indexedIndirect 0x20)), []) ∧
    decode [0xBE, 0x34, 0x12] = .ok (.ldx (.mem (.absoluteY 0x1234)), []) ∧
    decode [0xB4, 0x80] = .ok (.ldy (.mem (.zeropageX 0x80)), []) := by
  decide

theorem test_decode_stores :
    decode [0x91, 0x20] = .ok (.sta (.indirectIndexed 0x20), []) ∧
    decode [0x8E, 0x34, 0x12] = .ok (.stx (.absolute 0x1234), []) ∧
    decode [0x94, 0x80] = .ok (.sty (.zeropageX 0x80), []) := by
  decide

theorem test_decode_transfers :
    decode [0xAA] = .ok (.tax, []) ∧
    decode [0xA8] = .ok (.tay, []) ∧
    decode [0x8A] = .ok (.txa, []) ∧
    decode [0x98] = .ok (.tya, []) ∧
    decode [0xBA] = .ok (.tsx, []) ∧
    decode [0x9A] = .ok (.txs, []) := by
  decide

theorem test_decode_arithmetic :
    decode [0x69, 0x01] = .ok (.adc (.immediate 0x01), []) ∧
    decode [0xFD, 0xFF, 0x02] = .ok (.sbc (.mem (.absoluteX 0x02FF)), []) ∧
    decode [0x39, 0x00, 0xC0] = .ok (.and (.mem (.absoluteY 0xC000)), []) ∧
    decode [0x15, 0x44] = .ok (.ora (.mem (.zeropageX 0x44)), []) ∧
    decode [0x4D, 0xCD, 0xAB] = .ok (.eor (.mem (.absolute 0xABCD)), []) := by
  decide

theorem test_decode_compares :
    decode [0xC9, 0xFF] = .ok (.cmp (.immediate 0xFF), []) ∧
    decode [0xEC, 0x00, 0x02] = .ok (.cpx (.mem (.absolute 0x0200)), []) ∧
    decode [0xC4, 0x10] = .ok (.cpy (.mem (.zeropage 0x10)), []) ∧
    decode [0x2C, 0x02, 0x20] = .ok (.bit (.mem (.absolute 0x2002)), []) := by
  decide

theorem test_decode_counts :
    decode [0xFE, 0xFF, 0x02] = .ok (.inc (.absoluteX 0x02FF), []) ∧
    decode [0xC6, 0x10] = .ok (.dec (.zeropage 0x10), []) ∧
    decode [0xE8] = .ok (.inx, []) ∧
    decode [0xC8] = .ok (.iny, []) ∧
    decode [0xCA] = .ok (.dex, []) ∧
    decode [0x88] = .ok (.dey, []) := by
  decide

theorem test_decode_shifts :
    decode [0x0A] = .ok (.asl .accumulator, []) ∧
    decode [0x4E, 0x34, 0x12] = .ok (.lsr (.mem (.absolute 0x1234)), []) ∧
    decode [0x36, 0x10] = .ok (.rol (.mem (.zeropageX 0x10)), []) ∧
    decode [0x66, 0x10] = .ok (.ror (.mem (.zeropage 0x10)), []) := by
  decide

theorem test_decode_jumps :
    decode [0x4C, 0x10, 0x80] = .ok (.jmp (.absolute 0x8010), []) ∧
    decode [0x6C, 0xFF, 0x02] = .ok (.jmp (.indirect 0x02FF), []) ∧
    decode [0x20, 0x34, 0x12] = .ok (.jsr 0x1234, []) ∧
    decode [0x60] = .ok (.rts, []) := by
  decide

theorem test_decode_branches :
    decode [0x90, 0xFC] = .ok (.bcc 0xFC, []) ∧
    decode [0xB0, 0xFE] = .ok (.bcs 0xFE, []) ∧
    decode [0xF0, 0x80] = .ok (.beq 0x80, []) ∧
    decode [0xD0, 0x03] = .ok (.bne 0x03, []) ∧
    decode [0x30, 0x7F] = .ok (.bmi 0x7F, []) ∧
    decode [0x10, 0x00] = .ok (.bpl 0x00, []) ∧
    decode [0x50, 0x10] = .ok (.bvc 0x10, []) ∧
    decode [0x70, 0x10] = .ok (.bvs 0x10, []) := by
  decide

theorem test_decode_stack :
    decode [0x48] = .ok (.pha, []) ∧
    decode [0x68] = .ok (.pla, []) ∧
    decode [0x08] = .ok (.php, []) ∧
    decode [0x28] = .ok (.plp, []) ∧
    decode [0x00] = .ok (.brk, []) ∧
    decode [0x40] = .ok (.rti, []) := by
  decide

theorem test_decode_flags :
    decode [0x18] = .ok (.clc, []) ∧
    decode [0x38] = .ok (.sec, []) ∧
    decode [0x58] = .ok (.cli, []) ∧
    decode [0x78] = .ok (.sei, []) ∧
    decode [0xD8] = .ok (.cld, []) ∧
    decode [0xF8] = .ok (.sed, []) ∧
    decode [0xB8] = .ok (.clv, []) ∧
    decode [0xEA] = .ok (.nop, []) ∧
    decode [0x02] = .ok (.unmapped 0x02, []) ∧
    decode [0xFF] = .ok (.unmapped 0xFF, []) := by
  decide

theorem test_decode_needs_its_bytes :
    decode [] = .error .noOpcode ∧ decode [0xA9] = .error (.operandMissing 0xA9) ∧
    decode [0xAD, 0x34] = .error (.operandMissing 0xAD) := by
  decide

theorem test_decode_table_word :
    decodeTableWord 8 0xEA = some .nop ∧ decodeTableWord 16 0x10A9 = some (.lda (.immediate 0x10)) ∧
    decodeTableWord 24 0x1234AD = some (.lda (.mem (.absolute 0x1234))) ∧
    decodeTableWord 8 0xAD = some (.lda (.mem (.absolute 0x0000))) := by
  decide

/-- The base cycles and the length that the table entry of an opcode byte gives. -/
def entry (op : Nat) : Cycles × Nat :=
  match decode [BitVec.ofNat 8 op, 0, 0] with
  | .ok (i, _) => (baseCycles Params.default i, i.length)
  | .error _ => (0, 0)

/-- The base cycles of all 256 bytes, row by row (R148); an unmapped byte has `UNMAPPED_CYCLES`, 2 (R8, R265). -/
theorem test_base_cycles :
    (List.range 256).map (fun op => (entry op).1) =
      [7, 6, 2, 2, 2, 3, 5, 2, 3, 2, 2, 2, 2, 4, 6, 2] ++
      [2, 5, 2, 2, 2, 4, 6, 2, 2, 4, 2, 2, 2, 4, 7, 2] ++
      [6, 6, 2, 2, 3, 3, 5, 2, 4, 2, 2, 2, 4, 4, 6, 2] ++
      [2, 5, 2, 2, 2, 4, 6, 2, 2, 4, 2, 2, 2, 4, 7, 2] ++
      [6, 6, 2, 2, 2, 3, 5, 2, 3, 2, 2, 2, 3, 4, 6, 2] ++
      [2, 5, 2, 2, 2, 4, 6, 2, 2, 4, 2, 2, 2, 4, 7, 2] ++
      [6, 6, 2, 2, 2, 3, 5, 2, 4, 2, 2, 2, 5, 4, 6, 2] ++
      [2, 5, 2, 2, 2, 4, 6, 2, 2, 4, 2, 2, 2, 4, 7, 2] ++
      [2, 6, 2, 2, 3, 3, 3, 2, 2, 2, 2, 2, 4, 4, 4, 2] ++
      [2, 6, 2, 2, 4, 4, 4, 2, 2, 5, 2, 2, 2, 5, 2, 2] ++
      [2, 6, 2, 2, 3, 3, 3, 2, 2, 2, 2, 2, 4, 4, 4, 2] ++
      [2, 5, 2, 2, 4, 4, 4, 2, 2, 4, 2, 2, 4, 4, 4, 2] ++
      [2, 6, 2, 2, 3, 3, 5, 2, 2, 2, 2, 2, 4, 4, 6, 2] ++
      [2, 5, 2, 2, 2, 4, 6, 2, 2, 4, 2, 2, 2, 4, 7, 2] ++
      [2, 6, 2, 2, 3, 3, 5, 2, 2, 2, 2, 2, 4, 4, 6, 2] ++
      [2, 5, 2, 2, 2, 4, 6, 2, 2, 4, 2, 2, 2, 4, 7, 2] := by
  decide +kernel

/-- The lengths of all 256 bytes, row by row (R131, R148). -/
theorem test_lengths :
    (List.range 256).map (fun op => (entry op).2) =
      [1, 2, 1, 1, 1, 2, 2, 1, 1, 2, 1, 1, 1, 3, 3, 1] ++
      [2, 2, 1, 1, 1, 2, 2, 1, 1, 3, 1, 1, 1, 3, 3, 1] ++
      [3, 2, 1, 1, 2, 2, 2, 1, 1, 2, 1, 1, 3, 3, 3, 1] ++
      [2, 2, 1, 1, 1, 2, 2, 1, 1, 3, 1, 1, 1, 3, 3, 1] ++
      [1, 2, 1, 1, 1, 2, 2, 1, 1, 2, 1, 1, 3, 3, 3, 1] ++
      [2, 2, 1, 1, 1, 2, 2, 1, 1, 3, 1, 1, 1, 3, 3, 1] ++
      [1, 2, 1, 1, 1, 2, 2, 1, 1, 2, 1, 1, 3, 3, 3, 1] ++
      [2, 2, 1, 1, 1, 2, 2, 1, 1, 3, 1, 1, 1, 3, 3, 1] ++
      [1, 2, 1, 1, 2, 2, 2, 1, 1, 1, 1, 1, 3, 3, 3, 1] ++
      [2, 2, 1, 1, 2, 2, 2, 1, 1, 3, 1, 1, 1, 3, 1, 1] ++
      [2, 2, 2, 1, 2, 2, 2, 1, 1, 2, 1, 1, 3, 3, 3, 1] ++
      [2, 2, 1, 1, 2, 2, 2, 1, 1, 3, 1, 1, 3, 3, 3, 1] ++
      [2, 2, 1, 1, 2, 2, 2, 1, 1, 2, 1, 1, 3, 3, 3, 1] ++
      [2, 2, 1, 1, 1, 2, 2, 1, 1, 3, 1, 1, 1, 3, 3, 1] ++
      [2, 2, 1, 1, 2, 2, 2, 1, 1, 2, 1, 1, 3, 3, 3, 1] ++
      [2, 2, 1, 1, 1, 2, 2, 1, 1, 3, 1, 1, 1, 3, 3, 1] := by
  decide +kernel

/-! One CPU step: the vectors of 95_test_vectors.md, section 2. -/

/-- A loaded machine with the given registers, internal RAM and code at `PC`; its BRK vector is 0xA000. -/
def machine (c : Cpu) (ram : Memory) (code : List Byte) : State :=
  let cart := { blankCartridge with prg := [(0x3FFD, 0x80), (0x3FFF, 0xA0)] }
  placeBytes { insertCartridge cart State.reset with cpu := c, bus := ⟨ram, [], []⟩ } c.pc code

/-- The registers after `Init`, at an address. -/
def regs (pc : Word) : Cpu := Cpu.init pc

/-- A CPU step ends with these registers, this many cycles and these RAM bytes. -/
def ends (r : Result) (c : Cpu) (cycles : Cycles) (ram : List (Nat × Byte)) : Bool :=
  match r with
  | .next t => decide (t.cpu = c ∧ t.cycles = cycles ∧ ∀ e ∈ ram, t.bus.ram.read e.1 = e.2)
  | .fault _ => false
  | .refused _ => false

theorem test_V40_7_lda :
    ends (cpuStep (machine ({ regs 0x0600 with x := 0x01 })
      [(0x000, 0x02), (0x0FF, 0x34), (0x100, 0x07), (0x234, 0xAB)] [0xA1, 0xFE])) ({ regs 0x0602 with a := 0xAB, x := 0x01, p := 0xA4 }) 6 [] = true := by
  decide

theorem test_V40_8_lda :
    ends (cpuStep (machine ({ regs 0x0600 with y := 0x10 })
      [(0x000, 0x02), (0x0FF, 0xF8), (0x100, 0x07), (0x308, 0x5C)] [0xB1, 0xFF])) ({ regs 0x0602 with a := 0x5C, y := 0x10 }) 6 [] = true := by
  decide

theorem test_V40_14_ldx :
    ends (cpuStep (machine ({ regs 0x0600 with y := 0xF8 })
      [(0x008, 0x80)] [0xB6, 0x10])) ({ regs 0x0602 with x := 0x80, y := 0xF8, p := 0xA4 }) 4 [] = true := by
  decide

theorem test_V40_15_ldy :
    ends (cpuStep (machine ({ regs 0x0600 with x := 0x20 })
      [] [0xBC, 0xF0, 0x02])) ({ regs 0x0603 with x := 0x20, p := 0x26 }) 5 [] = true := by
  decide

theorem test_V40_9_sta :
    ends (cpuStep (machine ({ regs 0x0600 with a := 0x11, x := 0x01, p := 0xA4 })
      [] [0x9D, 0xFF, 0x02])) ({ regs 0x0603 with a := 0x11, x := 0x01, p := 0xA4 }) 6 [(0x300, 0x11)] = true := by
  decide

theorem test_V40_16_sta :
    ends (cpuStep (machine ({ regs 0x0600 with a := 0x9A, y := 0x01 })
      [(0x010, 0xFF), (0x011, 0x03)] [0x91, 0x10])) ({ regs 0x0602 with a := 0x9A, y := 0x01 }) 7 [(0x400, 0x9A)] = true := by
  decide

theorem test_V40_10_stx :
    ends (cpuStep (machine ({ regs 0x0600 with x := 0x07, y := 0x02 })
      [] [0x96, 0xFF])) ({ regs 0x0602 with x := 0x07, y := 0x02 }) 4 [(0x001, 0x07), (0x101, 0x00)] = true := by
  decide

theorem test_V40_11_tsx :
    ends (cpuStep (machine ({ regs 0x0600 with x := 0x55, s := 0x00 })
      [] [0xBA])) ({ regs 0x0601 with s := 0x00, p := 0x26 }) 2 [] = true := by
  decide

theorem test_V40_12_txs :
    ends (cpuStep (machine ({ regs 0x0600 with x := 0x00, s := 0xFD })
      [] [0x9A])) ({ regs 0x0601 with s := 0x00 }) 2 [] = true := by
  decide

theorem test_V41_1_adc :
    ends (cpuStep (machine ({ regs 0x0600 with a := 0xFF, p := 0x25 })
      [] [0x69, 0x01])) ({ regs 0x0602 with a := 0x01, p := 0x25 }) 2 [] = true := by
  decide

theorem test_V41_5_adc :
    ends (cpuStep (machine ({ regs 0x0600 with a := 0x09, p := 0x2C })
      [] [0x69, 0x01])) ({ regs 0x0602 with a := 0x0A, p := 0x2C }) 2 [] = true := by
  decide

theorem test_V41_7_sbc :
    ends (cpuStep (machine ({ regs 0x0600 with a := 0x00, p := 0x25 })
      [] [0xE9, 0x01])) ({ regs 0x0602 with a := 0xFF, p := 0xA4 }) 2 [] = true := by
  decide

theorem test_V41_9_sbc :
    ends (cpuStep (machine ({ regs 0x0600 with a := 0x50, p := 0x25 })
      [] [0xE9, 0xB0])) ({ regs 0x0602 with a := 0xA0, p := 0xE4 }) 2 [] = true := by
  decide

theorem test_V41_12_and :
    ends (cpuStep (machine ({ regs 0x0600 with a := 0xF0 })
      [(0x010, 0x8F)] [0x25, 0x10])) ({ regs 0x0602 with a := 0x80, p := 0xA4 }) 3 [] = true := by
  decide

theorem test_V41_13_ora :
    ends (cpuStep (machine ({ regs 0x0600 with a := 0x00 })
      [] [0x09, 0x00])) ({ regs 0x0602 with p := 0x26 }) 2 [] = true := by
  decide

theorem test_V41_14_eor :
    ends (cpuStep (machine ({ regs 0x0600 with a := 0x0F })
      [] [0x49, 0xFF])) ({ regs 0x0602 with a := 0xF0, p := 0xA4 }) 2 [] = true := by
  decide

theorem test_V41_15_cmp :
    ends (cpuStep (machine ({ regs 0x0600 with a := 0x80 })
      [] [0xC9, 0x01])) ({ regs 0x0602 with a := 0x80, p := 0x25 }) 2 [] = true := by
  decide

theorem test_V41_16_cmp :
    ends (cpuStep (machine ({ regs 0x0600 with a := 0x01, p := 0x65 })
      [] [0xC9, 0x02])) ({ regs 0x0602 with a := 0x01, p := 0xE4 }) 2 [] = true := by
  decide

theorem test_V41_17_cpx :
    ends (cpuStep (machine ({ regs 0x0600 with x := 0x04 })
      [] [0xE0, 0x04])) ({ regs 0x0602 with x := 0x04, p := 0x27 }) 2 [] = true := by
  decide

theorem test_V41_18_cpy :
    ends (cpuStep (machine ({ regs 0x0600 with y := 0x00 })
      [(0x200, 0xFF)] [0xCC, 0x00, 0x02])) (regs 0x0603) 4 [] = true := by
  decide

theorem test_V41_19_bit :
    ends (cpuStep (machine ({ regs 0x0600 with a := 0x01 })
      [(0x010, 0xC0)] [0x24, 0x10])) ({ regs 0x0602 with a := 0x01, p := 0xE6 }) 3 [] = true := by
  decide

theorem test_V41_20_bit :
    ends (cpuStep (machine ({ regs 0x0600 with a := 0xFF, p := 0xE6 })
      [(0x010, 0x3F)] [0x24, 0x10])) ({ regs 0x0602 with a := 0xFF }) 3 [] = true := by
  decide

theorem test_V41_21_inc :
    ends (cpuStep (machine (regs 0x0600)
      [(0x010, 0xFF)] [0xE6, 0x10])) ({ regs 0x0602 with p := 0x26 }) 5 [(0x010, 0x00)] = true := by
  decide

theorem test_V41_23_inc :
    ends (cpuStep (machine ({ regs 0x0600 with x := 0x01 })
      [(0x300, 0x7F)] [0xFE, 0xFF, 0x02])) ({ regs 0x0603 with x := 0x01, p := 0xA4 }) 8 [(0x300, 0x80)] = true := by
  decide

theorem test_V41_22_dec :
    ends (cpuStep (machine ({ regs 0x0600 with p := 0x25 })
      [] [0xCE, 0x00, 0x02])) ({ regs 0x0603 with p := 0xA5 }) 6 [(0x200, 0xFF)] = true := by
  decide

theorem test_V41_24_inx :
    ends (cpuStep (machine ({ regs 0x0600 with x := 0xFF, p := 0x25 })
      [] [0xE8])) ({ regs 0x0601 with p := 0x27 }) 2 [] = true := by
  decide

theorem test_V41_25_dey :
    ends (cpuStep (machine ({ regs 0x0600 with y := 0x00 })
      [] [0x88])) ({ regs 0x0601 with y := 0xFF, p := 0xA4 }) 2 [] = true := by
  decide

theorem test_V41_26_dex :
    ends (cpuStep (machine ({ regs 0x0600 with x := 0x80, p := 0xA4 })
      [] [0xCA])) ({ regs 0x0601 with x := 0x7F }) 2 [] = true := by
  decide

theorem test_V41_27_iny :
    ends (cpuStep (machine ({ regs 0x0600 with y := 0x7F })
      [] [0xC8])) ({ regs 0x0601 with y := 0x80, p := 0xA4 }) 2 [] = true := by
  decide

theorem test_V42_1_asl :
    ends (cpuStep (machine ({ regs 0x0600 with a := 0x81 })
      [] [0x0A])) ({ regs 0x0601 with a := 0x02, p := 0x25 }) 2 [] = true := by
  decide

theorem test_V42_9_asl :
    ends (cpuStep (machine ({ regs 0x0600 with x := 0x02 })
      [(0x301, 0x55)] [0x1E, 0xFF, 0x02])) ({ regs 0x0603 with x := 0x02, p := 0xA4 }) 8 [(0x301, 0xAA)] = true := by
  decide

theorem test_V42_3_lsr :
    ends (cpuStep (machine ({ regs 0x0600 with a := 0x01, p := 0xA4 })
      [] [0x4A])) ({ regs 0x0601 with p := 0x27 }) 2 [] = true := by
  decide

theorem test_V42_4_lsr :
    ends (cpuStep (machine ({ regs 0x0600 with p := 0x25 })
      [(0x010, 0xFE)] [0x46, 0x10])) (regs 0x0602) 5 [(0x010, 0x7F)] = true := by
  decide

theorem test_V42_5_rol :
    ends (cpuStep (machine ({ regs 0x0600 with a := 0x80, p := 0x24 })
      [] [0x2A])) ({ regs 0x0601 with p := 0x27 }) 2 [] = true := by
  decide

theorem test_V42_6_rol :
    ends (cpuStep (machine ({ regs 0x0600 with p := 0x25 })
      [(0x200, 0x40)] [0x2E, 0x00, 0x02])) ({ regs 0x0603 with p := 0xA4 }) 6 [(0x200, 0x81)] = true := by
  decide

theorem test_V42_7_ror :
    ends (cpuStep (machine ({ regs 0x0600 with a := 0x01, p := 0x24 })
      [] [0x6A])) ({ regs 0x0601 with p := 0x27 }) 2 [] = true := by
  decide

theorem test_V42_8_ror :
    ends (cpuStep (machine ({ regs 0x0600 with x := 0x01, p := 0x25 })
      [(0x011, 0x02)] [0x76, 0x10])) ({ regs 0x0602 with x := 0x01, p := 0xA4 }) 6 [(0x011, 0x81)] = true := by
  decide

theorem test_V43_1_jmp :
    ends (cpuStep (machine (regs 0x0600)
      [(0x200, 0x12), (0x2FF, 0x34), (0x300, 0x56)] [0x6C, 0xFF, 0x02])) (regs 0x1234) 5 [] = true := by
  decide

theorem test_V43_3_jsr :
    ends (cpuStep (machine ({ regs 0x0600 with s := 0x00 })
      [] [0x20, 0x34, 0x12])) ({ regs 0x1234 with s := 0xFE }) 6 [(0x100, 0x06), (0x1FF, 0x02)] = true := by
  decide

theorem test_V43_4_rts :
    ends (cpuStep (machine ({ regs 0x0600 with s := 0xFD })
      [(0x1FE, 0xFF), (0x1FF, 0xFF)] [0x60])) ({ regs 0x0000 with s := 0xFF }) 6 [] = true := by
  decide

theorem test_V43_5_bne :
    ends (cpuStep (machine ({ regs 0x06FB with p := 0x24 })
      [] [0xD0, 0x03])) (regs 0x0700) 4 [] = true := by
  decide

theorem test_V43_6_bne :
    ends (cpuStep (machine ({ regs 0x06FB with p := 0x26 })
      [] [0xD0, 0x03])) ({ regs 0x06FD with p := 0x26 }) 2 [] = true := by
  decide

theorem test_V43_7_beq :
    ends (cpuStep (machine ({ regs 0x0600 with p := 0x26 })
      [] [0xF0, 0x80])) ({ regs 0x0582 with p := 0x26 }) 4 [] = true := by
  decide

theorem test_V43_8_bcs :
    ends (cpuStep (machine ({ regs 0x0600 with p := 0x25 })
      [] [0xB0, 0xFE])) ({ regs 0x0600 with p := 0x25 }) 3 [] = true := by
  decide

theorem test_V43_9_bpl :
    ends (cpuStep (machine ({ regs 0x0600 with p := 0x24 })
      [] [0x10, 0x00])) (regs 0x0602) 3 [] = true := by
  decide

theorem test_V43_10_bmi :
    ends (cpuStep (machine ({ regs 0x0680 with p := 0xA4 })
      [] [0x30, 0x7F])) ({ regs 0x0701 with p := 0xA4 }) 4 [] = true := by
  decide

theorem test_V43_11_bvc :
    ends (cpuStep (machine ({ regs 0x0600 with p := 0x64 })
      [] [0x50, 0x10])) ({ regs 0x0602 with p := 0x64 }) 2 [] = true := by
  decide

theorem test_V43_12_bvs :
    ends (cpuStep (machine ({ regs 0x0600 with p := 0x64 })
      [] [0x70, 0x10])) ({ regs 0x0612 with p := 0x64 }) 3 [] = true := by
  decide

theorem test_V43_13_bcc :
    ends (cpuStep (machine ({ regs 0x0600 with p := 0x24 })
      [] [0x90, 0xFC])) (regs 0x05FE) 4 [] = true := by
  decide

theorem test_V44_1_pha :
    ends (cpuStep (machine ({ regs 0x0600 with a := 0x42, s := 0x00 })
      [] [0x48])) ({ regs 0x0601 with a := 0x42, s := 0xFF }) 3 [(0x100, 0x42)] = true := by
  decide

theorem test_V44_2_pla :
    ends (cpuStep (machine ({ regs 0x0600 with a := 0x11, s := 0xFF })
      [(0x100, 0x80)] [0x68])) ({ regs 0x0601 with a := 0x80, s := 0x00, p := 0xA4 }) 4 [] = true := by
  decide

theorem test_V44_3_php :
    ends (cpuStep (machine ({ regs 0x0600 with s := 0xFD, p := 0xE5 })
      [] [0x08])) ({ regs 0x0601 with s := 0xFC, p := 0xE5 }) 3 [(0x1FD, 0xF5)] = true := by
  decide

theorem test_V44_4_plp :
    ends (cpuStep (machine ({ regs 0x0600 with s := 0xFC })
      [(0x1FD, 0xFF)] [0x28])) ({ regs 0x0601 with p := 0xEF }) 4 [] = true := by
  decide

theorem test_V44_5_plp :
    ends (cpuStep (machine ({ regs 0x0600 with s := 0xFC, p := 0xE7 })
      [] [0x28])) ({ regs 0x0601 with p := 0x20 }) 4 [] = true := by
  decide

theorem test_V44_6_brk :
    ends (cpuStep (machine ({ regs 0x0600 with s := 0xFD, p := 0xA1 })
      [] [0x00, 0xEA])) ({ regs 0xA000 with s := 0xFA, p := 0xA5 }) 7 [(0x1FD, 0x06), (0x1FC, 0x02), (0x1FB, 0xB1)] = true := by
  decide

theorem test_V44_7_rti :
    ends (cpuStep (machine ({ regs 0x0600 with s := 0xFA })
      [(0x1FB, 0xD3), (0x1FC, 0x02), (0x1FD, 0x06)] [0x40])) ({ regs 0x0602 with p := 0xE3 }) 6 [] = true := by
  decide

theorem test_V44_8_unmapped :
    ends (cpuStep (machine ({ regs 0x0600 with a := 0x11 })
      [] [0x02, 0xA9])) ({ regs 0x0601 with a := 0x11 }) 2 [] = true := by
  decide

theorem test_V44_9_unmapped :
    ends (cpuStep (machine (regs 0x07FF)
      [] [0xFF])) (regs 0x0800) 2 [] = true := by
  decide

theorem test_V44_10_sed :
    ends (cpuStep (machine ({ regs 0x0600 with p := 0x24 })
      [] [0xF8])) ({ regs 0x0601 with p := 0x2C }) 2 [] = true := by
  decide

theorem test_V44_11_clv :
    ends (cpuStep (machine ({ regs 0x0600 with p := 0xE4 })
      [] [0xB8])) ({ regs 0x0601 with p := 0xA4 }) 2 [] = true := by
  decide

theorem test_V44_12_cli :
    ends (cpuStep (machine ({ regs 0x0600 with p := 0x24 })
      [] [0x58])) ({ regs 0x0601 with p := 0x20 }) 2 [] = true := by
  decide

theorem test_V44_13_nop :
    ends (cpuStep (machine (regs 0x0600)
      [] [0xEA])) (regs 0x0601) 2 [] = true := by
  decide

/-! Instructions that section 2 has no vector of, by the rules of 40 to 44. -/

theorem test_R175_sty :
    ends (cpuStep (machine ({ regs 0x0600 with y := 0x5A })
      [] [0x84, 0x10])) ({ regs 0x0602 with y := 0x5A }) 3 [(0x010, 0x5A)] = true := by
  decide

theorem test_R176_tax :
    ends (cpuStep (machine ({ regs 0x0600 with a := 0x80 })
      [] [0xAA])) ({ regs 0x0601 with a := 0x80, x := 0x80, p := 0xA4 }) 2 [] = true := by
  decide

theorem test_R177_tay :
    ends (cpuStep (machine ({ regs 0x0600 with y := 0x55 })
      [] [0xA8])) ({ regs 0x0601 with y := 0x00, p := 0x26 }) 2 [] = true := by
  decide

theorem test_R178_txa :
    ends (cpuStep (machine ({ regs 0x0600 with a := 0x11, x := 0x22 })
      [] [0x8A])) ({ regs 0x0601 with a := 0x22, x := 0x22 }) 2 [] = true := by
  decide

theorem test_R179_tya :
    ends (cpuStep (machine ({ regs 0x0600 with a := 0x11, y := 0xF0 })
      [] [0x98])) ({ regs 0x0601 with a := 0xF0, y := 0xF0, p := 0xA4 }) 2 [] = true := by
  decide

theorem test_R231_jmp :
    ends (cpuStep (machine (regs 0x0600)
      [] [0x4C, 0x34, 0x12])) (regs 0x1234) 3 [] = true := by
  decide

theorem test_R255_clc :
    ends (cpuStep (machine ({ regs 0x0600 with p := 0xFF })
      [] [0x18])) ({ regs 0x0601 with p := 0xFE }) 2 [] = true := by
  decide

theorem test_R256_sec :
    ends (cpuStep (machine (regs 0x0600)
      [] [0x38])) ({ regs 0x0601 with p := 0x25 }) 2 [] = true := by
  decide

theorem test_R258_sei :
    ends (cpuStep (machine ({ regs 0x0600 with p := 0x20 })
      [] [0x78])) (regs 0x0601) 2 [] = true := by
  decide

theorem test_R259_cld :
    ends (cpuStep (machine ({ regs 0x0600 with p := 0x2C })
      [] [0xD8])) (regs 0x0601) 2 [] = true := by
  decide

/-! The state after creation, and the fetch word (R53, R450, R455). -/

theorem test_reset_registers :
    State.reset.cpu.a = 0x00 ∧ State.reset.cpu.x = 0x00 ∧ State.reset.cpu.y = 0x00 ∧ State.reset.cpu.s = 0xFD ∧
    State.reset.cpu.p = 0x24 ∧ State.reset.nmiPending = false ∧ State.reset.ppu.dot = 0 ∧ State.reset.ppu.scanline = 0 ∧
    State.reset.ppu.frameComplete = false ∧ State.reset.map.control = 0x0C := by
  decide

theorem test_step_from_reset_is_refused : step State.reset = .refused .noCartridge := rfl

/-- The word of LDA #$10 placed at the fetch point runs as the first instruction. -/
theorem test_fetch_word_runs :
    (match step (State.reset.withFetchWord 16 0x10A9) with
      | .next t => decide (t.cpu.a = 0x10 ∧ t.cpu.pc = 0x8002 ∧ t.cycles = 2)
      | .fault _ => false
      | .refused _ => false) = true := by
  decide

/-- A step with an NMI pending enters the handler and runs its first instruction in the same step (R133, R422; vector T9): the
vector is 0x0000, where RAM holds 0x00, so BRK follows and pushes its own frame. -/
theorem test_step_services_nmi_first :
    (match cpuStep { machine (regs 0x0600) [] [0xEA] with nmiPending := true } with
      | .next t => decide (t.nmiPending = false ∧ t.cycles = 14 ∧ t.cpu.pc = 0xA000 ∧ t.cpu.s = 0xF7 ∧
          t.bus.ram.read 0x1FD = 0x06 ∧ t.bus.ram.read 0x1FC = 0x00 ∧ t.bus.ram.read 0x1FB = 0x24)
      | .fault _ => false
      | .refused _ => false) = true := by
  decide

/-- The count a step returns is a 32-bit number (R133, R472): NMI cycles of 2^32 - 1 and the 7 of the BRK that follows wrap to 6. -/
theorem test_cycle_count_wraps :
    (let s := { machine (regs 0x0600) [] [0xEA] with nmiPending := true, params := { Params.default with nmiCycles := 0xFFFFFFFF } }
     match hostCall .stepCpu s with
      | (.cycles n, _) => decide (n = 6)
      | _ => false) = true := by
  decide

/-! The bus and the ports: vectors of sections 3 and 4 of 95_test_vectors.md. -/

/-- A loaded machine just after `Init`. -/
def fresh : State := insertCartridge blankCartridge State.reset

/-- Bus writes in a row. -/
def writes (s : State) (l : List (Word × Byte)) : State := l.foldl (fun s e => busWrite s e.1 e.2) s

theorem test_B1_ram_mirrors :
    ([0x0000, 0x0800, 0x1000, 0x1800].map (busValue (busWrite fresh 0x0000 0x3C)) = [0x3C, 0x3C, 0x3C, 0x3C]) ∧
    busValue (busWrite fresh 0x0000 0x3C) 0x0001 = 0x00 := by
  decide

theorem test_B3_B4_apu_stub :
    busValue (busWrite fresh 0x4017 0xC0) 0x4017 = 0x00 ∧ busPeek (busWrite fresh 0x4017 0xC0) 0x4017 = 0xC0 ∧
    busValue (busWrite fresh 0x4015 0x1F) 0x4015 = 0x1F := by
  decide

theorem test_B8_port_mirrors :
    (writes fresh [(0x2008, 0x80), (0x3FF9, 0x18)]).ppu.regs.control = 0x80 ∧
    (writes fresh [(0x2008, 0x80), (0x3FF9, 0x18)]).ppu.regs.mask = 0x18 := by
  decide

theorem test_B10_reference_controller :
    (let s := { fresh with params := { fresh.params with controller := .reference } }
     let s := writes (setButton (setButton s 0 true) 3 true) [(0x4016, 0x01), (0x4016, 0x00)]
     (List.range 10).map fun k => busValue (Nat.repeat (fun u => busAfterRead u 0x4016) k s) 0x4016) =
      [0x01, 0x00, 0x00, 0x01, 0x00, 0x00, 0x00, 0x00, 0x01, 0x01] := by
  decide +kernel

theorem test_Q1_Q2_scroll_latch :
    (writes fresh [(0x2005, 0x7D)]).ppu.t = 0x000F ∧ (writes fresh [(0x2005, 0x7D)]).ppu.fx = 5 ∧
    (writes fresh [(0x2005, 0x7D), (0x2005, 0x5E)]).ppu.t = 0x616F ∧
    (writes fresh [(0x2005, 0x7D), (0x2005, 0x5E), (0x2000, 0x03)]).ppu.t = 0x6D6F := by
  decide

theorem test_Q3_address_latch :
    (writes fresh [(0x2006, 0xFF)]).ppu.t = 0x3F00 ∧ (writes fresh [(0x2006, 0xFF), (0x2006, 0x10)]).ppu.v = 0x3F10 := by
  decide

theorem test_Q6_data_port_step :
    (writes fresh [(0x2000, 0x04), (0x2006, 0x20), (0x2006, 0x00), (0x2007, 0x99)]).ppu.nt.read 0 = 0x99 ∧
    (writes fresh [(0x2000, 0x04), (0x2006, 0x20), (0x2006, 0x00), (0x2007, 0x99)]).ppu.v = 0x2020 := by
  decide

theorem test_Q8_palette_alias :
    ([0x3F00, 0x3F04, 0x3F10, 0x3F1C, 0x3F20, 0x3FE0, 0x3F15].map
      (ppuRead (writes fresh [(0x2006, 0x3F), (0x2006, 0x10), (0x2007, 0x2A)]))) =
      [0x2A, 0x2A, 0x2A, 0x2A, 0x2A, 0x2A, 0x00] := by
  decide

theorem test_Q9_horizontal_mirroring :
    ([0x2005, 0x2405, 0x2805, 0x2C05, 0x3005, 0x3805].map (ppuRead (ppuWrite (ppuWrite fresh 0x2005 0x01) 0x2805 0x02))) =
      [0x01, 0x01, 0x02, 0x02, 0x01, 0x02] := by
  decide

/-- OAM-DMA from the PPU's own ports keeps the reads' side effects (vector Q12). -/
theorem test_Q12_dma_from_ports :
    (let p := fresh.ppu
     let s := { fresh with ppu := { p with regs := { p.regs with status := 0x80 }, w := true, v := 0x2000 } }
     let t := busWrite s 0x4014 0x20
     decide (t.ppu.regs.status = 0x00 ∧ t.ppu.w = false ∧ t.ppu.v = 0x2020 ∧ t.ppu.oam.read 0x02 = 0x80 ∧
       t.ppu.oam.read 0x0A = 0x00)) = true := by
  decide +kernel

/-! The PPU's timing and rendering: vectors of sections 5 and 6. -/

/-- The PPU at a position. -/
def atPosition (scanline dot : Nat) (p : Ppu) : Ppu := { p with scanline := scanline, dot := dot }

theorem test_T4_vblank_entry :
    (ppuStep { fresh with ppu := atPosition 241 1 fresh.ppu }).ppu.regs.status = 0x80 ∧
    (ppuStep { fresh with ppu := atPosition 241 1 fresh.ppu }).nmiPending = false ∧
    (ppuStep { busWrite fresh 0x2000 0x80 with ppu := atPosition 241 1 (busWrite fresh 0x2000 0x80).ppu }).nmiPending = true := by
  decide

theorem test_T5_pre_render_clear :
    (let p := { fresh.ppu with regs := { fresh.ppu.regs with status := 0xE0 } }
     (ppuStep { fresh with ppu := atPosition 261 1 p }).ppu.regs.status) = 0x00 := by
  decide

theorem test_V51_1_background_tile :
    (let p := { fresh.ppu with
        regs := { fresh.ppu.regs with mask := 0x08 }
        nt := [(0, 0x01), (0x3C0, 0x03)], pal := [(0, 0x0F), (13, 0x16), (15, 0x30)] }
     let q := bgTile 0 0 { fresh with ppu := p, map := { fresh.map with chrRam := [(0x10, 0x81), (0x18, 0x01)] } }
     decide ((List.range 8).map (gridRead 0 q.grid 0) = [0x16, 0x0F, 0x0F, 0x0F, 0x0F, 0x0F, 0x0F, 0x30] ∧ q.v = 0x0001)) =
      true := by
  decide +kernel

/-- Primary OAM of nine sprites at Y = 0x20 and the others at 0xF0. -/
def nineSprites : Memory :=
  (List.range 64).foldl (fun m n => m.write (4 * n) (if n < 9 then 0x20 else 0xF0)) []

theorem test_V51_3_sprite_overflow :
    (let q := spriteEval 0x20 { fresh.ppu with regs := { fresh.ppu.regs with mask := 0x10 }, oam := nineSprites }
     decide (q.secCount = 8 ∧ q.spr0Sel = true ∧ q.regs.status = 0x20)) = true := by
  decide +kernel

/-- The PPU and CHR-RAM of vector V51.7. -/
def spriteScene (attr : Byte) : State :=
  { fresh with
    map := { fresh.map with chrRam := [(0x20, 0xC0), (0x28, 0x80)] }
    ppu := { fresh.ppu with
      regs := { fresh.ppu.regs with mask := 0x18 }
      secCount := 1, spr0Sel := true, secOam := [(0, 0x0F), (1, 0x02), (2, attr), (3, 0xF8)]
      pal := [(0, 0x0F), (1, 0x11), (0x11, 0x21), (0x13, 0x27)] } }

theorem test_V51_7_sprite_draw :
    (let q := spriteDraw 0x0F (spriteScene 0x40)
     decide (gridRead 0 q.grid 16 254 = 0x21 ∧ gridRead 0 q.grid 16 255 = 0x27 ∧
       gridRead PrioCell.clear q.prio 16 255 = ⟨true, false, true⟩ ∧ gridRead PrioCell.clear q.prio 16 253 = PrioCell.clear)) =
      true := by
  decide +kernel

/-- Vectors V51.8 and V51.9: the hit is set either way; in front the sprite stays, behind it the background covers. -/
theorem test_V51_8_V51_9_priority :
    (let front := compose 16 255 0 0 (compose 16 254 0 1 (spriteDraw 0x0F (spriteScene 0x40)))
     let behind := compose 16 255 0 0 (compose 16 254 0 1 (spriteDraw 0x0F (spriteScene 0x60)))
     decide (front.regs.status = 0x40 ∧ gridRead 0 front.grid 16 254 = 0x21 ∧ gridRead 0 front.grid 16 255 = 0x27 ∧
       behind.regs.status = 0x40 ∧ gridRead 0 behind.grid 16 254 = 0x11 ∧ gridRead 0 behind.grid 16 255 = 0x27)) = true := by
  decide +kernel

theorem test_V51_10_to_12_scroll_operations :
    ([0x001F, 0x041F, 0x0005].map incrementHorizontal = [0x0400, 0x0000, 0x0006]) ∧
    ([0x0000, 0x7000, 0x73A0, 0x73E0].map incrementVertical = [0x1000, 0x0020, 0x0800, 0x0000]) ∧
    copyHorizontal 0x7FFF 0x0000 = 0x7BE0 ∧ copyVertical 0x7FFF 0x0000 = 0x041F := by
  decide

/-! The cartridge and the mapper: vectors of section 7. -/

/-- A serial-shift cartridge of `n` PRG banks. -/
def shiftCartridge (n : Nat) : Cartridge := { blankCartridge with kind := .serialShift, prgBanks := n }

/-- Serial writes to one address in a row. -/
def serialWrites (a : Word) (m : Mapper) (l : List Byte) : Mapper := l.foldl (fun m b => serialWrite a b m) m

theorem test_V55_1_prg_select :
    (let m := serialWrites 0xE000 (Mapper.loaded .horizontal) [0x01, 0x00, 0x01, 0x00, 0x00]
     decide (m.prg = 0x05 ∧ m.shift = 0 ∧ m.count = 0 ∧ prgBanks Params.default (shiftCartridge 8) m = (5, 7) ∧
       prgIndex Params.default (shiftCartridge 8) m 0x8000 = 0x14000 ∧
       prgIndex Params.default (shiftCartridge 8) m 0xFFFC = 0x1FFFC)) = true := by
  decide

theorem test_V55_3_shift_reset :
    serialWrites 0xE000 (Mapper.loaded .horizontal) [0x01, 0x01, 0x80] = Mapper.loaded .horizontal := by
  decide

theorem test_V55_4_mode_two :
    (let m := { Mapper.loaded .horizontal with control := 0x08, prg := 0x03 }
     decide (prgBanks Params.default (shiftCartridge 8) m = (7, 3) ∧
       prgBanks { Params.default with fixedLow := .first } (shiftCartridge 8) m = (0, 3))) = true := by
  decide

theorem test_V55_8_chr_banks :
    (let m := { Mapper.loaded .horizontal with control := 0x10, chr0 := 0x03, chr1 := 0x06 }
     let c := { shiftCartridge 1 with chrBanks := 2 }
     decide (chrRomIndex c m 0x0010 = 0x3010 ∧ chrRomIndex c m 0x1010 = 0x2010)) = true := by
  decide

theorem test_V55_11_to_15_load_errors :
    (hostCall (.loadCartridge (some (List.replicate 15 0x4E))) fresh).1 = .romError .invalidHeader ∧
    (hostCall (.loadCartridge (some [0x4E, 0x45, 0x53, 0x1A, 0, 1, 0x40, 0, 0, 0, 0, 0, 0, 0, 0, 0])) fresh).1 =
      .romError .invalidHeader ∧
    (hostCall (.loadCartridge (some [0x4E, 0x45, 0x53, 0x1A, 1, 0, 0x10, 0x40, 0, 0, 0, 0, 0, 0, 0, 0])) fresh).1 =
      .romError (.unsupportedMapper 65) := by
  decide

/-! Witnesses: for each obligation with hypotheses, states and operands that meet them, each clause at the ends of its range. -/

/-- LDA #$10 at 0x0600 in a loaded machine. -/
def ready : State := machine (regs 0x0600) [] [0xA9, 0x10]

/-- A well-formed instruction of each length. -/
theorem witness_DecodeOfEncode :
    WellFormed .rts = true ∧ WellFormed (.bne 0xF7) = true ∧ WellFormed (.sta (.absoluteX 0xFFFF)) = true ∧
    WellFormed (.unmapped 0xFF) = true := by
  decide

theorem witness_EncodeOfDecode :
    decode [0xA9, 0x10, 0x00] = .ok (.lda (.immediate 0x10), [0x00]) ∧ decode [0x02] = .ok (.unmapped 0x02, []) := by
  decide

/-- Without and with an NMI pending. -/
theorem witness_StepRunsTheFetchedInstruction :
    (∃ c, ready.cart = some c) ∧
    decode (fetchBytes 2 { ready with cycles := 0 }).value = .ok (.lda (.immediate 0x10), []) ∧
    decode (fetchBytes 1 { nmiEntry { ready with nmiPending := true, cycles := 0 } with cycles := 7 }).value =
      .ok (.brk, []) :=
  ⟨⟨_, rfl⟩, by decide, by decide⟩

theorem witness_StepRunsTheInstructionAtPc :
    (∃ c, ready.cart = some c) ∧ ready.nmiPending = false ∧
    decode [busValue ready ready.cpu.pc, busValue ready (ready.cpu.pc + 1), busValue ready (ready.cpu.pc + 2)] =
      .ok (.lda (.immediate 0x10), [0x00]) ∧
    ∀ k < (Instr.lda (.immediate 0x10)).length, quiet (ready.cpu.pc + BitVec.ofNat 16 k) = true :=
  ⟨⟨_, rfl⟩, by decide, by decide, by decide⟩

theorem witness_LoadedMachineRunsForever : ready.cart.isSome = true := by decide

theorem witness_UnloadedMachineIsRefused :
    State.reset.cart = none ∧ 0x8000 ≤ (0x8000 : Word).toNat ∧ 0x8000 ≤ (0xFFFF : Word).toNat := by
  decide

theorem witness_StepKeepsInv : ready.Inv ∧ ∃ t, step ready = .next t := by
  refine ⟨⟨by decide, by decide, by decide, by decide, by decide⟩, ?_⟩
  unfold step
  exact ⟨_, rfl⟩

theorem witness_HostCallsKeepInv : State.reset.Inv ∧ fresh.Inv :=
  ⟨⟨by decide, by decide, by decide, by decide, by decide⟩, by decide, by decide, by decide, by decide, by decide⟩

theorem witness_PpuStepsTouchOnlyThePpu : { fresh with nmiPending := true }.nmiPending = true := by decide

/-- STA to RAM, to the last byte of PRG-RAM, to a PPU port, and to the mapper, with other addresses that stay as they are. -/
theorem witness_StoringInstructionsTouchOnlyTheirTarget :
    (∃ t, exec (.sta (.zeropage 0x10)) fresh = .next t) ∧ (resolve (.zeropage 0x10) fresh).ea = 0x0010 ∧
    quiet 0x0010 = true ∧ quiet 0x7FFF = true ∧ (0x7FFF : Word).toNat < 0x8000 ∧ (0x7FFF : Word) ≠ 0x4014 ∧
    busTarget 0x0011 ≠ busTarget 0x0010 ∧ quiet 0x0011 = true ∧ busTarget 0xFFFF ≠ busTarget 0x7FFF ∧ quiet 0xFFFF = true ∧
    busTarget 0x7FFF ≠ busTarget 0x8000 :=
  ⟨⟨_, rfl⟩, by decide, by decide, by decide, by decide, by decide, by decide, by decide, by decide, by decide, by decide⟩

theorem witness_DecimalFlagHasNoEffect :
    Instr.sbc (.mem (.indirectIndexed 0x10)) ∈ [Instr.adc (.mem (.indirectIndexed 0x10)), .sbc (.mem (.indirectIndexed 0x10))] := by
  decide

theorem witness_NopsOnlyCountCycles : (0x02 : Byte) ∈ unmappedBytes ∧ (0xFF : Byte) ∈ unmappedBytes := by decide

theorem witness_ReturnsUndoCallsAndEntries : fresh.cpu.Inv := by decide

/-- Each range at both ends, and a mirror and a stranger of each. -/
theorem witness_WriteThenRead :
    ((0x0000 : Word).toNat < 0x2000 ∧ (0x1FFF : Word).toNat < 0x2000) ∧
    (0x4018 ≤ (0x4018 : Word).toNat ∧ (0x4018 : Word).toNat < 0x8000) ∧
    (0x4018 ≤ (0x7FFF : Word).toNat ∧ (0x7FFF : Word).toNat < 0x8000) ∧
    busTarget 0x1800 = busTarget 0x0000 ∧ busTarget 0x0001 ≠ busTarget 0x0000 ∧ busTarget 0x5FFF ≠ busTarget 0x6000 := by
  decide

/-- Addresses on either side of each port that has a side effect. -/
theorem witness_ReadsAreQuietOutsidePorts :
    ([0x0002, 0x2001, 0x2003, 0x3FFE, 0x4002, 0x4015, 0x4017, 0xFFFA].all fun a : Word =>
      !(decide (0x2000 ≤ a.toNat ∧ a.toNat < 0x4000 ∧ (a.toNat % 8 = 2 ∨ a.toNat % 8 = 7))) &&
        decide (a.toNat ≠ 0x4016)) = true := by
  decide

theorem witness_ApuStubReadsZero :
    ([0x4000, 0x4013, 0x4015, 0x4017].all fun a : Word =>
      decide (0x4000 ≤ a.toNat ∧ a.toNat ≤ 0x4017 ∧ a.toNat ≠ 0x4014 ∧ a.toNat ≠ 0x4016)) = true ∧
    ([0x0000, 0x3FFF, 0x4001, 0x4014, 0x4015, 0x4018, 0xFFFF].all fun b : Word =>
      decide (busTarget b ≠ busTarget 0x4000)) = true := by
  decide

/-- Pages at the ends of the storage ranges, and a port page with a transfer of each kind. -/
theorem witness_OamDmaCopiesAPage :
    (0x00 : Byte).toNat < 0x20 ∧ (0x1F : Byte).toNat < 0x20 ∧ 0x41 ≤ (0x41 : Byte).toNat ∧ 0x41 ≤ (0xFF : Byte).toNat ∧
    ([0x20, 0x3F].all fun page : Byte => decide (0x20 ≤ page.toNat ∧ page.toNat < 0x40)) = true ∧
    4 < 256 ∧ 4 % 8 = 4 ∧ 5 % 8 ≠ 4 := by
  decide

theorem witness_ReferenceControllerShiftsButtons :
    { fresh with params := { fresh.params with controller := .reference } }.params.controller = .reference ∧
    (0x01 : Byte).getLsbD 0 = true ∧ (0x00 : Byte).getLsbD 0 = false := by
  decide

theorem witness_StatusReadClearsVblankAndToggle :
    ([0x2002, 0x3FFA].all fun a : Word => decide (0x2000 ≤ a.toNat ∧ a.toNat < 0x4000 ∧ a.toNat % 8 = 2)) = true := by
  decide

/-- The lowest and the highest mirror of every port. -/
theorem witness_PpuPortsLatchWrites :
    ((List.range 8).all fun port =>
      [0x2000 + port, 0x3FF8 + port].all fun n =>
        let a : Word := BitVec.ofNat 16 n
        decide (0x2000 ≤ a.toNat ∧ a.toNat < 0x4000 ∧ a.toNat % 8 = port)) = true := by
  decide

theorem witness_DataPortReadsAndWrites :
    ([0x2007, 0x3FFF].all fun a : Word => decide (0x2000 ≤ a.toNat ∧ a.toNat < 0x4000 ∧ a.toNat % 8 = 7)) = true := by
  decide

theorem witness_OamReadsBackThroughPorts :
    ([0x2003, 0x3FFB, 0x2004, 0x3FFC].all fun a : Word => decide (0x2000 ≤ a.toNat ∧ a.toNat < 0x4000)) = true ∧
    (0x2003 : Word).toNat % 8 = 3 ∧ (0x3FFB : Word).toNat % 8 = 3 ∧
    (0x2004 : Word).toNat % 8 = 4 ∧ (0x3FFC : Word).toNat % 8 = 4 := by
  decide

theorem witness_PaletteAliasesBackdrop :
    ([0x3F00, 0x3F10, 0x3F01, 0x3FFF].all fun a : Word => decide (0x3F00 ≤ a.toNat ∧ a.toNat < 0x4000)) = true := by
  decide

/-- Addresses at both ends, a pair that names one byte and a pair that does not. -/
theorem witness_NameTablesMirror :
    ([0x2000, 0x3EFF, 0x2400, 0x2800].all fun a : Word => decide (0x2000 ≤ a.toNat ∧ a.toNat < 0x3F00)) = true ∧
    fresh.map.mirroring = .horizontal := by
  decide

theorem witness_PositionAfterPpuSteps :
    (atPosition 261 340 fresh.ppu).dot ≤ 340 ∧ (atPosition 261 340 fresh.ppu).scanline ≤ 261 := by
  decide

theorem witness_OneNmiRequestPerFrame :
    (atPosition 241 1 fresh.ppu).dot ≤ 340 ∧ (atPosition 241 1 fresh.ppu).scanline ≤ 261 ∧
    (atPosition 241 1 fresh.ppu).index = 241 * 341 + 1 := by
  decide

/-- A machine at a position with rendering enabled by the background bit. -/
def rendering (line dot : Nat) : State :=
  { fresh with ppu := { atPosition line dot fresh.ppu with regs := { fresh.ppu.regs with mask := 0x08 } } }

/-- Positions at which each clause's premises hold: the first and last tile, evaluation, drawing, the two scroll dots and an idle dot
of a visible line, each dot of the pre-render line, and those of scanlines 240 and 241. -/
theorem witness_PpuStepDoesTheWorkOfItsPosition :
    ((0, 1), (239, 249)) = ((0, 8 * 0 + 1), (239, 8 * 31 + 1)) ∧
    ([(0, 1), (239, 249), (0, 65), (239, 255), (239, 256), (0, 257), (0, 0), (239, 340), (261, 1), (261, 257), (261, 280), (261, 304),
      (261, 0), (261, 340), (240, 0), (241, 1), (240, 1), (241, 0), (260, 340)].all fun e =>
        decide ((rendering e.1 e.2).ppu.dot = e.2 ∧ e.2 ≤ 340 ∧ (rendering e.1 e.2).ppu.scanline = e.1 ∧ e.1 ≤ 261 ∧
          (rendering e.1 e.2).ppu.regs.mask.getLsbD 3 = true)) = true := by
  decide

/-- A column of the first tile, one dropped off the left edge, one of the last tile, and another row. -/
theorem witness_BackgroundPixelsResolvePriority :
    fresh.ppu.fx.toNat = 0 ∧ 0 + 0 = 8 * 0 + 0 ∧ 255 + 0 = 8 * 31 + 7 ∧ (1 ≠ 0 ∨ ∀ i < 8, 0 + 0 ≠ 8 * 0 + i) ∧
    (∀ i < 8, 8 + 0 ≠ 8 * 0 + i) ∧ ((0, 1) : Nat × Nat) ≠ (0, 0) := by
  decide

/-- Rendering disabled, and enabled by the sprite bit alone. -/
theorem witness_SpriteEvalSelectsEight :
    (fresh.ppu.regs.mask.getLsbD 3 = false ∧ fresh.ppu.regs.mask.getLsbD 4 = false) ∧
    (busWrite fresh 0x2001 0x10).ppu.regs.mask.getLsbD 4 = true := by
  decide

theorem witness_SpriteDrawDrawsTheNextRow : 238 < 239 ∧ 239 ≤ 239 ∧ 238 ≠ 238 + 1 ∧ 240 ≠ 238 + 1 := by decide

theorem witness_FiveSerialWritesCommit :
    fresh.map.count = 0 ∧ (∀ b ∈ ([0x01, 0x7F, 0x00, 0x02, 0x01] : List Byte), b.getLsbD 7 = false) ∧
    (0x80 : Byte).getLsbD 7 = true ∧ fresh.cart = some blankCartridge ∧
    (insertCartridge (shiftCartridge 8) fresh).cart = some (shiftCartridge 8) ∧
    0x8000 ≤ (0x8000 : Word).toNat ∧ 0x8000 ≤ (0xFFFF : Word).toNat := by
  decide

theorem witness_PrgIndexStaysInsidePrg :
    fresh.cart = some blankCartridge ∧ 1 ≤ blankCartridge.prgBanks ∧
    (insertCartridge (shiftCartridge 255) fresh).cart = some (shiftCartridge 255) ∧ 1 ≤ (shiftCartridge 255).prgBanks ∧
    0x8000 ≤ (0x8000 : Word).toNat ∧ 0x8000 ≤ (0xFFFF : Word).toNat := by
  decide

theorem witness_ChrIsRomOrRam :
    fresh.cart = some blankCartridge ∧ blankCartridge.chrBanks = 0 ∧
    (insertCartridge { blankCartridge with chrBanks := 1 } fresh).cart = some { blankCartridge with chrBanks := 1 } ∧
    (0x0000 : Word).toNat < 0x2000 ∧ (0x1FFF : Word).toNat < 0x2000 := by
  decide

theorem witness_ResetSetsCpuRegistersOnly : fresh.cart = some blankCartridge := by decide

/-- An image of one PRG bank without CHR data, all zero. -/
def image : List Byte := [0x4E, 0x45, 0x53, 0x1A, 0x01] ++ List.replicate (11 + 16384) 0x00

/-- Each way to fail, and a success: the mapper number at both ends of its ranges, and an image one byte too short. -/
theorem witness_LoadCartridgeOrError :
    (List.replicate 15 (0x4E : Byte)).length < 16 ∧ (List.replicate 16 (0x4E : Byte)).take 4 ≠ [0x4E, 0x45, 0x53, 0x1A] ∧
    ([0x4E, 0x45, 0x53, 0x1A, 0x00] : List Byte).getD 4 0 = 0 ∧
    ¬(image.length < 16 ∨ image.take 4 ≠ [0x4E, 0x45, 0x53, 0x1A] ∨ image.getD 4 0 = 0) ∧
    (image.getD 7 0).toNat / 16 * 16 + (image.getD 6 0).toNat / 16 = 0 ∧
    ((image.set 6 0x10).getD 7 0).toNat / 16 * 16 + ((image.set 6 0x10).getD 6 0).toNat / 16 = 1 ∧
    ((image.set 6 0x20).getD 7 0).toNat / 16 * 16 + ((image.set 6 0x20).getD 6 0).toNat / 16 = 2 ∧
    image.length = 16 + 16384 ∧ (image.dropLast).length < 16 + 16384 ∧
    ¬(image.dropLast.length < 16 ∨ image.dropLast.take 4 ≠ [0x4E, 0x45, 0x53, 0x1A] ∨ image.dropLast.getD 4 0 = 0) := by
  decide +kernel

end Sys2Proof.Tests
end

section
/-! The statements of the state family (10_state.md): a loaded machine runs on, the invariant of R54, returns against calls and
entries, and a step as the instruction at `PC`. -/

namespace Sys2Proof.Machine

/-! ## A loaded machine runs on -/

/-- A step of a machine with a cartridge completes and changes neither the cartridge nor the parameters (R47, R420). -/
theorem step_total {s : State} (hs : s.cart.isSome = true) : ∃ t, step s = .next t ∧ SameMachine s t := by
  obtain ⟨c, hc⟩ := Option.isSome_iff_exists.mp hs
  obtain ⟨u, hu, hsame⟩ := cpuStep_total s
  refine ⟨_, step_loaded hc hu, hsame.trans ?_⟩
  rw [ppuSteps_frame]
  exact SameMachine.refl u

/-- A run goes on from the state after a step that completes. -/
theorem core_run_succ {s t : State} (k : Nat) (h : step s = .next t) :
    Sys2Proof.core.run (k + 1) s = Sys2Proof.core.run k t := by
  have h' : Sys2Proof.core.step s = .next t := h
  simp only [Host.Core.run, h']

/-- Settles O7, by induction on the number of steps: a step completes and keeps the cartridge, so the next one does too. -/
theorem loadedMachineRunsForever : Obligations.LoadedMachineRunsForever := by
  unfold Obligations.LoadedMachineRunsForever
  intro k
  induction k with
  | zero => exact fun s _ => ⟨s, rfl, rfl, rfl⟩
  | succ k ih =>
    intro s hs
    obtain ⟨t, ht, hcart, hparams⟩ := step_total hs
    obtain ⟨u, hu, hcart', hparams'⟩ := ih t (hcart ▸ hs)
    exact ⟨u, (core_run_succ k ht).trans hu, hcart'.trans hcart, hparams'.trans hparams⟩

/-! ## Every step keeps the invariant -/

/-! No flag an instruction computes is the break bit or the unused bit (R26). -/

theorem setZN_inv {s : State} (h : s.Inv) (v : Byte) : (s.setP (setZN v s.cpu.p)).Inv :=
  setP_inv h (by simp) (by simp)

theorem addWithCarry_inv {s : State} (h : s.Inv) (m : Byte) : (addWithCarry m s).Inv :=
  setP_inv (s := s.setA _) h (by simp) (by simp)

theorem compareStatus_inv {s : State} (h : s.Inv) (reg m : Byte) : (s.setP (compareStatus reg m s.cpu.p)).Inv :=
  setP_inv h (by simp) (by simp)

theorem branchInstr_inv {s : State} (h : s.Inv) (i : Instr) (taken : Bool) (off : Byte) : (branchInstr i taken off s).Inv := by
  cases taken with
  | false => exact h
  | true => exact h

theorem flagInstr_inv {s : State} (h : s.Inv) (i : Instr) {f : Flag} (hb : f ≠ .b) (hu : f ≠ .u) (val : Bool) :
    (flagInstr i f val s).Inv :=
  setP_inv h (by simp [hb.symm]) (by simp [hu.symm])

/-- Every instruction keeps the invariant. -/
theorem exec_inv {i : Instr} {s t : State} (h : s.Inv) (ht : exec i s = .next t) : t.Inv := by
  cases i <;> injection ht with ht <;> subst ht
  case lda src => exact readInstr_inv h _ src fun v u hu => setZN_inv (s := u.setA v) hu v
  case ldx src => exact readInstr_inv h _ src fun v u hu => setZN_inv (s := u.setX v) hu v
  case ldy src => exact readInstr_inv h _ src fun v u hu => setZN_inv (s := u.setY v) hu v
  case sta m | stx m | sty m => exact storeInstr_inv h _ m _
  case tax => exact setZN_inv (s := s.setX _) h _
  case tay => exact setZN_inv (s := s.setY _) h _
  case txa | tya => exact setZN_inv (s := s.setA _) h _
  case tsx => exact setZN_inv (s := s.setX _) h _
  case txs => exact h
  case adc src => exact readInstr_inv h _ src fun v _ hu => addWithCarry_inv hu v
  case sbc src => exact readInstr_inv h _ src fun v _ hu => addWithCarry_inv hu (v ^^^ 0xFF)
  case and src | ora src | eor src => exact readInstr_inv h _ src fun _ u hu => setZN_inv (s := u.setA _) hu _
  case cmp src | cpx src | cpy src => exact readInstr_inv h _ src fun v _ hu => compareStatus_inv hu _ v
  case bit src => exact readInstr_inv h _ src fun v u hu => setP_inv hu (by simp) (by simp)
  case inc m | dec m => exact modifyInstr_inv h _ m fun v p => ⟨by simp, by simp⟩
  case inx | dex => exact setZN_inv (s := s.setX _) h _
  case iny | dey => exact setZN_inv (s := s.setY _) h _
  case asl d | lsr d | rol d | ror d => exact shiftInstr_inv h _ d fun v p => ⟨by simp, by simp⟩
  case jmp m => exact resolve_inv h m
  case jsr w => exact pushWord_inv h _
  case rts => exact pullWord_inv h
  case bcc off | bcs off | beq off | bne off | bmi off | bpl off | bvc off | bvs off => exact branchInstr_inv h _ _ off
  case pha | php => exact push_inv h _
  case pla => exact setP_inv (s := (pull s).state.setA _) (pull_inv h) (by simp [pull_eq]) (by simp [pull_eq])
  case plp => exact setPulled_inv (pull_inv h) _
  case clc | sec | cli | sei | cld | sed | clv => exact flagInstr_inv h _ (by decide) (by decide) _
  case nop => exact h
  case brk => exact enterInterrupt_inv h _ _ _
  case rti => exact returnFromInterrupt_inv h
  case unmapped op => exact h

theorem cpuStep_inv {s t : State} (h : s.Inv) (ht : cpuStep s = .next t) : t.Inv :=
  exec_inv (fetchInstr_inv (serviceNmi_inv (s := { s with cycles := 0 }) h)) ht

/-- Settles O10: the CPU step keeps the invariant, and so does each PPU step after it. -/
theorem stepKeepsInv : Obligations.StepKeepsInv := by
  unfold Obligations.StepKeepsInv
  intro s t h ht
  obtain ⟨u, hu, -, rfl⟩ := step_cases ht
  exact ppuSteps_inv (cpuStep_inv h hu) _

/-! ## Every host call keeps the invariant -/

/-- `Init` sets the status to 0x24, whose break bit is 0 and unused bit 1 (R26, R451). -/
theorem hostInit_inv {s : State} (h : s.Inv) : (hostInit s).Inv := ⟨(by decide : (0x24 : Byte) &&& 0x30 = 0x20), h.2⟩

theorem Mapper.loaded_inv (m : Mirroring) : (Mapper.loaded m).Inv :=
  ⟨Nat.zero_le 4, ⟨Sparse.wf_nil _, Sparse.below_nil _⟩, ⟨Sparse.wf_nil _, Sparse.below_nil _⟩⟩

theorem insertCartridge_inv {s : State} {c : Cartridge} (h : s.Inv) (hc : c.Inv) : (insertCartridge c s).Inv := by
  obtain ⟨hcpu, hbus, hppu, -, -⟩ := h
  refine hostInit_inv ⟨hcpu, hbus, hppu, Mapper.loaded_inv _, fun c' hc' => ?_⟩
  obtain rfl : c = c' := Option.some.inj hc'
  exact hc

/-- A cartridge made from an image whose header announces a PRG bank: its bank counts are bytes of the header, and its data are no
longer than the banks they announce (R370 to R372). -/
theorem cartridgeOf_inv {bytes : List Byte} (hprg : bytes.getD 4 0 ≠ 0) (kind : MapperKind) : (cartridgeOf bytes kind).Inv := by
  have hpos : (bytes.getD 4 0).toNat ≠ 0 := fun h => hprg (BitVec.eq_of_toNat_eq h)
  have hp := (bytes.getD 4 0).isLt
  have hc := (bytes.getD 5 0).isLt
  refine ⟨⟨?_, ?_⟩, ?_, ⟨Memory.wf_ofBytes _, Memory.below_ofBytes (List.length_take_le _ _)⟩,
    ⟨Memory.wf_ofBytes _, Memory.below_ofBytes (List.length_take_le _ _)⟩⟩ <;>
    dsimp only [cartridgeOf] <;> omega

/-- An image that parses has passed the check for a PRG bank. -/
theorem parseImage_inv {bytes : List Byte} {c : Cartridge} (h : parseImage bytes = .ok c) : c.Inv := by
  unfold parseImage at h
  split_ifs at h with _ _ hprg <;> cases h
  · exact cartridgeOf_inv hprg .fixed
  · exact cartridgeOf_inv hprg .serialShift

/-- Where a poke is not refused it is the bus write (R84). -/
theorem busPoke_eq_busWrite {s t : State} {a : Word} {v : Byte} (h : busPoke s a v = some t) : t = busWrite s a v := by
  unfold busPoke at h
  unfold busWrite
  split at h <;> simp_all

theorem whenLoaded_inv {s : State} {r : HostReply × State} (h : s.Inv) (hr : r.2.Inv) : (whenLoaded s r).2.Inv := by
  unfold whenLoaded
  split
  · exact hr
  · exact h

/-- Settles O11, by the calls of R470: a load inserts a canonical cartridge, `step_cpu` and `step_ppu` keep the invariant as in a
step, and the others touch nothing the invariant speaks of but one byte of storage. -/
theorem hostCallsKeepInv : Obligations.HostCallsKeepInv := by
  unfold Obligations.HostCallsKeepInv
  intro call s h
  cases call with
  | loadCartridge image =>
    cases image with
    | none => exact h
    | some bytes =>
      simp only [hostCall]
      split
      next => exact h
      next c hp => exact insertCartridge_inv h (parseImage_inv hp)
  | reset => exact whenLoaded_inv h (hostInit_inv h)
  | stepCpu =>
    obtain ⟨t, ht, -⟩ := cpuStep_total s
    simp only [hostCall, ht]
    exact whenLoaded_inv h (cpuStep_inv h ht)
  | stepPpu => exact whenLoaded_inv h (ppuStep_inv h)
  | frameComplete => exact h
  | takeFrame => exact whenLoaded_inv h h
  | buttonDown k | buttonUp k =>
    simp only [hostCall]
    split
    · exact h
    · exact h
  | peek a =>
    simp only [hostCall]
    split
    · exact h
    · exact whenLoaded_inv h h
  | poke a v =>
    simp only [hostCall]
    split
    next t hp => exact busPoke_eq_busWrite hp ▸ busWrite_inv h a v
    next => exact h

/-! ## Returns undo calls and entries -/

/-- A status with `B` 0 and `U` 1 comes back from the byte BRK pushes (R26). -/
theorem pulledStatus_pushedByInstr {p : Byte} (h : p &&& 0x30 = 0x20) : pulledStatus (pushedByInstr p) = p := by
  obtain ⟨hb, hu⟩ := (status_inv_iff p).1 h
  refine status_ext fun f => ?_
  cases f <;> simp [hb, hu]

/-- A status with `B` 0 and `U` 1 comes back from the byte NMI entry pushes (R26). -/
theorem pulledStatus_pushedByNmi {p : Byte} (h : p &&& 0x30 = 0x20) : pulledStatus (pushedByNmi p) = p := by
  obtain ⟨hb, hu⟩ := (status_inv_iff p).1 h
  refine status_ext fun f => ?_
  cases f <;> simp [hb, hu]

/-- Pulling a word gives back the word pushed and the stack pointer of before, whatever else has changed in between (R101). -/
theorem pullWord_pushWord {s t : State} {w : Word} (hs : t.cpu.s = (pushWord w s).cpu.s)
    (hram : t.bus.ram = (pushWord w s).bus.ram) : pullWord t = ⟨w, t.setS s.cpu.s⟩ := by
  simp [pullWord_eq, pushWord_eq, hs, hram, stack_cancel, Memory.read_write, stack_offsets_ne, -BitVec.toNat_sub]

/-- Returning from an exception gives back the CPU registers of before the entry, with the return address in `PC` and the status
that the pushed byte pulls (R422, R429). -/
theorem returnFromInterrupt_enterInterrupt (ret : Word) (pushed : Byte) (vector : Word) (s : State) (h : 0x8000 ≤ vector.toNat)
    (h' : 0x8000 ≤ (vector + 1).toNat) :
    (returnFromInterrupt (enterInterrupt ret pushed vector s)).cpu = { s.cpu with pc := ret, p := pulledStatus pushed } := by
  rw [enterInterrupt_eq _ _ _ _ h h', returnFromInterrupt_eq]
  simp [stack_cancel, Memory.read_write, stack_offsets_ne, -BitVec.toNat_sub]

/-- The cycle count is no business of a return. -/
theorem returnFromInterrupt_charge_cpu (s : State) (n : Cycles) :
    (returnFromInterrupt (s.charge n)).cpu = (returnFromInterrupt s).cpu := by
  simp only [returnFromInterrupt_eq, State.charge_cpu, State.charge_bus]

/-- Settles O37: each return pulls the bytes its call or entry pushed, at offsets of `S` modulo 256. -/
theorem returnsUndoCallsAndEntries : Obligations.ReturnsUndoCallsAndEntries := by
  unfold Obligations.ReturnsUndoCallsAndEntries
  refine fun s => ⟨fun w => ⟨_, _, rfl, rfl, ?_⟩, fun h => ⟨⟨_, _, rfl, rfl, ?_⟩, _, rfl, ?_⟩⟩
  · rw [pullWord_pushWord (s := s) (t := ((pushWord _ s).setPc w).charge _) rfl rfl, pushWord_eq, BitVec.sub_add_cancel]
    rfl
  · rw [State.charge_cpu, returnFromInterrupt_charge_cpu,
      returnFromInterrupt_enterInterrupt _ _ 0xFFFE _ (by decide) (by decide), pulledStatus_pushedByInstr h]
  · rw [State.charge_cpu, nmiEntry,
      returnFromInterrupt_enterInterrupt _ _ 0xFFFA _ (by decide) (by decide), pulledStatus_pushedByNmi h]

/-! ## A step is the instruction at `PC` -/

theorem instr_length_le (i : Instr) : i.length ≤ 3 := by
  show i.mode.length ≤ 3
  cases i.mode <;> decide

/-- The first bytes of a decoded instruction, as many as its length, decode to it alone (R130, R131). -/
theorem decode_take {bytes rest : List Byte} {i : Instr} (h : decode bytes = .ok (i, rest)) :
    decode (bytes.take i.length) = .ok (i, []) := by
  cases bytes with
  | nil => simp [decode] at h
  | cons op bytes =>
    have hform := opcodeForm_ok op
    unfold decode at h
    dsimp only at h
    split at h
    next j hj =>
      rw [hj] at hform
      obtain ⟨-, -, -, hlen⟩ := hform
      cases h
      simp [decode, hj, hlen]
    next f hf =>
      rw [hf] at hform
      split at h
      next b _ =>
        obtain ⟨-, -, -, hlen⟩ := hform b
        cases h
        simp [decode, hf, hlen]
      next => cases h
    next f hf =>
      rw [hf] at hform
      split at h
      next lo hi _ =>
        obtain ⟨-, -, -, hlen⟩ := hform (wordOf hi lo)
        cases h
        simp [decode, hf, hlen]
      next => cases h

@[simp] theorem busValue_setPc (s : State) (v a : Word) : busValue (s.setPc v) a = busValue s a := rfl

@[simp] theorem State.setPc_setPc (s : State) (v w : Word) : (s.setPc v).setPc w = s.setPc w := rfl

/-- Fetching bytes at quiet addresses reads them in this state and moves `PC` past them, and changes nothing else (R72, R133). -/
theorem fetchBytes_quiet {n : Nat} {s : State} (hq : ∀ k < n, quiet (s.cpu.pc + BitVec.ofNat 16 k) = true) :
    fetchBytes n s =
      ⟨(List.range n).map fun k => busValue s (s.cpu.pc + BitVec.ofNat 16 k), s.setPc (s.cpu.pc + BitVec.ofNat 16 n)⟩ := by
  induction n generalizing s with
  | zero => rw [BitVec.add_zero]; rfl
  | succ n ih =>
    have hnext : ∀ k, s.cpu.pc + 1 + BitVec.ofNat 16 k = s.cpu.pc + BitVec.ofNat 16 (k + 1) := by
      intro k
      rw [BitVec.ofNat_add, BitVec.add_assoc, BitVec.add_comm 1]
      rfl
    have hop : quiet s.cpu.pc = true := by simpa using hq 0 (Nat.succ_pos n)
    have hrest := ih (s := s.setPc (s.cpu.pc + 1)) fun k hk => by
      rw [State.setPc_pc, hnext]
      exact hq (k + 1) (Nat.succ_lt_succ hk)
    rw [fetchBytes, fetch8_quiet hop]
    dsimp only
    rw [hrest, State.setPc_pc, hnext, List.range_succ_eq_map]
    simp only [hnext]
    simp

/-- Where the instruction's bytes lie at quiet addresses, fetching it moves `PC` past it and changes nothing else (R23, R133). -/
theorem fetchInstr_quiet {s : State} {i : Instr} {rest : List Byte}
    (h : decode [busValue s s.cpu.pc, busValue s (s.cpu.pc + 1), busValue s (s.cpu.pc + 2)] = .ok (i, rest))
    (hq : ∀ k < i.length, quiet (s.cpu.pc + BitVec.ofNat 16 k) = true) :
    fetchInstr s = ⟨i, s.setPc (s.cpu.pc + BitVec.ofNat 16 i.length)⟩ := by
  have hbytes : [busValue s s.cpu.pc, busValue s (s.cpu.pc + 1), busValue s (s.cpu.pc + 2)] =
      (List.range 3).map fun k => busValue s (s.cpu.pc + BitVec.ofNat 16 k) := by simp [List.range_succ]
  have hdec := decode_take h
  rw [hbytes, ← List.map_take, List.take_range, Nat.min_eq_left (instr_length_le i)] at hdec
  rw [fetchInstr_of_decode (n := i.length) (by rw [fetchBytes_quiet hq]; exact hdec), fetchBytes_quiet hq]

/-- With no request pending, `serviceNmi` does nothing. -/
theorem serviceNmi_none {s : State} (h : s.nmiPending = false) : serviceNmi s = s := by
  simp [serviceNmi, h]

/-- Settles O6: nothing is serviced, the fetch only moves `PC`, and the instruction completes. -/
theorem stepRunsTheInstructionAtPc : Obligations.StepRunsTheInstructionAtPc := by
  unfold Obligations.StepRunsTheInstructionAtPc
  intro s c i rest hc hnmi hdec hq
  have hfetch : fetchInstr { s with cycles := 0 } = _ := fetchInstr_quiet (s := { s with cycles := 0 }) hdec hq
  obtain ⟨t, ht⟩ := exec_total i { s with cpu := { s.cpu with pc := s.cpu.pc + BitVec.ofNat 16 i.length }, cycles := 0 }
  have hstep : cpuStep s = .next t := by
    rw [cpuStep, serviceNmi_none (s := { s with cycles := 0 }) hnmi, hfetch]
    exact ht
  exact ⟨t, ht, step_loaded hc hstep⟩

/-! ## The created machine -/

/-- Settles O9: every storage is empty, so canonical, and every counter is 0. -/
theorem invHoldsAtReset : Obligations.InvHoldsAtReset := by
  unfold Obligations.InvHoldsAtReset
  exact ⟨by decide, by decide, by decide, Mapper.loaded_inv _, by decide⟩

end Sys2Proof.Machine
end

section
/-! The statements of the memory family (20_memory.md): the CPU bus target by target, PPU steps, plain storage, the APU stub, the frame
of the storing instructions, OAM-DMA, the reference controller, the palette and the name tables. -/

namespace Sys2Proof.Machine

/-! ## The decode of the CPU bus, target by target (R71) -/

theorem busTarget_ram_iff (a : Word) (o : Nat) : busTarget a = .ram o ↔ a.toNat < 0x2000 ∧ a.toNat % 0x800 = o := by
  unfold busTarget
  dsimp only
  split_ifs <;> simp <;> omega

theorem busTarget_ppuPort_iff (a : Word) (port : PpuPort) :
    busTarget a = .ppuPort port ↔ 0x2000 ≤ a.toNat ∧ a.toNat < 0x4000 ∧ PpuPort.ofIndex (a.toNat % 8) = port := by
  unfold busTarget
  dsimp only
  split_ifs with hram hport
  · simp; omega
  · simp [hport, Nat.not_lt.1 hram]
  all_goals simp; omega

theorem busTarget_controller_iff (a : Word) : busTarget a = .controller ↔ a.toNat = 0x4016 := by
  unfold busTarget
  dsimp only
  split_ifs <;> simp <;> omega

theorem busTarget_apu_iff (a : Word) (o : Nat) :
    busTarget a = .apu o ↔
      0x4000 ≤ a.toNat ∧ a.toNat < 0x4018 ∧ a.toNat ≠ 0x4014 ∧ a.toNat ≠ 0x4016 ∧ a.toNat = 0x4000 + o := by
  unfold busTarget
  dsimp only
  split_ifs <;> simp <;> omega

theorem busTarget_exp_iff (a : Word) (o : Nat) :
    busTarget a = .exp o ↔ 0x4018 ≤ a.toNat ∧ a.toNat < 0x6000 ∧ a.toNat = 0x4018 + o := by
  unfold busTarget
  dsimp only
  split_ifs <;> simp <;> omega

theorem busTarget_prgRam_iff (a : Word) (o : Nat) :
    busTarget a = .prgRam o ↔ 0x6000 ≤ a.toNat ∧ a.toNat < 0x8000 ∧ a.toNat = 0x6000 + o := by
  unfold busTarget
  dsimp only
  split_ifs <;> simp <;> omega

/-- Each of the eight ports has one index (R34). -/
theorem PpuPort.ofIndex_inj : ∀ m < 8, ∀ n < 8, PpuPort.ofIndex m = PpuPort.ofIndex n → m = n := by decide

/-! ## PPU steps -/

/-- What any number of PPU steps leaves alone: what no dot's work writes, but for the position, which every step advances. -/
def Ppu.StepFrame (p q : Ppu) : Prop :=
  q.regs = { p.regs with status := q.regs.status } ∧ q.oam = p.oam ∧ q.nt = p.nt ∧ q.pal = p.pal ∧
  q.t = p.t ∧ q.fx = p.fx ∧ q.w = p.w ∧ q.rdbuf = p.rdbuf

theorem Ppu.StepFrame.refl (p : Ppu) : p.StepFrame p := ⟨rfl, rfl, rfl, rfl, rfl, rfl, rfl, rfl⟩

theorem Ppu.StepFrame.trans {p q r : Ppu} (h : p.StepFrame q) (h' : q.StepFrame r) : p.StepFrame r := by
  obtain ⟨hregs, hoam, hnt, hpal, ht, hfx, hw, hrdbuf⟩ := h
  obtain ⟨hregs', hoam', hnt', hpal', ht', hfx', hw', hrdbuf'⟩ := h'
  refine ⟨?_, hoam'.trans hoam, hnt'.trans hnt, hpal'.trans hpal, ht'.trans ht, hfx'.trans hfx, hw'.trans hw,
    hrdbuf'.trans hrdbuf⟩
  rw [hregs', hregs]

theorem ppuStep_stepFrame (s : State) : s.ppu.StepFrame (ppuStep s).ppu := by
  rw [(ppuStep_frame s).2]
  exact ⟨rfl, rfl, rfl, rfl, rfl, rfl, rfl, rfl⟩

theorem ppuSteps_stepFrame (n : Nat) (s : State) : s.ppu.StepFrame (ppuSteps n s).ppu := by
  induction n generalizing s with
  | zero => exact .refl s.ppu
  | succ n ih => exact (ppuStep_stepFrame s).trans (ih (ppuStep s))

/-- PPU steps withdraw no NMI request (R310). -/
theorem ppuSteps_nmiPending (n : Nat) {s : State} (h : s.nmiPending = true) : (ppuSteps n s).nmiPending = true := by
  induction n generalizing s with
  | zero => exact h
  | succ n ih => exact ih (by simp [ppuStep, h])

/-- Settles O12, by induction on the number of steps, each of which is a dot's work and an advance. -/
theorem ppuStepsTouchOnlyThePpu : Obligations.PpuStepsTouchOnlyThePpu := by
  unfold Obligations.PpuStepsTouchOnlyThePpu
  exact fun n s => ⟨ppuSteps_frame n s, ppuSteps_nmiPending n, ppuSteps_stepFrame n s⟩

/-! ## Plain storage -/

/-- The addresses of plain storage are those of RAM, expansion storage and PRG-RAM (R74, R77, R78). -/
theorem busTarget_plain {a : Word} (h : a.toNat < 0x2000 ∨ (0x4018 ≤ a.toNat ∧ a.toNat < 0x8000)) :
    ∃ o, busTarget a = .ram o ∨ busTarget a = .exp o ∨ busTarget a = .prgRam o := by
  rcases h with h | ⟨hlo, hhi⟩
  · exact ⟨_, .inl ((busTarget_ram_iff a _).2 ⟨h, rfl⟩)⟩
  · by_cases h6 : a.toNat < 0x6000
    · exact ⟨a.toNat - 0x4018, .inr (.inl ((busTarget_exp_iff a _).2 ⟨hlo, h6, by omega⟩))⟩
    · exact ⟨a.toNat - 0x6000, .inr (.inr ((busTarget_prgRam_iff a _).2 ⟨by omega, hhi, by omega⟩))⟩

/-- A write to plain storage is seen at every address with its target (R85). -/
theorem busValue_busWrite_same {s : State} {a b : Word} {v : Byte}
    (ha : a.toNat < 0x2000 ∨ (0x4018 ≤ a.toNat ∧ a.toNat < 0x8000)) (h : busTarget b = busTarget a) :
    busValue (busWrite s a v) b = v := by
  obtain ⟨o, ho | ho | ho⟩ := busTarget_plain ha <;> simp [busValue, busWrite, h, ho]

/-- What a read depends on of the bytes of storage: only the byte of its own target. -/
theorem busValue_storage_update (s : State) (b : Bus) (m : Memory) {a : Word}
    (hram : ∀ o, busTarget a = .ram o → b.ram.read o = s.bus.ram.read o)
    (hapu : ∀ o, busTarget a = .apu o → b.apu.read o = s.bus.apu.read o)
    (hexp : ∀ o, busTarget a = .exp o → b.exp.read o = s.bus.exp.read o)
    (hprg : ∀ o, busTarget a = .prgRam o → m.read o = s.map.prgRam.read o) :
    busValue { s with bus := b, map := { s.map with prgRam := m } } a = busValue s a := by
  unfold busValue
  split
  case h_1 o ho => exact hram o ho
  case h_5 o ho => simp only [hapu o ho]
  case h_6 o ho => exact hexp o ho
  case h_7 o ho => exact hprg o ho
  all_goals rfl

/-- A write to plain storage is seen at no address with another target. -/
theorem busValue_busWrite_other {s : State} {a b : Word} {v : Byte}
    (ha : a.toNat < 0x2000 ∨ (0x4018 ≤ a.toNat ∧ a.toNat < 0x8000)) (h : busTarget b ≠ busTarget a) :
    busValue (busWrite s a v) b = busValue s b := by
  obtain ⟨o, ho | ho | ho⟩ := busTarget_plain ha <;> rw [ho] at h <;> simp only [busWrite, ho] <;>
    apply busValue_storage_update <;> intro o' ho'
  case inl.hram | inr.inl.hexp | inr.inr.hprg => exact Memory.read_write_other _ _ fun he => h (he ▸ ho')
  all_goals rfl

/-- Settles O38: a write stores one byte at its target's offset, and only RAM has two addresses with one target. -/
theorem writeThenRead : Obligations.WriteThenRead := by
  unfold Obligations.WriteThenRead
  intro s a b v ha
  refine ⟨busValue_busWrite_same ha rfl, ?_, fun ha' hb => ?_, fun hlo => ⟨fun h => ?_, fun h => h ▸ rfl⟩⟩
  · split
    next h => exact busValue_busWrite_same ha h
    next h => exact busValue_busWrite_other ha h
  · rw [(busTarget_ram_iff a _).2 ⟨ha', rfl⟩, busTarget_ram_iff]
    exact and_iff_right hb
  · refine BitVec.eq_of_toNat_eq ?_
    obtain ⟨o, ho | ho | ho⟩ := busTarget_plain ha <;> rw [ho] at h
    · have := ((busTarget_ram_iff a o).1 ho).1
      omega
    · obtain ⟨-, -, hao⟩ := (busTarget_exp_iff a o).1 ho
      obtain ⟨-, -, hbo⟩ := (busTarget_exp_iff b o).1 h
      rw [hao, hbo]
    · obtain ⟨-, -, hao⟩ := (busTarget_prgRam_iff a o).1 ho
      obtain ⟨-, -, hbo⟩ := (busTarget_prgRam_iff b o).1 h
      rw [hao, hbo]

/-! ## Reads with no side effect -/

/-- A read of a PPU port other than status and data changes nothing (R282, R284). -/
theorem ppuRegAfterRead_quiet {s : State} {port : PpuPort} (hs : port ≠ .status) (hd : port ≠ .data) :
    ppuRegAfterRead s port = s := by
  cases port with
  | status => exact absurd rfl hs
  | data => exact absurd rfl hd
  | _ => rfl

/-- Settles O39, by the target: a PPU port with a side effect has index 2 or 7, and the controller port is 0x4016. -/
theorem readsAreQuietOutsidePorts : Obligations.ReadsAreQuietOutsidePorts := by
  unfold Obligations.ReadsAreQuietOutsidePorts
  intro s a hport hctl
  unfold busAfterRead
  split
  next port h =>
    obtain ⟨hlo, hhi, rfl⟩ := (busTarget_ppuPort_iff a port).1 h
    have hindex := PpuPort.ofIndex_inj (a.toNat % 8) (Nat.mod_lt _ (by decide))
    refine ppuRegAfterRead_quiet (fun h => hport ⟨hlo, hhi, .inl ?_⟩) (fun h => hport ⟨hlo, hhi, .inr ?_⟩)
    · exact hindex 2 (by decide) h
    · exact hindex 7 (by decide) h
  next h => exact absurd ((busTarget_controller_iff a).1 h) hctl
  all_goals rfl

/-! ## The APU stub -/

/-- A peek sees a change of the stub only at the stub's own addresses. -/
theorem busPeek_apu_update (s : State) (m : Memory) {a : Word}
    (h : ∀ o, busTarget a = .apu o → m.read o = s.bus.apu.read o) :
    busPeek { s with bus := { s.bus with apu := m } } a = busPeek s a := by
  unfold busPeek
  split
  case h_3 o ho => exact h o ho
  all_goals rfl

/-- What a read of the stub gives: the byte at 0x4015, and 0x00 elsewhere (R80). -/
theorem busValue_apu {s : State} {a : Word} {o : Nat} (h : busTarget a = .apu o) :
    busValue s a = if a.toNat = 0x4015 then busPeek s a else 0x00 := by
  obtain ⟨-, -, -, -, ha⟩ := (busTarget_apu_iff a o).1 h
  have ho : o = 0x15 ↔ a.toNat = 0x4015 := by omega
  simp only [busValue, busPeek, h, ho]

/-- Settles O40: the address decodes to its own offset of the stub, where the write stores its byte. -/
theorem apuStubReadsZero : Obligations.ApuStubReadsZero := by
  unfold Obligations.ApuStubReadsZero
  intro s a v hlo hhi hdma hctl
  have hta : busTarget a = .apu (a.toNat - 0x4000) := (busTarget_apu_iff a _).2 ⟨hlo, by omega, hdma, hctl, by omega⟩
  have hw : busWrite s a v = { s with bus := { s.bus with apu := s.bus.apu.write (a.toNat - 0x4000) v } } := by
    simp only [busWrite, hta]
  have hq : quiet a = true := by simp only [quiet, hta]
  have hpeek : busPeek (busWrite s a v) a = v := by simp [hw, busPeek, hta]
  refine ⟨hta, by rw [hw], fun n => ?_, hpeek, fun b hb => ?_, busValue_apu hta, busAfterRead_quiet hq, ?_,
    busAfterRead_quiet hq⟩
  · rw [hw]
    exact Memory.read_write _ _ n v
  · rw [hw]
    refine busPeek_apu_update s _ fun o ho => Memory.read_write_other _ _ fun he => hb ?_
    rw [ho, hta, he]
  · rw [busValue_apu hta, hpeek]

/-! ## Instructions that store to their operand -/

/-- What a storing instruction does: reads, then one bus write at the operand's effective address, then registers and the cycle
count. Where that address is quiet, the reads are only those that resolve the operand (R73, R100). -/
def StoresAt (m : MemOperand) (s t : State) : Prop :=
  ∃ (u : State) (v : Byte) (cpu : Cpu) (cycles : Cycles),
    ReadFrame s u ∧ (quiet (resolve m s).ea = true → u = (resolve m s).state) ∧
    t = { busWrite u (resolve m s).ea v with cpu := cpu, cycles := cycles }

theorem storeInstr_storesAt (i : Instr) (m : MemOperand) (v : Byte) (s : State) : StoresAt m s (storeInstr i m v s) :=
  ⟨(resolve m s).state, v, _, _, resolve_frame m s, fun _ => rfl, rfl⟩

theorem modifyInstr_storesAt (i : Instr) (m : MemOperand) (f : Byte → Byte → AluOut) (s : State) :
    StoresAt m s (modifyInstr i m f s) :=
  ⟨(busRead (resolve m s).state (resolve m s).ea).state, _, _, _, (resolve_frame m s).read _, busAfterRead_quiet, rfl⟩

theorem exec_storesAt {m : MemOperand} {s t : State} {i : Instr}
    (hi : i ∈ [Instr.sta m, .stx m, .sty m, .inc m, .dec m, .asl (.mem m), .lsr (.mem m), .rol (.mem m), .ror (.mem m)])
    (h : exec i s = .next t) : StoresAt m s t := by
  simp only [List.mem_cons, List.not_mem_nil, or_false] at hi
  rcases hi with rfl | rfl | rfl | rfl | rfl | rfl | rfl | rfl | rfl <;> injection h with h <;> subst h
  · exact storeInstr_storesAt ..
  · exact storeInstr_storesAt ..
  · exact storeInstr_storesAt ..
  all_goals exact modifyInstr_storesAt ..

/-- PRG-RAM is no business of the PPU bus. -/
theorem ppuRead_congr_prgRam {s t : State} (hm : t.map = { s.map with prgRam := t.map.prgRam }) (hc : t.cart = s.cart)
    (hn : t.ppu.nt = s.ppu.nt) (hp : t.ppu.pal = s.ppu.pal) (a : Word) : ppuRead t a = ppuRead s a :=
  (ppuRead_congr (s := { s with map := { s.map with prgRam := t.map.prgRam } }) hm hc hn hp a).trans rfl

/-- Settles O15: the reads leave all storage alone, and the frame of the one bus write is that of the instruction. -/
theorem storingInstructionsTouchOnlyTheirTarget : Obligations.StoringInstructionsTouchOnlyTheirTarget := by
  unfold Obligations.StoringInstructionsTouchOnlyTheirTarget
  intro m s t ea i hi ht hea
  obtain ⟨u, v, cpu, cycles, hu, hquiet, rfl⟩ := exec_storesAt hi ht
  rw [hea] at hquiet ⊢
  have hcart : (busWrite u ea v).cart = s.cart := (busWrite_cart u ea v).trans hu.cart
  refine ⟨hcart, (busWrite_params u ea v).trans hu.params, fun a hq hne hrange => ?_, fun hq hdma hrom => ?_⟩
  · exact (busPeek_write u ea a v hq hne hrange).trans (hu.storage.1 a hq)
  · obtain ⟨hppu, hmap⟩ := busWrite_plain u ea v hq hdma hrom
    rw [hu.map] at hmap
    refine ⟨hppu.trans (congrArg State.ppu (hquiet hq)), hmap, fun a => ?_, fun n => ?_⟩
    · exact ppuRead_congr_prgRam hmap hcart ((congrArg Ppu.nt hppu).trans hu.nt) ((congrArg Ppu.pal hppu).trans hu.pal) a
    · exact congrArg (Memory.read · n) ((congrArg Ppu.oam hppu).trans hu.oam)

/-! ## OAM-DMA -/

/-- The machine with other contents of OAM. -/
def State.setOam (s : State) (m : Memory) : State := { s with ppu := { s.ppu with oam := m } }

@[simp] theorem State.setOam_oam (s : State) (m : Memory) : (s.setOam m).ppu.oam = m := rfl

@[simp] theorem State.setOam_setOam (s : State) (m n : Memory) : (s.setOam m).setOam n = s.setOam n := rfl

@[simp] theorem State.setOam_oamAddr (s : State) (m : Memory) : (s.setOam m).ppu.regs.oamAddr = s.ppu.regs.oamAddr := rfl

/-- No read has a side effect that OAM decides, or one on OAM. -/
theorem busAfterRead_setOam (s : State) (m : Memory) (a : Word) :
    busAfterRead (s.setOam m) a = (busAfterRead s a).setOam m := by
  unfold busAfterRead
  split
  next port _ => cases port <;> rfl
  next =>
    unfold controllerAfterRead State.setOam
    dsimp only
    cases s.params.controller <;> rfl
  all_goals rfl

/-- Only the OAM data port shows OAM on the CPU bus. -/
theorem busValue_setOam {a : Word} (h : busTarget a ≠ .ppuPort .oamData) (s : State) (m : Memory) :
    busValue (s.setOam m) a = busValue s a := by
  unfold busValue
  split
  case h_2 port hport =>
    cases port with
    | oamData => exact absurd hport h
    | _ => rfl
  all_goals rfl

/-- The address the `i`-th byte of a transfer is read from (R300). -/
def dmaSource (page : Byte) (i : Nat) : Word := BitVec.ofNat 16 (page.toNat * 256 + i)

/-- The OAM address the `i`-th byte of a transfer goes to. -/
def dmaSlot (s : State) (i : Nat) : Nat := (s.ppu.regs.oamAddr.toNat + i) % 256

/-- The first `k` reads of a transfer, without what it stores. -/
def dmaReads (page : Byte) (k : Nat) (s : State) : State :=
  (List.range k).foldl (fun u i => busAfterRead u (dmaSource page i)) s

/-- The first `k` bytes of a transfer. -/
def dmaSteps (page : Byte) (k : Nat) (s : State) : State := (List.range k).foldl (oamDmaByte page) s

section
variable {page : Byte} {i : Nat} (hi : i < 256)
include hi

theorem dmaSource_toNat : (dmaSource page i).toNat = page.toNat * 256 + i := by
  have := page.isLt
  rw [dmaSource, BitVec.toNat_ofNat, Nat.mod_eq_of_lt (by omega)]

theorem wordOf_eq_dmaSource : wordOf page (BitVec.ofNat 8 i) = dmaSource page i := by
  rw [BitVec.toNat_eq, toNat_wordOf, dmaSource_toNat hi, BitVec.toNat_ofNat, Nat.mod_eq_of_lt hi]

/-- The transfer reads the OAM data port where its page is one of the ports' and the address has index 4. -/
theorem busTarget_dmaSource_oamData_iff :
    busTarget (dmaSource page i) = .ppuPort .oamData ↔ 0x20 ≤ page.toNat ∧ page.toNat < 0x40 ∧ i % 8 = 4 := by
  have hmod : (page.toNat * 256 + i) % 8 = i % 8 := by omega
  rw [busTarget_ppuPort_iff, dmaSource_toNat hi, hmod]
  have hindex : PpuPort.ofIndex (i % 8) = .oamData ↔ i % 8 = 4 :=
    ⟨PpuPort.ofIndex_inj _ (Nat.mod_lt _ (by decide)) 4 (by decide), fun h => h ▸ rfl⟩
  rw [hindex]
  omega

/-- The pages of storage: all but those of the ports. -/
theorem quiet_dmaSource (hpage : page.toNat < 0x20 ∨ 0x41 ≤ page.toNat) : quiet (dmaSource page i) = true := by
  have := dmaSource_toNat (page := page) hi
  rcases hpage with h | h
  · exact quiet_of_lt (by omega)
  · exact quiet_of_ge (by omega)

end

/-! The reads. -/

theorem dmaReads_succ (page : Byte) (k : Nat) (s : State) :
    dmaReads page (k + 1) s = busAfterRead (dmaReads page k s) (dmaSource page k) := by
  simp only [dmaReads, List.range_succ, List.foldl_append, List.foldl_cons, List.foldl_nil]

theorem dmaReads_frame (page : Byte) (k : Nat) (s : State) :
    ReadFrame s (dmaReads page k s) ∧ (dmaReads page k s).ppu.regs.oamAddr = s.ppu.regs.oamAddr := by
  induction k with
  | zero => exact ⟨.refl s, rfl⟩
  | succ k ih =>
    obtain ⟨hframe, haddr⟩ := ih
    rw [dmaReads_succ]
    exact ⟨hframe.read _, (busAfterRead_oamAddr _ _).trans haddr⟩

theorem dmaReads_quiet {page : Byte} {k : Nat} (hk : k ≤ 256) (hpage : page.toNat < 0x20 ∨ 0x41 ≤ page.toNat) (s : State) :
    dmaReads page k s = s := by
  induction k with
  | zero => rfl
  | succ k ih => rw [dmaReads_succ, ih (by omega), busAfterRead_quiet (quiet_dmaSource (by omega) hpage)]

/-! The transfer. -/

theorem oamDmaByte_eq {i : Nat} (hi : i < 256) (page : Byte) (s : State) :
    oamDmaByte page s i = (busAfterRead s (dmaSource page i)).setOam
      (s.ppu.oam.write (dmaSlot s i) (busValue s (dmaSource page i))) := by
  rw [oamDmaByte, wordOf_eq_dmaSource hi]
  simp only [busAfterRead_oam, busAfterRead_oamAddr]
  rfl

theorem dmaSteps_succ {k : Nat} (hk : k < 256) (page : Byte) (s : State) :
    dmaSteps page (k + 1) s = (busAfterRead (dmaSteps page k s) (dmaSource page k)).setOam
      ((dmaSteps page k s).ppu.oam.write (dmaSlot (dmaSteps page k s) k)
        (busValue (dmaSteps page k s) (dmaSource page k))) := by
  rw [← oamDmaByte_eq hk]
  simp only [dmaSteps, List.range_succ, List.foldl_append, List.foldl_cons, List.foldl_nil]

/-- A transfer is its reads, and changes besides only OAM. -/
theorem dmaSteps_eq_reads {k : Nat} (hk : k ≤ 256) (page : Byte) (s : State) :
    dmaSteps page k s = (dmaReads page k s).setOam (dmaSteps page k s).ppu.oam := by
  induction k with
  | zero => rfl
  | succ k ih =>
    rw [dmaSteps_succ hk, State.setOam_oam, dmaReads_succ]
    generalize Memory.write _ _ _ = m
    rw [ih (by omega), busAfterRead_setOam, State.setOam_setOam]

/-- The OAM address does not move. -/
theorem dmaSteps_oamAddr {k : Nat} (hk : k ≤ 256) (page : Byte) (s : State) :
    (dmaSteps page k s).ppu.regs.oamAddr = s.ppu.regs.oamAddr := by
  rw [dmaSteps_eq_reads hk, State.setOam_oamAddr]
  exact (dmaReads_frame page k s).2

/-- One byte of a transfer goes to the next OAM address. -/
theorem dmaSteps_oam_succ {k : Nat} (hk : k < 256) (page : Byte) (s : State) :
    (dmaSteps page (k + 1) s).ppu.oam =
      (dmaSteps page k s).ppu.oam.write (dmaSlot s k) (busValue (dmaSteps page k s) (dmaSource page k)) := by
  have hslot : dmaSlot (dmaSteps page k s) k = dmaSlot s k := by
    simp only [dmaSlot, dmaSteps_oamAddr (Nat.le_of_lt hk)]
  rw [dmaSteps_succ hk, State.setOam_oam, hslot]

/-- The control register is what the first read of a page of ports gives. -/
theorem busValue_dmaSource_zero {page : Byte} (h : 0x20 ≤ page.toNat ∧ page.toNat < 0x40) (s : State) :
    busValue s (dmaSource page 0) = s.ppu.regs.control := by
  have ht : busTarget (dmaSource page 0) = .ppuPort .control := by
    have hmod : (page.toNat * 256 + 0) % 8 = 0 := by omega
    rw [busTarget_ppuPort_iff, dmaSource_toNat (by decide), hmod]
    exact ⟨by omega, by omega, rfl⟩
  simp only [busValue, ht, ppuRegValue]

/-- Every byte of a transfer so far is at its OAM address: the byte its read gives, but that a read of the OAM data port gives the
first byte of the transfer, the control register. -/
theorem dmaSteps_oam_slot {k : Nat} (hk : k ≤ 256) (page : Byte) (s : State) : ∀ i < k,
    (dmaSteps page k s).ppu.oam.read (dmaSlot s i) =
      if 0x20 ≤ page.toNat ∧ page.toNat < 0x40 ∧ i % 8 = 4 then s.ppu.regs.control
      else busValue (dmaReads page i s) (dmaSource page i) := by
  induction k with
  | zero => exact fun i hi => absurd hi (Nat.not_lt_zero i)
  | succ k ih =>
    intro i hi
    rw [dmaSteps_oam_succ hk]
    rcases Nat.lt_succ_iff_lt_or_eq.1 hi with hlt | rfl
    · have hne : dmaSlot s i ≠ dmaSlot s k := by simp only [dmaSlot]; omega
      rw [Memory.read_write_other _ _ hne]
      exact ih (by omega) i hlt
    · rw [Memory.read_write_same]
      have hown := busTarget_dmaSource_oamData_iff (page := page) (i := i) hk
      have hreads := dmaSteps_eq_reads (k := i) (by omega) page s
      split
      next h =>
        obtain ⟨hlo, hhi, hmod⟩ := h
        have hslot : dmaSlot s 0 = s.ppu.regs.oamAddr.toNat := Nat.mod_eq_of_lt s.ppu.regs.oamAddr.isLt
        have hfirst := ih (by omega) 0 (by omega)
        rw [if_neg (by omega), hslot] at hfirst
        have hvalue : busValue (dmaSteps page i s) (dmaSource page i) =
            (dmaSteps page i s).ppu.oam.read (dmaSteps page i s).ppu.regs.oamAddr.toNat := by
          simp only [busValue, hown.2 ⟨hlo, hhi, hmod⟩, ppuRegValue]
        rw [hvalue, dmaSteps_oamAddr (by omega), hfirst]
        exact busValue_dmaSource_zero ⟨hlo, hhi⟩ s
      next h =>
        rw [hreads]
        exact busValue_setOam (fun ht => h (hown.1 ht)) _ _

/-- A transfer stays inside OAM. -/
theorem dmaSteps_oam_above {k n : Nat} (hk : k ≤ 256) (hn : 256 ≤ n) (page : Byte) (s : State) :
    (dmaSteps page k s).ppu.oam.read n = s.ppu.oam.read n := by
  induction k with
  | zero => rfl
  | succ k ih =>
    have hne : n ≠ dmaSlot s k := by simp only [dmaSlot]; omega
    rw [dmaSteps_oam_succ hk, Memory.read_write_other _ _ hne]
    exact ih (by omega)

theorem busWrite_oamDma (s : State) (page : Byte) : busWrite s 0x4014 page = dmaSteps page 256 s := by
  simp only [busWrite, (busTarget_oamDma_iff 0x4014).2 rfl]
  rfl

/-- Settles O41: the transfer is its reads with OAM changed, by induction on the bytes transferred. -/
theorem oamDmaCopiesAPage : Obligations.OamDmaCopiesAPage := by
  unfold Obligations.OamDmaCopiesAPage
  intro s page t source reads slot ownByte
  have hdma : t = dmaSteps page 256 s := busWrite_oamDma s page
  have hreads : t = (reads 256).setOam t.ppu.oam := hdma ▸ dmaSteps_eq_reads (Nat.le_refl _) page s
  have hslot : ∀ i < 256, t.ppu.oam.read (slot i) =
      if ownByte i then s.ppu.regs.control else busValue (reads i) (source i) :=
    hdma ▸ dmaSteps_oam_slot (Nat.le_refl _) page s
  refine ⟨?_, ?_, hreads, hslot, fun n hn => ?_, fun hpage => ⟨?_, fun i hi => ?_⟩⟩
  · obtain ⟨o, c, p, h⟩ := oamDma_frame page s
    rw [hdma.trans h]
  · rw [hdma]
    exact dmaSteps_oamAddr (Nat.le_refl _) page s
  · rw [hdma]
    exact dmaSteps_oam_above (Nat.le_refl _) hn page s
  · have hquiet : reads 256 = s := dmaReads_quiet (Nat.le_refl _) hpage s
    rw [hquiet] at hreads
    exact hreads
  · have hquiet : reads i = s := dmaReads_quiet (Nat.le_of_lt hi) hpage s
    rw [hslot i hi, if_neg (by omega), hquiet]

/-! ## The reference controller -/

/-- The shift register of the reference controller after `k` reads with the strobe low: the buttons from index `k` on, and then 1s
(R82). -/
def Controller.Shifted (buttons : Byte) (k : Nat) (c : Controller) : Prop :=
  c.strobe = false ∧ ∀ i < 8, c.shift.getLsbD i = (buttons.getLsbD (k + i) || decide (8 ≤ k + i))

theorem busTarget_controllerPort : busTarget 0x4016 = .controller := (busTarget_controller_iff _).2 (by decide)

theorem busAfterRead_controllerPort (s : State) : busAfterRead s 0x4016 = controllerAfterRead s := by
  simp only [busAfterRead, busTarget_controllerPort]

theorem busValue_controllerPort (s : State) : busValue s 0x4016 = controllerValue s := by
  simp only [busValue, busTarget_controllerPort]

theorem busWrite_controllerPort (s : State) (v : Byte) : busWrite s 0x4016 v = controllerWrite s v := by
  simp only [busWrite, busTarget_controllerPort]

/-- A strobe of 1 and then 0 leaves the buttons in the shift register. -/
theorem shifted_after_strobe {s : State} {one zero : Byte} (hc : s.params.controller = .reference)
    (h1 : one.getLsbD 0 = true) (h0 : zero.getLsbD 0 = false) :
    (controllerWrite (controllerWrite s one) zero).ctl.Shifted s.ctl.buttons 0 := by
  simp only [controllerWrite, hc, h1, h0]
  refine ⟨rfl, fun i hi => ?_⟩
  simp [Nat.not_le.2 hi]

/-- The register shifted right by one with a 1 coming in at the top. -/
theorem getLsbD_shift_in (c : Byte) {i : Nat} (hi : i < 8) :
    ((c >>> 1) ||| 0x80).getLsbD i = (c.getLsbD (i + 1) || decide (i = 7)) := by
  interval_cases i <;> simp

/-- A read shifts by one place and fills with 1. -/
theorem shifted_after_read {s : State} {buttons : Byte} {k : Nat} (hc : s.params.controller = .reference)
    (h : s.ctl.Shifted buttons k) : (controllerAfterRead s).ctl.Shifted buttons (k + 1) := by
  obtain ⟨hstrobe, hshift⟩ := h
  simp only [controllerAfterRead, hc, Controller.latched, hstrobe]
  refine ⟨rfl, fun i hi => ?_⟩
  have hk : k + 1 + i = k + (i + 1) := by omega
  simp only [Bool.false_eq_true, if_false]
  rw [getLsbD_shift_in _ hi, hk]
  by_cases h7 : i = 7
  · simp [h7]
  · simp [hshift (i + 1) (by omega), h7]

/-- A read gives the next button, or 1 after the eighth. -/
theorem controllerValue_of_shifted {s : State} {buttons : Byte} {k : Nat} (hc : s.params.controller = .reference)
    (h : s.ctl.Shifted buttons k) :
    controllerValue s = if k < 8 then (if buttons.getLsbD k = true then 0x01 else 0x00) else 0x01 := by
  obtain ⟨hstrobe, hshift⟩ := h
  have h0 := hshift 0 (by omega)
  have hv : controllerValue s = s.ctl.shift &&& 1#8 := by simp [controllerValue, hc, Controller.latched, hstrobe]
  rw [hv, BitVec.and_one_eq_setWidth_ofBool_getLsbD, h0, Nat.add_zero]
  by_cases hk : k < 8
  · rw [if_pos hk, decide_eq_false (Nat.not_le.2 hk), Bool.or_false]
    cases buttons.getLsbD k <;> rfl
  · rw [if_neg hk, decide_eq_true (Nat.le_of_not_lt hk), Bool.or_true]
    rfl

theorem shifted_after_reads {s : State} {buttons : Byte} (hc : s.params.controller = .reference)
    (h : s.ctl.Shifted buttons 0) (k : Nat) :
    (Nat.repeat controllerAfterRead k s).params.controller = .reference ∧
    (Nat.repeat controllerAfterRead k s).ctl.Shifted buttons k := by
  induction k with
  | zero => exact ⟨hc, h⟩
  | succ k ih =>
    obtain ⟨ihc, ih⟩ := ih
    refine ⟨?_, shifted_after_read ihc ih⟩
    rw [Nat.repeat, controllerAfterRead_frame]
    exact ihc

/-- Settles O42, by induction on the number of reads: each gives bit 0 of the shift register and shifts a 1 in at the top. -/
theorem referenceControllerShiftsButtons : Obligations.ReferenceControllerShiftsButtons := by
  unfold Obligations.ReferenceControllerShiftsButtons
  intro s one zero k hc h1 h0
  simp only [busAfterRead_controllerPort, busValue_controllerPort, busWrite_controllerPort]
  have hc' : (controllerWrite (controllerWrite s one) zero).params.controller = .reference := by
    rw [controllerWrite_frame, controllerWrite_frame s]
    exact hc
  obtain ⟨hck, hk⟩ := shifted_after_reads hc' (shifted_after_strobe hc h1 h0) k
  exact controllerValue_of_shifted hck hk

/-! ## The palette -/

/-- The palette slot of an address of the palette range (R94). -/
theorem palIndex_eq (a : Nat) : palIndex a = if a % 4 = 0 then 0 else a % 32 := by
  have : a % 32 % 4 = a % 4 := by omega
  simp only [palIndex, this]

theorem palIndex_eq_iff (a b : Nat) : palIndex b = palIndex a ↔ a % 4 = 0 ∧ b % 4 = 0 ∨ a % 32 = b % 32 := by
  rw [palIndex_eq, palIndex_eq]
  split_ifs <;> omega

theorem ppuRead_palette (s : State) {a : Word} (hlo : 0x3F00 ≤ a.toNat) (hhi : a.toNat < 0x4000) :
    ppuRead s a = s.ppu.pal.read (palIndex a.toNat) := by
  rw [ppuRead, Nat.mod_eq_of_lt hhi, if_neg (by omega), if_neg (by omega)]

theorem ppuWrite_palette (s : State) {a : Word} (v : Byte) (hlo : 0x3F00 ≤ a.toNat) (hhi : a.toNat < 0x4000) :
    ppuWrite s a v = { s with ppu := { s.ppu with pal := s.ppu.pal.write (palIndex a.toNat) v } } := by
  rw [ppuWrite, Nat.mod_eq_of_lt hhi, if_neg (by omega), if_neg (by omega)]

/-- Settles O47: an access is to the byte of the address's slot, and two addresses share a slot as R94 says. -/
theorem paletteAliasesBackdrop : Obligations.PaletteAliasesBackdrop := by
  unfold Obligations.PaletteAliasesBackdrop
  intro s a b v halo hahi hblo hbhi
  simp only [← palIndex_eq, ← palIndex_eq_iff]
  rw [ppuWrite_palette s v halo hahi, ppuRead_palette _ hblo hbhi, ppuRead_palette s hblo hbhi]
  exact ⟨⟨ppuRead_palette s halo hahi, rfl, fun n => Memory.read_write _ _ n v⟩, Memory.read_write _ _ _ v⟩

/-! ## Name-table mirroring -/

theorem ppuRead_nameTable (s : State) {a : Word} (hlo : 0x2000 ≤ a.toNat) (hhi : a.toNat < 0x3F00) :
    ppuRead s a = s.ppu.nt.read (ntIndex s.map.mirroring a.toNat) := by
  rw [ppuRead, Nat.mod_eq_of_lt (by omega), if_neg (by omega), if_pos hhi]

theorem ppuWrite_nameTable (s : State) {a : Word} (v : Byte) (hlo : 0x2000 ≤ a.toNat) (hhi : a.toNat < 0x3F00) :
    ppuWrite s a v = { s with ppu := { s.ppu with nt := s.ppu.nt.write (ntIndex s.map.mirroring a.toNat) v } } := by
  rw [ppuWrite, Nat.mod_eq_of_lt (by omega), if_neg (by omega), if_pos hhi]

/-- The offset in name-table RAM: the physical table of the address's logical table, and the offset in the table (R93). -/
theorem ntIndex_eq (m : Mirroring) (a : Nat) : ntIndex m a = physicalTable m (a / 0x400 % 4) * 0x400 + a % 0x400 := by
  have h1 : a % 0x1000 / 0x400 = a / 0x400 % 4 := by omega
  have h2 : a % 0x1000 % 0x400 = a % 0x400 := by omega
  simp only [ntIndex, h1, h2]

/-- Two addresses name one byte where their physical tables and their offsets in the table agree. -/
theorem ntIndex_eq_iff (m : Mirroring) (a b : Nat) :
    ntIndex m b = ntIndex m a ↔
      physicalTable m (a / 0x400 % 4) = physicalTable m (b / 0x400 % 4) ∧ a % 0x400 = b % 0x400 := by
  rw [ntIndex_eq, ntIndex_eq]
  omega

/-- Horizontal mirroring pairs the logical tables by rows (R93). -/
theorem physicalTable_horizontal {n : Nat} (h : n < 4) : physicalTable .horizontal n = n / 2 := by
  unfold physicalTable
  dsimp only
  split <;> omega

/-- Settles O48: an access is to one byte of name-table RAM, at the physical table that the mode gives. -/
theorem nameTablesMirror : Obligations.NameTablesMirror := by
  unfold Obligations.NameTablesMirror
  intro s a b v halo hahi hblo hbhi ta tb sameTable phys i t
  have hta : physicalTable .horizontal ta = ta / 2 := physicalTable_horizontal (Nat.mod_lt _ (by decide))
  have htb : physicalTable .horizontal tb = tb / 2 := physicalTable_horizontal (Nat.mod_lt _ (by decide))
  have hphys : phys = physicalTable s.map.mirroring ta := by
    simp only [phys]
    cases s.map.mirroring with
    | horizontal => exact hta.symm
    | _ => rfl
  have hsame : sameTable ↔ physicalTable s.map.mirroring ta = physicalTable s.map.mirroring tb := by
    simp only [sameTable]
    cases s.map.mirroring with
    | horizontal => rw [hta, htb]
    | vertical => exact Iff.rfl
    | singleLower | singleUpper => exact iff_of_true trivial rfl
  have hi : i = ntIndex s.map.mirroring a.toNat := by rw [ntIndex_eq, ← hphys]
  have ht : t = { s with ppu := { s.ppu with nt := s.ppu.nt.write i v } } := hi ▸ ppuWrite_nameTable s v halo hahi
  have hb : ppuRead t b = if ntIndex s.map.mirroring b.toNat = i then v else ppuRead s b := by
    rw [ht, ppuRead_nameTable _ hblo hbhi, ppuRead_nameTable s hblo hbhi]
    exact Memory.read_write _ _ _ v
  rw [hsame, ← ntIndex_eq_iff, ← hi]
  refine ⟨⟨hi ▸ ppuRead_nameTable s halo hahi, by rw [ht], fun n => ?_⟩, fun h => hb.trans (if_pos h),
    fun h => hb.trans (if_neg h)⟩
  rw [ht]
  exact Memory.read_write _ _ n v

end Sys2Proof.Machine
end

section
/-! The statements of the encoding family (30_encoding.md): the decoder against the encoder, the words of the spec, a step as the
instruction it fetches, every operand form in numbers, the loads and the stores. -/

namespace Sys2Proof

/-! ## What bytes a table entry takes -/

/-- A table entry, given exactly these operand bytes, stands for this instruction (R131). -/
def Form.Yields : Form → List Byte → Instr → Prop
  | .none j, operands, i => operands = [] ∧ j = i
  | .byte f, operands, i => ∃ b, operands = [b] ∧ f b = i
  | .word f, operands, i => ∃ lo hi, operands = [lo, hi] ∧ f (wordOf hi lo) = i

/-- All that decoding does: it takes an opcode byte and the operand bytes that the byte's table entry asks for (R130, R132). -/
theorem decode_eq_ok_iff {bytes rest : List Byte} {i : Instr} :
    decode bytes = .ok (i, rest) ↔
      ∃ op operands, bytes = op :: operands ++ rest ∧ (opcodeForm op).Yields operands i := by
  constructor
  · intro h
    cases bytes with
    | nil => cases h
    | cons op bytes =>
      unfold decode at h
      dsimp only at h
      split at h
      next j hj =>
        cases h
        exact ⟨op, [], rfl, hj ▸ ⟨rfl, rfl⟩⟩
      next f hf =>
        split at h
        next b _ =>
          cases h
          exact ⟨op, [b], rfl, hf ▸ ⟨b, rfl, rfl⟩⟩
        next => cases h
      next f hf =>
        split at h
        next lo hi _ =>
          cases h
          exact ⟨op, [lo, hi], rfl, hf ▸ ⟨lo, hi, rfl, rfl⟩⟩
        next => cases h
  · rintro ⟨op, operands, rfl, h⟩
    cases hform : opcodeForm op with
    | none j =>
      rw [hform] at h
      obtain ⟨rfl, rfl⟩ := h
      simp [decode, hform]
    | byte f =>
      rw [hform] at h
      obtain ⟨b, rfl, rfl⟩ := h
      simp [decode, hform]
    | word f =>
      rw [hform] at h
      obtain ⟨lo, hi, rfl, rfl⟩ := h
      simp [decode, hform]

/-- What an entry that agrees with the encoder yields is an instruction of the table with those operand bytes. -/
theorem Form.Yields.entryOk {form : Form} {op : Byte} {operands : List Byte} {i : Instr} (h : form.Yields operands i)
    (hok : form.Ok op) : EntryOk op operands i := by
  cases form with
  | none j =>
    obtain ⟨rfl, rfl⟩ := h
    exact hok
  | byte f =>
    obtain ⟨b, rfl, rfl⟩ := h
    exact hok b
  | word f =>
    obtain ⟨lo, hi, rfl, rfl⟩ := h
    simpa only [Machine.loByte_wordOf, Machine.hiByte_wordOf] using hok (wordOf hi lo)

/-! ## Every instruction has its cell in the opcode map -/

/-- The cell of the map for a mnemonic with a memory operand, by mode (R135, R148). -/
def Mode.memCell (f : MemOperand → Instr) : Mode → Option Form
  | .zeropage => some (.zp f)
  | .zeropageX => some (.zpx f)
  | .zeropageY => some (.zpy f)
  | .absolute => some (.abs f)
  | .absoluteX => some (.abx f)
  | .absoluteY => some (.aby f)
  | .indirect => some (.ind f)
  | .indexedIndirect => some (.izx f)
  | .indirectIndexed => some (.izy f)
  | .implied | .accumulator | .immediate | .relative => none

/-- The cell of the map for a mnemonic that reads its operand, by mode. -/
def Mode.sourceCell (f : Source → Instr) : Mode → Option Form
  | .immediate => some (.imm f)
  | m => m.memCell (rd f)

/-- The cell of the map for a shift or rotate, by mode. -/
def Mode.targetCell (f : Target → Instr) : Mode → Option Form
  | .accumulator => some (.acc f)
  | m => m.memCell (md f)

/-- A cell asks for the operand bytes that the encoder writes in its mode, low byte first (R101, R131). -/
theorem memCell_yields {f : MemOperand → Instr} {m : MemOperand} {form : Form} (h : m.mode.memCell f = some form) :
    form.Yields m.bytes (f m) := by
  cases m <;> cases h
  case zeropage b | zeropageX b | zeropageY b | indexedIndirect b | indirectIndexed b => exact ⟨b, rfl, rfl⟩
  case absolute w | absoluteX w | absoluteY w | indirect w =>
    exact ⟨loByte w, hiByte w, rfl, by rw [Machine.wordOf_hi_lo]⟩

theorem sourceCell_yields {f : Source → Instr} {src : Source} {form : Form} (h : src.mode.sourceCell f = some form) :
    form.Yields src.bytes (f src) := by
  cases src with
  | immediate b =>
    cases h
    exact ⟨b, rfl, rfl⟩
  | mem m =>
    have hmem : m.mode.sourceCell f = m.mode.memCell (rd f) := by cases m <;> rfl
    exact memCell_yields (f := rd f) (hmem ▸ h)

theorem targetCell_yields {f : Target → Instr} {d : Target} {form : Form} (h : d.mode.targetCell f = some form) :
    form.Yields d.bytes (f d) := by
  cases d with
  | accumulator =>
    cases h
    exact ⟨rfl, rfl⟩
  | mem m =>
    have hmem : m.mode.targetCell f = m.mode.memCell (md f) := by cases m <;> rfl
    exact memCell_yields (f := md f) (hmem ▸ h)

/-- The encoder's bytes of this instruction are what the map's entry for its opcode byte takes. -/
def Encodes (i : Instr) : Prop := ∃ op, opcodeOf i = some op ∧ (opcodeForm op).Yields i.operandBytes i

/-- For each of the modes, the listing by mnemonic has an opcode byte, and the map has the mode's cell there. -/
def ListingOk (listing : List (Mode × Byte)) (cell : Mode → Option Form) (modes : List Mode) : Prop :=
  ∀ m ∈ modes, ∃ op, listing.lookup m = some op ∧ cell m = some (opcodeForm op)

/-- A mnemonic whose listing agrees with the map, mode by mode, encodes in each of its modes. -/
theorem encodes_of_listing {i : Instr} {modes : List Mode} {cell : Mode → Option Form} (hmode : modes.contains i.mode = true)
    (hcell : ∀ {form}, cell i.mode = some form → form.Yields i.operandBytes i) (h : ListingOk (opcodesOf i) cell modes) :
    Encodes i := by
  obtain ⟨op, hop, hform⟩ := h _ (List.contains_iff_mem.1 hmode)
  exact ⟨op, hop, hcell hform⟩

/-- The listing by mnemonic (R149) and the map (R148) agree on every well-formed instruction: on a mnemonic with an operand mode by
mode, and on the others at their one opcode byte. -/
theorem encodes_of_wellFormed {i : Instr} (h : WellFormed i = true) : Encodes i := by
  cases i
  case lda src | ldx src | ldy src | adc src | sbc src | and src | ora src | eor src | cmp src | cpx src | cpy src | bit src =>
    refine encodes_of_listing h sourceCell_yields fun m hm => ?_
    fin_cases hm <;> exact ⟨_, rfl, rfl⟩
  case sta m | stx m | sty m | inc m | dec m | jmp m =>
    refine encodes_of_listing h memCell_yields fun m hm => ?_
    fin_cases hm <;> exact ⟨_, rfl, rfl⟩
  case asl d | lsr d | rol d | ror d =>
    refine encodes_of_listing h targetCell_yields fun m hm => ?_
    fin_cases hm <;> exact ⟨_, rfl, rfl⟩
  case jsr w => exact ⟨_, rfl, loByte w, hiByte w, rfl, by rw [Machine.wordOf_hi_lo]⟩
  case bcc off | bcs off | beq off | bne off | bmi off | bpl off | bvc off | bvs off => exact ⟨_, rfl, off, rfl, rfl⟩
  case unmapped op =>
    have hop : op ∈ unmappedBytes := List.contains_iff_mem.1 h
    exact ⟨op, by simp [opcodeOf, opcodesOf, hop, Instr.mode], opcodeForm_unmapped hop ▸ ⟨rfl, rfl⟩⟩
  -- what is left has one row, of the implied mode
  all_goals exact ⟨_, rfl, rfl, rfl⟩

/-! ## The round trips -/

/-- Settles O1: the encoder's bytes are what the table entry of its opcode byte takes. -/
theorem decodeOfEncode : Obligations.DecodeOfEncode := by
  unfold Obligations.DecodeOfEncode
  intro i rest h
  obtain ⟨op, hop, hy⟩ := encodes_of_wellFormed h
  exact decode_eq_ok_iff.2 ⟨op, i.operandBytes, by simp [encode, hop], hy⟩

/-- Settles O2: decoding takes what one table entry asks for, and every entry agrees with the encoder. -/
theorem encodeOfDecode : Obligations.EncodeOfDecode := by
  unfold Obligations.EncodeOfDecode
  intro bytes rest i h
  obtain ⟨op, operands, rfl, hy⟩ := decode_eq_ok_iff.1 h
  obtain ⟨hwf, hop, hoperands, -⟩ := hy.entryOk (opcodeForm_ok op)
  exact ⟨hwf, by simp [encode, hop, hoperands]⟩

/-- The operand bytes of a decoded instruction are one fewer than its length, which the first byte's entry fixes (R131, R152). -/
theorem length_of_yields {op : Byte} {operands : List Byte} {i : Instr} (h : (opcodeForm op).Yields operands i) :
    i.length = operands.length + 1 := by
  obtain ⟨-, -, -, hlen⟩ := h.entryOk (opcodeForm_ok op)
  exact hlen

/-- Settles O4, by the three kinds of table entry, which ask for no, one and two operand bytes. -/
theorem everyOpcodeByteDecodes : Obligations.EveryOpcodeByteDecodes := by
  unfold Obligations.EveryOpcodeByteDecodes
  intro op
  cases hform : opcodeForm op with
  | none i =>
    refine ⟨1, by decide, by decide, fun b c rest => ⟨i, ?_⟩⟩
    have hy : (opcodeForm op).Yields [] i := hform ▸ ⟨rfl, rfl⟩
    exact ⟨decode_eq_ok_iff.2 ⟨op, [], rfl, hy⟩, length_of_yields hy⟩
  | byte f =>
    refine ⟨2, by decide, by decide, fun b c rest => ⟨f b, ?_⟩⟩
    have hy : (opcodeForm op).Yields [b] (f b) := hform ▸ ⟨b, rfl, rfl⟩
    exact ⟨decode_eq_ok_iff.2 ⟨op, [b], rfl, hy⟩, length_of_yields hy⟩
  | word f =>
    refine ⟨3, by decide, by decide, fun b c rest => ⟨f (wordOf c b), ?_⟩⟩
    have hy : (opcodeForm op).Yields [b, c] (f (wordOf c b)) := hform ▸ ⟨b, c, rfl, rfl⟩
    exact ⟨decode_eq_ok_iff.2 ⟨op, [b, c], rfl, hy⟩, length_of_yields hy⟩

/-- Settles O3: each word is an opcode byte with the operand bytes that its entry of the map asks for. -/
theorem wordsOfTheSpecDecode : Obligations.WordsOfTheSpecDecode := by
  unfold Obligations.WordsOfTheSpecDecode
  exact ⟨rfl, rfl, rfl, rfl, rfl, rfl, rfl, rfl, rfl, rfl⟩

end Sys2Proof

namespace Sys2Proof.Machine

/-! ## A step is the instruction it fetches -/

theorem nmiEntry_cycles (s : State) : (nmiEntry s).cycles = s.cycles := by
  rw [nmiEntry_eq]

theorem nmiEntry_params (s : State) : (nmiEntry s).params = s.params := by
  rw [nmiEntry_eq]

theorem charge_of_cycles_zero {s : State} (h : s.cycles = 0) (n : Cycles) : s.charge n = { s with cycles := n } := by
  simp [State.charge, h]

/-- Servicing from a count of 0 leaves the NMI's cycles as the count (R133, R422). -/
theorem serviceNmi_start (s : State) :
    serviceNmi { s with cycles := 0 } =
      if s.nmiPending = true then { nmiEntry { s with cycles := 0 } with cycles := s.params.nmiCycles }
      else { s with cycles := 0 } := by
  rw [serviceNmi, charge_of_cycles_zero (nmiEntry_cycles _)]

/-- `step_cpu` of a loaded machine returns the count of its CPU step (R472). -/
theorem hostCall_stepCpu {s t : State} {c : Cartridge} (hc : s.cart = some c) (h : cpuStep s = .next t) :
    hostCall .stepCpu s = (.cycles t.cycles, t) := by
  simp only [hostCall, whenLoaded, hc, h]

/-- Settles O5: the instruction that the fetched bytes decode to completes, and the PPU steps follow it. -/
theorem stepRunsTheFetchedInstruction : Obligations.StepRunsTheFetchedInstruction := by
  unfold Obligations.StepRunsTheFetchedInstruction
  intro s c n i hc start serviced f hdec
  obtain ⟨t, ht⟩ := exec_total i f.state
  have hstep : cpuStep s = .next t := by
    rw [cpuStep, serviceNmi_start, fetchInstr_of_decode hdec]
    exact ht
  exact ⟨t, ht, step_loaded hc hstep, hostCall_stepCpu hc hstep⟩

/-! ## Every operand form in numbers -/

@[simp] theorem toNat_zext16 (b : Byte) : (zext16 b).toNat = b.toNat := by
  have := b.isLt
  rw [zext16, BitVec.toNat_setWidth]
  omega

theorem quiet_zext16 (b : Byte) : quiet (zext16 b) = true := by
  have := b.isLt
  exact quiet_of_lt (by rw [toNat_zext16]; omega)

/-- An address of page 0 from its number, which wraps within the page (R140). -/
theorem zext16_eq_ofNat {b : Byte} {n : Nat} (h : b.toNat = n % 256) : zext16 b = BitVec.ofNat 16 (n % 256) := by
  rw [← h, ← toNat_zext16, BitVec.ofNat_toNat, BitVec.setWidth_eq]

/-- A pointer in page 0 is two bytes, the second after the first within the page; reading them changes nothing (R143, R144). -/
theorem zeropagePointer_eq (s : State) {b : Byte} {n : Nat} (h : b.toNat = n % 256) :
    zeropagePointer s b =
      ⟨wordOf (busValue s (BitVec.ofNat 16 ((n + 1) % 256))) (busValue s (BitVec.ofNat 16 (n % 256))), s⟩ := by
  have hnext : (b + 1).toNat = (n + 1) % 256 := by
    rw [BitVec.toNat_add, h]
    simp
  simp only [zeropagePointer, readPair, busRead, busAfterRead_quiet (quiet_zext16 _)]
  rw [zext16_eq_ofNat h, zext16_eq_ofNat hnext]

/-- The page-cross cycle is there where the high bytes differ (R147). -/
theorem pageCross_eq (a b : Word) : pageCross a b = if b.toNat / 256 = a.toNat / 256 then 0 else 1 := by
  have h : hiByte a = hiByte b ↔ b.toNat / 256 = a.toNat / 256 := by
    rw [BitVec.toNat_eq, toNat_hiByte, toNat_hiByte, eq_comm]
  simp only [pageCross, h]

/-- A resolved operand has this effective address and extra cycle, and left this state. -/
def Resolved.Is (r : Resolved) (ea : Nat) (extra : Cycles) (s : State) : Prop :=
  r.ea.toNat = ea ∧ r.extra = extra ∧ r.state = s

/-- An indexed sum wraps at 0x10000 and costs a cycle where it leaves the page of its base (R145, R147). -/
theorem indexed_is {base : Word} {b : Nat} (hb : base.toNat = b) (index : Byte) (s : State) :
    (indexed base index s).Is ((b + index.toNat) % 0x10000)
      (if (b + index.toNat) % 0x10000 / 256 = b / 256 then 0 else 1) s := by
  have hea : (base + zext16 index).toNat = (b + index.toNat) % 0x10000 := by
    rw [BitVec.toNat_add, toNat_zext16, hb]
  refine ⟨hea, ?_, rfl⟩
  rw [← hea, ← hb]
  exact pageCross_eq _ _

/-- The word of a pointer in page 0, as a number. -/
def pointerAt (s : State) (n : Nat) : Nat :=
  (busValue s (BitVec.ofNat 16 ((n + 1) % 256))).toNat * 256 + (busValue s (BitVec.ofNat 16 (n % 256))).toNat

theorem resolve_indexedIndirect (s : State) (b : Byte) :
    (resolve (.indexedIndirect b) s).Is (pointerAt s (b.toNat + s.cpu.x.toNat)) 0 s := by
  rw [resolve, zeropagePointer_eq s (BitVec.toNat_add b s.cpu.x)]
  exact ⟨toNat_wordOf _ _, rfl, rfl⟩

theorem resolve_indirectIndexed (s : State) (b : Byte) :
    (resolve (.indirectIndexed b) s).Is ((pointerAt s b.toNat + s.cpu.y.toNat) % 0x10000)
      (if (pointerAt s b.toNat + s.cpu.y.toNat) % 0x10000 / 256 = pointerAt s b.toNat / 256 then 0 else 1) s := by
  rw [resolve, zeropagePointer_eq s (Nat.mod_eq_of_lt b.isLt).symm]
  exact indexed_is (toNat_wordOf _ _) _ _

/-! ## The loads -/

/-- A reading instruction whose operation writes CPU registers only: the rest of the machine is as the operand's read left it. -/
theorem readInstr_cpu (i : Instr) (src : Source) (write : Byte → Cpu → Cpu) (s : State) :
    readInstr i src (fun v u => { u with cpu := write v u.cpu }) s =
      { (operandValue src s).state with
        cpu := write (operandValue src s).value s.cpu
        cycles := s.cycles + baseCycles s.params i + (operandValue src s).extra } := by
  have hframe := operandValue_frame src s
  rw [readInstr, State.charge, hframe.cpu, hframe.cycles, BitVec.add_assoc]

/-- Run at `s`, `i` completes as a load of its operand's value: it leaves the registers `cpu`, but for `Z` and `N`, which follow the
value (R170 to R172). -/
def LoadClaim (src : Source) (s : State) (i : Instr) (cpu : Cpu) : Prop :=
  ∃ t, exec i s = .next t ∧ t.cpu = { cpu with p := t.cpu.p } ∧ ZNOf (operandValue src s).value t ∧
    FlagsKeptBut [.z, .n] s t ∧ OnlyCpuDiffers (operandValue src s).state t ∧ StorageKept s t ∧
    t.cycles = s.cycles + readCycles src.mode + (operandValue src s).extra

/-- A reading instruction that puts its operand's value where `load` says and sets `Z` and `N` from it is a load. -/
theorem load_completes {i : Instr} {src : Source} {load : Byte → Cpu → Cpu} {s : State}
    (hexec : exec i s = .next (readInstr i src (fun v u => { u with cpu := { load v u.cpu with p := setZN v u.cpu.p } }) s))
    (hbase : baseCycles s.params i = readCycles src.mode) :
    LoadClaim src s i (load (operandValue src s).value s.cpu) := by
  rw [readInstr_cpu i src (fun v c => { load v c with p := setZN v c.p }), hbase] at hexec
  exact ⟨_, hexec, rfl, .of_setZN rfl, .of_setZN rfl, rfl, .of_onlyCpu (operandValue_frame src s) rfl, rfl⟩

/-- Settles O13: each mode's resolution in numbers, and a load as a reading instruction that writes CPU registers only. -/
theorem loadsTakeTheOperand : Obligations.LoadsTakeTheOperand := by
  unfold Obligations.LoadsTakeTheOperand
  refine ⟨fun s b w => ?_, ⟨rfl, rfl, rfl, rfl, rfl, rfl, rfl, rfl, rfl⟩, fun src s => ⟨?_, ?_, ?_, ?_⟩⟩
  · have sum_in_page0 : ∀ i : Byte, (zext16 (b + i)).toNat = (b.toNat + i.toNat) % 256 := fun i =>
      (toNat_zext16 _).trans (BitVec.toNat_add b i)
    exact ⟨⟨toNat_zext16 b, rfl, rfl⟩, ⟨sum_in_page0 s.cpu.x, rfl, rfl⟩, ⟨sum_in_page0 s.cpu.y, rfl, rfl⟩, ⟨rfl, rfl, rfl⟩,
      indexed_is rfl _ s, indexed_is rfl _ s, resolve_indexedIndirect s b, resolve_indirectIndexed s b⟩
  · cases src with
    | immediate b => exact ⟨rfl, rfl, rfl⟩
    | mem m => exact ⟨rfl, rfl, rfl⟩
  · exact load_completes (load := fun v c => { c with a := v }) rfl rfl
  · exact load_completes (load := fun v c => { c with x := v }) rfl rfl
  · exact load_completes (load := fun v c => { c with y := v }) rfl rfl

/-! ## The stores -/

/-- A store leaves every CPU register and flag as it was. -/
theorem storeInstr_cpu (i : Instr) (m : MemOperand) (v : Byte) (s : State) : (storeInstr i m v s).cpu = s.cpu := by
  rw [storeInstr, State.charge_cpu, busWrite_cpu, (resolve_frame m s).cpu]

/-- Settles O14: a store is one bus write after the reads of its resolution, and its cycles are those of the shared shape. -/
theorem storesWriteTheirRegister : Obligations.StoresWriteTheirRegister := by
  unfold Obligations.StoresWriteTheirRegister
  refine ⟨⟨rfl, rfl, rfl, rfl, rfl, rfl, rfl, rfl⟩, fun m s => ⟨?_, ?_, ?_⟩⟩
  · exact ⟨_, rfl, storeInstr_cpu _ m _ s, rfl, storeInstr_cycles _ m _ s⟩
  · exact ⟨_, rfl, storeInstr_cpu _ m _ s, rfl, storeInstr_cycles _ m _ s⟩
  · exact ⟨_, rfl, storeInstr_cpu _ m _ s, rfl, storeInstr_cycles _ m _ s⟩

end Sys2Proof.Machine
end

section
/-! The statement of the register transfers (40_load_store_transfer.md). -/

namespace Sys2Proof.Machine

/-- Run at `s`, `i` completes in 2 cycles with the registers `cpu`, but for `Z` and `N`, which follow the result `v`; nothing outside
the CPU registers changes. -/
def ResultClaim (s : State) (i : Instr) (v : Byte) (cpu : Cpu) : Prop :=
  ∃ t, exec i s = .next t ∧ t.cpu = { cpu with p := t.cpu.p } ∧ ZNOf v t ∧ FlagsKeptBut [.z, .n] s t ∧
    OnlyCpuDiffers s t ∧ StorageKept s t ∧ t.cycles = s.cycles + 2

/-- An instruction that only writes registers, with the status that `SetZN` gives for its result, and charges 2 cycles. -/
theorem result_completes {s : State} {i : Instr} {v : Byte} {cpu : Cpu}
    (hexec : exec i s = .next { s with cpu := { cpu with p := setZN v s.cpu.p }, cycles := s.cycles + 2 }) :
    ResultClaim s i v cpu :=
  ⟨_, hexec, rfl, .of_setZN rfl, .of_setZN rfl, rfl, .of_onlyCpu (.refl s) rfl, rfl⟩

/-- Settles O16: five transfers set `Z` and `N` from the byte they copy; TXS writes `S` alone, so that its status is the old one. -/
theorem transfersMoveRegisters : Obligations.TransfersMoveRegisters := by
  unfold Obligations.TransfersMoveRegisters
  intro s
  refine ⟨⟨rfl, ?tax⟩, ⟨rfl, ?tay⟩, ⟨rfl, ?txa⟩, ⟨rfl, ?tya⟩, ⟨rfl, ?tsx⟩, ⟨rfl, ?txs⟩⟩
  case tax => exact result_completes (cpu := { s.cpu with x := s.cpu.a }) rfl
  case tay => exact result_completes (cpu := { s.cpu with y := s.cpu.a }) rfl
  case txa => exact result_completes (cpu := { s.cpu with a := s.cpu.x }) rfl
  case tya => exact result_completes (cpu := { s.cpu with a := s.cpu.y }) rfl
  case tsx => exact result_completes (cpu := { s.cpu with x := s.cpu.s }) rfl
  case txs => exact ⟨_, rfl, rfl, rfl, .of_onlyCpu (.refl s) rfl, rfl⟩

end Sys2Proof.Machine
end

section
/-! The statements of the arithmetic and logic family (41_arithmetic_logic.md). -/

namespace Sys2Proof.Machine

/-! ## Reading instructions that write registers only -/

/-- A reading instruction whose operation writes CPU registers only completes with those registers; the rest of the machine is as
the operand's read left it, and the cycles are those of its mode (R134, R169). -/
theorem readInstr_completes {i : Instr} {src : Source} {write : Byte → Cpu → Cpu} {s : State}
    (hexec : exec i s = .next (readInstr i src (fun v u => { u with cpu := write v u.cpu }) s))
    (hbase : baseCycles s.params i = readCycles src.mode) :
    ∃ t, exec i s = .next t ∧ t.cpu = write (operandValue src s).value s.cpu ∧
      OnlyCpuDiffers (operandValue src s).state t ∧ StorageKept s t ∧
      t.cycles = s.cycles + readCycles src.mode + (operandValue src s).extra := by
  rw [readInstr_cpu i src write, hbase] at hexec
  exact ⟨_, hexec, rfl, rfl, .of_onlyCpu (operandValue_frame src s) rfl, rfl⟩

/-! ## ADC and SBC -/

/-- ADC's status computation keeps every flag but the four it writes (R192). -/
theorem FlagsKeptBut.of_adcStatus {a m : Byte} {s t : State} (h : t.cpu.p = adcStatus a m s.cpu.p) :
    FlagsKeptBut [.c, .z, .v, .n] s t := by
  intro f hf
  simp_all

/-- Run at `s`, `i` completes as the binary addition of `m` and the carry to `A`: the sum modulo 256, the unsigned carry, the
two's-complement overflow, `Z` and `N`, and nothing else but what the read of `src` did (R192). -/
def AddClaim (src : Source) (s : State) (i : Instr) (m : Byte) : Prop :=
  let sum := s.cpu.a.toNat + m.toNat + (flag s.cpu.p .c).toNat
  let signed := s.cpu.a.toInt + m.toInt + ((flag s.cpu.p .c).toNat : Int)
  ∃ t, exec i s = .next t ∧
    t.cpu = { s.cpu with a := t.cpu.a, p := t.cpu.p } ∧ t.cpu.a.toNat = sum % 256 ∧
    (flag t.cpu.p .c = true ↔ 0x100 ≤ sum) ∧ (flag t.cpu.p .v = true ↔ (signed < -128 ∨ 127 < signed)) ∧
    ZNOf t.cpu.a t ∧ FlagsKeptBut [.c, .z, .v, .n] s t ∧
    OnlyCpuDiffers (operandValue src s).state t ∧ StorageKept s t ∧
    t.cycles = s.cycles + readCycles src.mode + (operandValue src s).extra

/-- A reading instruction that hands a function of its operand to `addWithCarry` is an addition of that byte. -/
theorem addWithCarry_completes {i : Instr} {src : Source} {s : State} (g : Byte → Byte)
    (hexec : exec i s = .next (readInstr i src (fun v u => addWithCarry (g v) u) s))
    (hbase : baseCycles s.params i = readCycles src.mode) :
    AddClaim src s i (g (operandValue src s).value) := by
  obtain ⟨t, ht, hcpu, honly, hkept, hcycles⟩ := readInstr_completes
    (write := fun v c => { c with a := adcResult c.a (g v) (flag c.p .c), p := adcStatus c.a (g v) c.p }) hexec hbase
  have hp : t.cpu.p = adcStatus s.cpu.a (g (operandValue src s).value) s.cpu.p := congrArg Cpu.p hcpu
  have ha : t.cpu.a = adcResult s.cpu.a (g (operandValue src s).value) (flag s.cpu.p .c) := congrArg Cpu.a hcpu
  refine ⟨t, ht, by rw [hcpu], ?sum, ?carry, ?overflow, ?zn, .of_adcStatus hp, honly, hkept, hcycles⟩
  case sum => exact ha ▸ toNat_adcResult ..
  case carry => simpa [hp] using adcSum_carry ..
  case overflow => simpa [hp] using adc_overflow ..
  case zn => exact .of_flags (by simp [hp, ha]) (by simp [hp, ha])

/-- Settles O17: ADC adds its operand. -/
theorem adcAddsInBinary : Obligations.AdcAddsInBinary := by
  unfold Obligations.AdcAddsInBinary
  exact fun src s => addWithCarry_completes (fun v => v) rfl rfl

/-- A byte with its bits inverted is 255 minus it. -/
theorem toNat_xor_ff (v : Byte) : (v ^^^ 0xFF).toNat = 255 - v.toNat := by
  rw [show v ^^^ 0xFF = ~~~v from BitVec.xor_allOnes, BitVec.toNat_not]

/-- A byte with its bits inverted, as a signed number, is -1 minus it. -/
theorem toInt_xor_ff (v : Byte) : (v ^^^ 0xFF).toInt = -1 - v.toInt := by
  have := v.isLt
  rw [toInt_byte, toInt_byte, toNat_xor_ff]
  split <;> split <;> omega

/-- Settles O18: SBC adds its operand with the bits inverted, 255 minus it, so that the carry stands for the absent borrow. -/
theorem sbcSubtractsWithBorrow : Obligations.SbcSubtractsWithBorrow := by
  unfold Obligations.SbcSubtractsWithBorrow
  intro src s v borrow signed
  obtain ⟨t, ht, hcpu, hsum, hcarry, hoverflow, hzn, hflags, honly, hkept, hcycles⟩ :
      AddClaim src s (.sbc src) (v.value ^^^ 0xFF) := addWithCarry_completes (fun v => v ^^^ 0xFF) rfl rfl
  have hv := v.value.isLt
  have hb : borrow + (flag s.cpu.p .c).toNat = 1 := Nat.sub_add_cancel (Bool.toNat_le _)
  rw [toNat_xor_ff] at hsum hcarry
  rw [toInt_xor_ff] at hoverflow
  refine ⟨t, ht, hcpu, ?_, hcarry.trans ?_, hoverflow.trans ?_, hzn, hflags, honly, hkept, hcycles⟩
  · rw [hsum]
    omega
  · omega
  · omega

/-! ## The decimal flag -/

/-- A bus read neither reads nor writes the status. -/
theorem busRead_setP (s : State) (p : Byte) (a : Word) :
    busRead (s.setP p) a = ⟨(busRead s a).value, (busRead s a).state.setP p⟩ := by
  have hstate : busAfterRead (s.setP p) a = (busAfterRead s a).setP p := by
    rw [State.setP, State.setP, busAfterRead_cpu_update, busAfterRead_cpu]
  exact congrArg (ReadOut.mk (busValue s a)) hstate

theorem readPair_setP (s : State) (p : Byte) (a b : Word) :
    readPair (s.setP p) a b = ⟨(readPair s a b).value, (readPair s a b).state.setP p⟩ := by
  simp only [readPair, busRead_setP]

/-- Reading an operand neither reads nor writes the status. -/
theorem operandValue_setP (src : Source) (s : State) (p : Byte) :
    operandValue src (s.setP p) =
      ⟨(operandValue src s).value, (operandValue src s).extra, (operandValue src s).state.setP p⟩ := by
  have resolve_setP (m : MemOperand) :
      resolve m (s.setP p) = ⟨(resolve m s).ea, (resolve m s).extra, (resolve m s).state.setP p⟩ := by
    cases m with
    | indirect w | indexedIndirect b | indirectIndexed b => simp [resolve, indexed, zeropagePointer, readPair_setP]
    | _ => rfl
  cases src with
  | immediate b => rfl
  | mem m => simp only [operandValue, resolve_setP, busRead_setP]

/-- ADC computes the same status whatever the decimal flag holds, that flag apart. -/
theorem adcStatus_setFlag_d (a m p : Byte) (d : Bool) :
    adcStatus a m (setFlag .d d p) = setFlag .d d (adcStatus a m p) := by
  refine status_ext fun f => ?_
  cases f <;> simp

/-- The machine with its decimal flag at `d`. -/
def State.setD (d : Bool) (s : State) : State := s.setP (setFlag .d d s.cpu.p)

/-- Addition does not look at the decimal flag and leaves it as it was (R191). -/
theorem addWithCarry_setD (m : Byte) (s : State) (d : Bool) : addWithCarry m (s.setD d) = (addWithCarry m s).setD d := by
  simp [addWithCarry, State.setD, State.setP, State.setA, adcStatus_setFlag_d]

/-- A reading instruction takes no notice of the decimal flag where its operation takes none. -/
theorem readInstr_setD {f : Byte → State → State} {d : Bool} (hf : ∀ v u, f v (u.setD d) = (f v u).setD d) (i : Instr)
    (src : Source) (s : State) : readInstr i src f (s.setD d) = (readInstr i src f s).setD d := by
  have hread : operandValue src (s.setD d) =
      ⟨(operandValue src s).value, (operandValue src s).extra, (operandValue src s).state.setD d⟩ := by
    simp only [State.setD, operandValue_setP, (operandValue_frame src s).cpu]
  simp only [readInstr, hread, hf]
  rfl

/-- Settles O19: neither the read of the operand nor the addition takes notice of the decimal flag. -/
theorem decimalFlagHasNoEffect : Obligations.DecimalFlagHasNoEffect := by
  unfold Obligations.DecimalFlagHasNoEffect
  intro src s i hi
  have hadc (d : Bool) := readInstr_setD (fun v u => addWithCarry_setD v u d) (.adc src) src s
  have hsbc (d : Bool) := readInstr_setD (fun v u => addWithCarry_setD (v ^^^ 0xFF) u d) (.sbc src) src s
  simp only [List.mem_cons, List.not_mem_nil, or_false] at hi
  obtain rfl | rfl := hi
  · exact ⟨_, rfl, congrArg _ (hadc true), congrArg _ (hadc false)⟩
  · exact ⟨_, rfl, congrArg _ (hsbc true), congrArg _ (hsbc false)⟩

/-! ## AND, ORA and EOR -/

/-- Run at `s`, `i` completes with `op` of each bit of `A` and of the operand in `A` (R194 to R196). -/
def LogicClaim (src : Source) (s : State) (i : Instr) (op : Bool → Bool → Bool) : Prop :=
  ∃ t, exec i s = .next t ∧ t.cpu = { s.cpu with a := t.cpu.a, p := t.cpu.p } ∧
    (∀ k < 8, t.cpu.a.getLsbD k = op (s.cpu.a.getLsbD k) ((operandValue src s).value.getLsbD k)) ∧
    ZNOf t.cpu.a t ∧ FlagsKeptBut [.z, .n] s t ∧
    OnlyCpuDiffers (operandValue src s).state t ∧ StorageKept s t ∧
    t.cycles = s.cycles + readCycles src.mode + (operandValue src s).extra

/-- A reading instruction that gives a function of `A` and its operand to `logicResult`, where that function works bit by bit. -/
theorem logic_completes {i : Instr} {src : Source} {s : State} {f : Byte → Byte → Byte} {op : Bool → Bool → Bool}
    (hbits : ∀ a v k, (f a v).getLsbD k = op (a.getLsbD k) (v.getLsbD k))
    (hexec : exec i s = .next (readInstr i src (fun v u => logicResult (f u.cpu.a v) u) s))
    (hbase : baseCycles s.params i = readCycles src.mode) : LogicClaim src s i op := by
  obtain ⟨t, ht, hcpu, honly, hkept, hcycles⟩ := readInstr_completes
    (write := fun v c => { c with a := f c.a v, p := setZN (f c.a v) c.p }) hexec hbase
  have hp : t.cpu.p = setZN (f s.cpu.a (operandValue src s).value) s.cpu.p := congrArg Cpu.p hcpu
  have ha : t.cpu.a = f s.cpu.a (operandValue src s).value := congrArg Cpu.a hcpu
  exact ⟨t, ht, by rw [hcpu], fun k _ => by rw [ha, hbits], .of_setZN (ha ▸ hp), .of_setZN hp, honly, hkept, hcycles⟩

/-- Settles O20: the three operations of bytes are those of their bits. -/
theorem logicWorksBitwise : Obligations.LogicWorksBitwise := by
  unfold Obligations.LogicWorksBitwise
  refine fun src s => ⟨?and, ?ora, ?eor⟩
  case and => exact logic_completes (fun _ _ _ => BitVec.getLsbD_and) rfl rfl
  case ora => exact logic_completes (fun _ _ _ => BitVec.getLsbD_or) rfl rfl
  case eor => exact logic_completes (fun _ _ _ => BitVec.getLsbD_xor) rfl rfl

/-! ## Compares and BIT -/

/-- A compare keeps every flag but the three it writes (R197). -/
theorem FlagsKeptBut.of_compareStatus {reg m : Byte} {s t : State} (h : t.cpu.p = compareStatus reg m s.cpu.p) :
    FlagsKeptBut [.c, .z, .n] s t := by
  intro f hf
  simp_all

/-- BIT keeps every flag but the three it writes (R200). -/
theorem FlagsKeptBut.of_bitStatus {a m : Byte} {s t : State} (h : t.cpu.p = bitStatus a m s.cpu.p) :
    FlagsKeptBut [.z, .n, .v] s t := by
  intro f hf
  simp_all

/-- Bit 7 of a difference modulo 256, in numbers. -/
theorem sub_bit7_iff (a m : Byte) : (a - m).getLsbD 7 = true ↔ 0x80 ≤ (a.toNat + 256 - m.toNat) % 256 := by
  have := m.isLt
  have hdiff : (a - m).toNat = (a.toNat + 256 - m.toNat) % 256 := by
    rw [BitVec.toNat_sub]
    omega
  rw [bit7_iff, hdiff]

/-- The and of two bytes is zero where no bit is set in both. -/
theorem and_beq_zero_iff (a m : Byte) :
    ((a &&& m) == 0) = true ↔ ∀ k < 8, a.getLsbD k = false ∨ m.getLsbD k = false := by
  rw [beq_iff_eq, BitVec.eq_of_getLsbD_eq_iff]
  simp only [BitVec.getLsbD_and, BitVec.ofNat_eq_ofNat, BitVec.getLsbD_zero, Bool.and_eq_false_iff]

/-- Run at `s`, `i` completes as a compare of `reg` with the operand (R197 to R199). -/
def CompareClaim (src : Source) (s : State) (i : Instr) (reg : Byte) : Prop :=
  let v := operandValue src s
  ∃ t, exec i s = .next t ∧ t.cpu = { s.cpu with p := t.cpu.p } ∧
    (flag t.cpu.p .c = true ↔ v.value.toNat ≤ reg.toNat) ∧ (flag t.cpu.p .z = true ↔ reg = v.value) ∧
    (flag t.cpu.p .n = true ↔ 0x80 ≤ (reg.toNat + 256 - v.value.toNat) % 256) ∧
    FlagsKeptBut [.c, .z, .n] s t ∧
    OnlyCpuDiffers v.state t ∧ StorageKept s t ∧ t.cycles = s.cycles + readCycles src.mode + v.extra

/-- A reading instruction that takes the status of a compare of one register is a compare of it. -/
theorem compare_completes {i : Instr} {src : Source} {s : State} (reg : Cpu → Byte)
    (hexec : exec i s = .next (readInstr i src (fun v u => u.setP (compareStatus (reg u.cpu) v u.cpu.p)) s))
    (hbase : baseCycles s.params i = readCycles src.mode) : CompareClaim src s i (reg s.cpu) := by
  obtain ⟨t, ht, hcpu, honly, hkept, hcycles⟩ := readInstr_completes
    (write := fun v c => { c with p := compareStatus (reg c) v c.p }) hexec hbase
  have hp : t.cpu.p = compareStatus (reg s.cpu) (operandValue src s).value s.cpu.p := congrArg Cpu.p hcpu
  exact ⟨t, ht, by rw [hcpu], by simp [hp], by simp [hp], by simpa [hp] using sub_bit7_iff .., .of_compareStatus hp,
    honly, hkept, hcycles⟩

/-- Settles O21: the three compares differ in their register. -/
theorem comparesSetCarryZeroNegative : Obligations.ComparesSetCarryZeroNegative := by
  unfold Obligations.ComparesSetCarryZeroNegative
  refine fun src s => ⟨?cmp, ?cpx, ?cpy⟩
  case cmp => exact compare_completes Cpu.a rfl rfl
  case cpx => exact compare_completes Cpu.x rfl rfl
  case cpy => exact compare_completes Cpu.y rfl rfl

/-- Settles O22: BIT writes the status alone, three flags of it. -/
theorem bitTestsTheOperand : Obligations.BitTestsTheOperand := by
  unfold Obligations.BitTestsTheOperand
  intro src s v
  obtain ⟨t, ht, hcpu, honly, hkept, hcycles⟩ := readInstr_completes (i := .bit src) (src := src) (s := s)
    (write := fun v c => { c with p := bitStatus c.a v c.p }) rfl rfl
  have hp : t.cpu.p = bitStatus s.cpu.a v.value s.cpu.p := congrArg Cpu.p hcpu
  refine ⟨t, ht, by rw [hcpu], ?zero, by simp [hp], by simp [hp], .of_bitStatus hp, honly, hkept, hcycles⟩
  case zero => simpa [hp] using and_beq_zero_iff ..

/-! ## Increments and decrements -/

theorem toNat_add_one (b : Byte) : (b + 1).toNat = (b.toNat + 1) % 256 := BitVec.toNat_add b 1

/-- Taking 1 away modulo 256 is adding 255. -/
theorem toNat_sub_one (b : Byte) : (b - 1).toNat = (b.toNat + 255) % 256 := by
  rw [BitVec.toNat_sub, Nat.add_comm]
  rfl

/-- Run at `s`, `i` completes as one read and one write at its operand's effective address, the byte written `n` more than the byte
read, modulo 256 (R190, R201, R202). -/
def ModifyClaim (m : MemOperand) (s : State) (i : Instr) (n : Nat) : Prop :=
  let r := resolve m s
  ∃ (res : Byte) (t : State), exec i s = .next t ∧ res.toNat = ((busValue r.state r.ea).toNat + n) % 256 ∧
    t = { busWrite (busAfterRead r.state r.ea) r.ea res with cpu := t.cpu, cycles := t.cycles } ∧
    t.cpu = { s.cpu with p := t.cpu.p } ∧ ZNOf res t ∧ FlagsKeptBut [.z, .n] s t ∧
    t.cycles = s.cycles + modifyCycles m.mode +
      (if s.params.pageCrossOnAll = true then r.extra else 0) +
      (if r.ea = 0x4014 then s.params.oamDmaCycles else 0)

/-- A read-modify-write changes no CPU register but the status, which is that of its operation. -/
theorem modifyInstr_cpu (i : Instr) (m : MemOperand) (f : Byte → Byte → AluOut) (s : State) :
    (modifyInstr i m f s).cpu =
      { s.cpu with p := (f (busValue (resolve m s).state (resolve m s).ea) s.cpu.p).status } := by
  simp [modifyInstr, busRead, State.setP, (resolve_frame m s).cpu]

/-- A read-modify-write whose operation adds `n` and takes the status `SetZN` gives for the sum. -/
theorem modify_completes {m : MemOperand} {i : Instr} {s : State} {f : Byte → Byte → AluOut} {n : Nat}
    (hresult : ∀ b p, (f b p).result.toNat = (b.toNat + n) % 256) (hstatus : ∀ b p, (f b p).status = setZN (f b p).result p)
    (hexec : exec i s = .next (modifyInstr i m f s)) (hbase : baseCycles s.params i = modifyCycles m.mode) :
    ModifyClaim m s i n := by
  have hcpu := modifyInstr_cpu i m f s
  rw [hstatus] at hcpu
  have hp := congrArg Cpu.p hcpu
  exact ⟨_, _, hexec, hresult _ _, rfl, by rw [hcpu], .of_setZN hp, .of_setZN hp, hbase ▸ modifyInstr_cycles i m f s⟩

/-- Settles O23: INC adds 1 and DEC adds 255. -/
theorem incDecModifyMemory : Obligations.IncDecModifyMemory := by
  unfold Obligations.IncDecModifyMemory
  refine ⟨⟨rfl, rfl, rfl, rfl⟩, fun m s => ⟨?inc, ?dec⟩⟩
  case inc => exact modify_completes (fun b _ => toNat_add_one b) (fun _ _ => rfl) rfl rfl
  case dec => exact modify_completes (fun b _ => toNat_sub_one b) (fun _ _ => rfl) rfl rfl

/-- Run at `s`, `i` completes in 2 cycles with its register `n` more than `before`, modulo 256; `after` reads the register and `cpu`
puts it into the registers of `s` (R203 to R206). -/
def CountClaim (s : State) (i : Instr) (before n : Nat) (after : Cpu → Byte) (cpu : Cpu → Cpu) : Prop :=
  ∃ t, exec i s = .next t ∧ (after t.cpu).toNat = (before + n) % 256 ∧ t.cpu = { cpu t.cpu with p := t.cpu.p } ∧
    ZNOf (after t.cpu) t ∧ FlagsKeptBut [.z, .n] s t ∧
    OnlyCpuDiffers s t ∧ StorageKept s t ∧ t.cycles = s.cycles + 2

/-- An instruction that leaves the result `v` in the register that `put` writes and `get` reads, and no other register changed. -/
theorem count_completes {s : State} {i : Instr} {v : Byte} {before n : Nat} {get : Cpu → Byte} {put : Byte → Cpu → Cpu}
    (hget : ∀ v c p, get { put v c with p := p } = v) (hv : v.toNat = (before + n) % 256)
    (hexec : exec i s = .next { s with cpu := { put v s.cpu with p := setZN v s.cpu.p }, cycles := s.cycles + 2 }) :
    CountClaim s i before n get (fun c => put (get c) s.cpu) := by
  obtain ⟨t, ht, hcpu, hzn, hflags, honly, hkept, hcycles⟩ := result_completes hexec
  obtain rfl : get t.cpu = v := by rw [hcpu, hget]
  exact ⟨t, ht, hv, hcpu, hzn, hflags, honly, hkept, hcycles⟩

/-- Settles O24: each of the four counts its register by 1 or 255. -/
theorem indexRegistersCount : Obligations.IndexRegistersCount := by
  unfold Obligations.IndexRegistersCount
  refine fun s => ⟨⟨rfl, ?inx⟩, ⟨rfl, ?iny⟩, ⟨rfl, ?dex⟩, ⟨rfl, ?dey⟩⟩
  case inx => exact count_completes (put := fun v c => { c with x := v }) (fun _ _ _ => rfl) (toNat_add_one s.cpu.x) rfl
  case iny => exact count_completes (put := fun v c => { c with y := v }) (fun _ _ _ => rfl) (toNat_add_one s.cpu.y) rfl
  case dex => exact count_completes (put := fun v c => { c with x := v }) (fun _ _ _ => rfl) (toNat_sub_one s.cpu.x) rfl
  case dey => exact count_completes (put := fun v c => { c with y := v }) (fun _ _ _ => rfl) (toNat_sub_one s.cpu.y) rfl

end Sys2Proof.Machine
end

section
/-! The statements of the shifts and rotates (42_shift_rotate.md). -/

namespace Sys2Proof.Machine

/-! ## The operation -/

/-- An outcome under the status `p` whose result is the number `res` and whose status has the bit `out` in `C`, and `Z` and `N` from
the result (R220). -/
structure AluOut.IsShift (o : AluOut) (p : Byte) (res out : Nat) : Prop where
  result : o.result.toNat = res
  status : ∃ bit : Bool, bit.toNat = out ∧ o.status = setZN o.result (setFlag .c bit p)

theorem aslOut_isShift (b p : Byte) : (aslOut b p).IsShift p (2 * b.toNat % 256) (b.toNat / 128) :=
  ⟨toNat_aslOut b p, _, toNat_bit7 b, rfl⟩

theorem lsrOut_isShift (b p : Byte) : (lsrOut b p).IsShift p (b.toNat / 2) (b.toNat % 2) :=
  ⟨toNat_lsrOut b p, _, toNat_bit0 b, rfl⟩

theorem rolOut_isShift (b p : Byte) :
    (rolOut b p).IsShift p (2 * b.toNat % 256 + (flag p .c).toNat) (b.toNat / 128) :=
  ⟨toNat_rolOut b p, _, toNat_bit7 b, rfl⟩

theorem rorOut_isShift (b p : Byte) :
    (rorOut b p).IsShift p (b.toNat / 2 + 128 * (flag p .c).toNat) (b.toNat % 2) :=
  ⟨toNat_rorOut b p, _, toNat_bit0 b, rfl⟩

/-- A machine that takes the status of a shift has the bit shifted out in `C`, `Z` and `N` from the result, and the other flags as
they were. -/
theorem AluOut.IsShift.flags {o : AluOut} {s t : State} {res out : Nat} (h : o.IsShift s.cpu.p res out)
    (ht : t.cpu.p = o.status) :
    (flag t.cpu.p .c).toNat = out ∧ ZNOf o.result t ∧ FlagsKeptBut [.c, .z, .n] s t := by
  obtain ⟨bit, hbit, hstatus⟩ := h.status
  have hp : t.cpu.p = setZN o.result (setFlag .c bit s.cpu.p) := ht.trans hstatus
  refine ⟨by simp [hp, hbit], .of_setZN hp, fun f hf => ?kept⟩
  case kept => simp_all

/-! ## On the accumulator -/

/-- Run at `s`, `i` completes in 2 cycles with the number `res` in `A`, the bit `out` in `C`, `Z` and `N` from `A`, and nothing else
changed (R220). -/
def AccumulatorShiftClaim (s : State) (i : Instr) (res out : Nat) : Prop :=
  ∃ t, exec i s = .next t ∧ t.cpu = { s.cpu with a := t.cpu.a, p := t.cpu.p } ∧ t.cpu.a.toNat = res ∧
    (flag t.cpu.p .c).toNat = out ∧ ZNOf t.cpu.a t ∧ FlagsKeptBut [.c, .z, .n] s t ∧
    OnlyCpuDiffers s t ∧ StorageKept s t ∧ t.cycles = s.cycles + 2

/-- A shift of the accumulator puts the outcome of its operation into `A` and `P`. -/
theorem accumulatorShift_completes {s : State} {i : Instr} {f : Byte → Byte → AluOut} {res out : Nat}
    (hshift : (f s.cpu.a s.cpu.p).IsShift s.cpu.p res out)
    (hexec : exec i s = .next (shiftInstr i .accumulator f s)) (hbase : baseCycles s.params i = 2) :
    AccumulatorShiftClaim s i res out := by
  have hcycles : (shiftInstr i .accumulator f s).cycles = s.cycles + 2 := congrArg (s.cycles + ·) hbase
  obtain ⟨hc, hzn, hkept⟩ := hshift.flags (t := shiftInstr i .accumulator f s) rfl
  exact ⟨_, hexec, rfl, hshift.result, hc, hzn, hkept, rfl, .of_onlyCpu (.refl s) rfl, hcycles⟩

/-- Settles O25: each of the four puts a shift of `A` under `P` into `A`. -/
theorem shiftsOfTheAccumulator : Obligations.ShiftsOfTheAccumulator := by
  unfold Obligations.ShiftsOfTheAccumulator
  refine fun s => ⟨?asl, ?lsr, ?rol, ?ror⟩
  case asl => exact accumulatorShift_completes (aslOut_isShift ..) rfl rfl
  case lsr => exact accumulatorShift_completes (lsrOut_isShift ..) rfl rfl
  case rol => exact accumulatorShift_completes (rolOut_isShift ..) rfl rfl
  case ror => exact accumulatorShift_completes (rorOut_isShift ..) rfl rfl

/-! ## On memory -/

/-- Run at `s`, `i` completes as one read and one write at its operand's effective address, the byte written the number `result`, with
the bit `out` in `C`, and `Z` and `N` from the byte written (R220). -/
def MemoryShiftClaim (m : MemOperand) (s : State) (i : Instr) (result out : Nat) : Prop :=
  let r := resolve m s
  ∃ (res : Byte) (t : State), exec i s = .next t ∧ res.toNat = result ∧
    t = { busWrite (busAfterRead r.state r.ea) r.ea res with cpu := t.cpu, cycles := t.cycles } ∧
    t.cpu = { s.cpu with p := t.cpu.p } ∧ (flag t.cpu.p .c).toNat = out ∧ ZNOf res t ∧
    FlagsKeptBut [.c, .z, .n] s t ∧
    t.cycles = s.cycles + modifyCycles m.mode +
      (if s.params.pageCrossOnAll = true then r.extra else 0) +
      (if r.ea = 0x4014 then s.params.oamDmaCycles else 0)

/-- A shift of memory is a read-modify-write with its operation. -/
theorem memoryShift_completes {m : MemOperand} {s : State} {i : Instr} {f : Byte → Byte → AluOut} {res out : Nat}
    (hshift : (f (busValue (resolve m s).state (resolve m s).ea) s.cpu.p).IsShift s.cpu.p res out)
    (hexec : exec i s = .next (modifyInstr i m f s)) (hbase : baseCycles s.params i = modifyCycles m.mode) :
    MemoryShiftClaim m s i res out := by
  have hcpu := modifyInstr_cpu i m f s
  obtain ⟨hc, hzn, hkept⟩ := hshift.flags (congrArg Cpu.p hcpu)
  exact ⟨_, _, hexec, hshift.result, rfl, by rw [hcpu], hc, hzn, hkept, hbase ▸ modifyInstr_cycles i m f s⟩

/-- Settles O26: the byte that each of the four writes is a shift of the byte it reads, under `P`. -/
theorem shiftsOfMemory : Obligations.ShiftsOfMemory := by
  unfold Obligations.ShiftsOfMemory
  refine ⟨⟨rfl, rfl, rfl, rfl⟩, fun m s => ⟨?asl, ?lsr, ?rol, ?ror⟩⟩
  case asl => exact memoryShift_completes (aslOut_isShift ..) rfl rfl
  case lsr => exact memoryShift_completes (lsrOut_isShift ..) rfl rfl
  case rol => exact memoryShift_completes (rolOut_isShift ..) rfl rfl
  case ror => exact memoryShift_completes (rorOut_isShift ..) rfl rfl

end Sys2Proof.Machine
end

section
/-! The statements of the control transfers (43_control_flow.md). -/

namespace Sys2Proof.Machine

/-! ## JSR and RTS -/

/-- After pushing a word, its high byte is where `S` pointed (R101). -/
theorem busPeek_pushWord_high (w : Word) (s : State) : busPeek (pushWord w s) (stackAddr s.cpu.s) = hiByte w := by
  rw [busPeek_stackAddr, pushWord_eq]
  simp [Memory.read_write, stack_offsets_ne, -BitVec.toNat_sub]

/-- After pushing a word, its low byte is one below its high byte, modulo 256 (R101). -/
theorem busPeek_pushWord_low (w : Word) (s : State) : busPeek (pushWord w s) (stackAddr (s.cpu.s - 1)) = loByte w := by
  rw [busPeek_stackAddr, pushWord_eq, Memory.read_write_same]

/-- A push changes one more byte of the CPU bus: the one `S` points to. -/
theorem BusKeptBut.push {stored : List Word} {s t : State} (h : BusKeptBut stored s t) (v : Byte) :
    BusKeptBut (stored ++ [stackAddr t.cpu.s]) s (push v t) := by
  intro a ha hne
  have hpushed : busTarget a ≠ busTarget (stackAddr t.cpu.s) := hne _ (by simp)
  calc busPeek (Machine.push v t) a
      _ = busPeek (busWrite t (stackAddr t.cpu.s) v) a := rfl
      _ = busPeek t a := busPeek_write_ram t v (Nat.lt_trans (stackAddr_lt _) (by decide)) ha hpushed
      _ = busPeek s a := h a ha fun b hb => hne b (List.mem_append_left _ hb)

/-- Pushing a word changes two bytes of the CPU bus (R101). -/
theorem BusKeptBut.pushWord (w : Word) (s : State) :
    BusKeptBut [stackAddr s.cpu.s, stackAddr (s.cpu.s - 1)] s (pushWord w s) :=
  have hnone : BusKeptBut [] s s := fun _ _ _ => rfl
  (hnone.push (hiByte w)).push (loByte w)

/-- Settles O28: JSR pushes the word `PC - 1` and then writes `PC`, which no byte of the bus depends on. -/
theorem jsrPushesAndJumps : Obligations.JsrPushesAndJumps := by
  unfold Obligations.JsrPushesAndJumps
  intro s w
  refine ⟨rfl, _, rfl, ?cpu, ?pushed, BusKeptBut.pushWord (s.cpu.pc - 1) s, ?frame, ?cycles⟩
  case cpu => rw [pushWord_eq]; rfl
  case pushed =>
    calc (busPeek (pushWord (s.cpu.pc - 1) s) (stackAddr s.cpu.s)).toNat * 256 +
          (busPeek (pushWord (s.cpu.pc - 1) s) (stackAddr (s.cpu.s - 1))).toNat
      _ = (wordOf (hiByte (s.cpu.pc - 1)) (loByte (s.cpu.pc - 1))).toNat := by
        rw [busPeek_pushWord_high, busPeek_pushWord_low, toNat_wordOf]
      _ = (s.cpu.pc - 1).toNat := by rw [wordOf_hi_lo]
  case frame => rw [pushWord_eq]; rfl
  case cycles => rw [pushWord_eq]; rfl

/-- A pulled word is the two bytes of the bus above `S`, and the pull changes `S` alone (R101). -/
theorem pullWord_eq_busPeek (s : State) :
    pullWord s =
      ⟨wordOf (busPeek s (stackAddr (s.cpu.s + 2))) (busPeek s (stackAddr (s.cpu.s + 1))), s.setS (s.cpu.s + 2)⟩ := by
  rw [busPeek_stackAddr, busPeek_stackAddr, pullWord_eq]

/-- Settles O29: RTS pulls a word, which changes `S` alone, and continues one past it. -/
theorem rtsPullsAndReturns : Obligations.RtsPullsAndReturns := by
  unfold Obligations.RtsPullsAndReturns
  refine ⟨rfl, fun s => ?_⟩
  have hexec : exec .rts s = .next (((pullWord s).state.setPc ((pullWord s).value + 1)).charge 6) := rfl
  rw [pullWord_eq_busPeek] at hexec
  refine ⟨_, hexec, rfl, ?pc, rfl, .of_onlyCpu (.refl s) rfl, rfl⟩
  case pc =>
    rw [State.charge_cpu, State.setPc_pc, BitVec.toNat_add, toNat_wordOf]
    rfl

/-! ## JMP -/

/-- JMP completes with the effective address of its operand in `PC`; the rest of the machine is as the operand's resolution left it
(R231). -/
theorem jmp_completes (m : MemOperand) (s : State) :
    ∃ t, exec (.jmp m) s = .next t ∧ t.cpu = { s.cpu with pc := (resolve m s).ea } ∧
      OnlyCpuDiffers (resolve m s).state t ∧ StorageKept s t ∧ t.cycles = s.cycles + jumpCycles m.mode := by
  have hframe := resolve_frame m s
  refine ⟨_, rfl, ?cpu, rfl, .of_onlyCpu hframe rfl, ?cycles⟩
  case cpu => rw [← hframe.cpu]; rfl
  case cycles => rw [← hframe.cycles]; rfl

/-- The address of the second pointer byte of the indirect mode, in numbers: it wraps within the page of the first (R142). -/
theorem indirectHigh_eq_ofNat (w : Word) :
    indirectHigh w = BitVec.ofNat 16 (w.toNat / 256 * 256 + (w.toNat + 1) % 256) := by
  have hw := w.isLt
  have hnext : (w + 1).toNat = (w.toNat + 1) % 0x10000 := BitVec.toNat_add w 1
  rw [BitVec.toNat_eq, indirectHigh_eq, toNat_wordOf, toNat_hiByte, toNat_loByte, hnext, BitVec.toNat_ofNat]
  omega

/-- Settles O27: the absolute mode resolves to its word, the indirect mode to the two bytes it reads. -/
theorem jmpLoadsPc : Obligations.JmpLoadsPc := by
  unfold Obligations.JmpLoadsPc
  refine fun s w => ⟨rfl, rfl, jmp_completes (.absolute w) s, ?indirect⟩
  case indirect =>
    intro second s'
    have hresolve : resolve (.indirect w) s =
        ⟨wordOf (busValue s' second) (busValue s w), 0, busAfterRead s' second⟩ := by
      rw [resolve, indirectHigh_eq_ofNat]
      rfl
    obtain ⟨t, ht, hcpu, honly, hkept, hcycles⟩ := jmp_completes (.indirect w) s
    rw [hresolve] at hcpu honly
    exact ⟨t, ht, by rw [hcpu], by rw [hcpu, toNat_wordOf], honly, hkept, hcycles⟩

/-! ## The branches -/

/-- Run at `s`, `i` completes as a branch by `off` that is taken or not: `PC` and the cycles follow that, and nothing else changes
(R235). -/
def BranchClaim (s : State) (off : Byte) (i : Instr) (taken : Bool) : Prop :=
  let target : Int := (s.cpu.pc.toNat + off.toInt) % 0x10000
  ∃ t, exec i s = .next t ∧ t.cpu = { s.cpu with pc := t.cpu.pc } ∧ OnlyCpuDiffers s t ∧ StorageKept s t ∧
    if taken = true then
      (t.cpu.pc.toNat : Int) = target ∧
      t.cycles = s.cycles + (if target / 256 = (s.cpu.pc.toNat / 256 : Nat) then 3 else 4)
    else t.cpu.pc = s.cpu.pc ∧ t.cycles = s.cycles + 2

/-- The cycles of a taken branch: one more than not taken, and one more where the target is in another page (R134, R235). -/
theorem takenCycles_eq (off : Byte) (s : State) :
    2 + (1 + pageCross s.cpu.pc (branchTarget off s)) =
      if (s.cpu.pc.toNat + off.toInt) % 0x10000 / 256 = (s.cpu.pc.toNat / 256 : Nat) then 3 else 4 := by
  have hpage : (s.cpu.pc.toNat + off.toInt) % 0x10000 / 256 = (s.cpu.pc.toNat / 256 : Nat) ↔
      (branchTarget off s).toNat / 256 = s.cpu.pc.toNat / 256 := by
    rw [← toNat_branchTarget]
    omega
  rw [pageCross_eq]
  simp only [hpage]
  split <;> rfl

/-- A conditional branch with a base of 2 cycles completes as its condition says. -/
theorem branch_completes {s : State} {off : Byte} {i : Instr} {taken : Bool}
    (hexec : exec i s = .next (branchInstr i taken off s)) (hbase : baseCycles s.params i = 2) :
    BranchClaim s off i taken := by
  rw [branchInstr, hbase] at hexec
  cases taken with
  | false => exact ⟨_, hexec, rfl, rfl, .of_onlyCpu (.refl s) rfl, rfl, rfl⟩
  | true =>
    exact ⟨_, hexec, rfl, rfl, .of_onlyCpu (.refl s) rfl, toNat_branchTarget off s,
      congrArg (s.cycles + ·) (takenCycles_eq off s)⟩

/-- Settles O30: the eight branches differ in their condition. -/
theorem branchesFollowTheirFlag : Obligations.BranchesFollowTheirFlag := by
  unfold Obligations.BranchesFollowTheirFlag
  refine fun s off => ⟨⟨rfl, ?bcc⟩, ⟨rfl, ?bcs⟩, ⟨rfl, ?bne⟩, ⟨rfl, ?beq⟩, ⟨rfl, ?bpl⟩, ⟨rfl, ?bmi⟩, ⟨rfl, ?bvc⟩, ⟨rfl, ?bvs⟩⟩
  case bcc | bcs | bne | beq | bpl | bmi | bvc | bvs => exact branch_completes rfl rfl

end Sys2Proof.Machine
end

section
/-! The statements of the stack, flag and system instructions (44_stack_flags_system.md). -/

namespace Sys2Proof.Machine

/-! ## Interrupt entry -/

/-- `t` is what an interrupt entry at `s` leaves of the registers and the CPU bus: the frame on the stack is the return address
`ret` and a status with the break bit `b`, `I` is set, and `PC` comes from the vector at `lo` and `hi` (R422, R423, R426). -/
def EntryFrame (s t : State) (ret : Word) (b : Bool) (lo hi : Word) : Prop :=
  t.cpu = { s.cpu with s := s.cpu.s - 3, p := t.cpu.p, pc := t.cpu.pc } ∧
  (busPeek t (stackAddr s.cpu.s)).toNat * 256 + (busPeek t (stackAddr (s.cpu.s - 1))).toNat = ret.toNat ∧
  (∀ f : Flag, flag (busPeek t (stackAddr (s.cpu.s - 2))) f =
    if f = .b then b else if f = .u then true else flag s.cpu.p f) ∧
  flag t.cpu.p .i = true ∧ FlagsKeptBut [.i] s t ∧
  t.cpu.pc.toNat = (busPeek s hi).toNat * 256 + (busPeek s lo).toNat ∧
  BusKeptBut [stackAddr s.cpu.s, stackAddr (s.cpu.s - 1), stackAddr (s.cpu.s - 2)] s t

/-- A flag set or cleared has its value. -/
theorem flag_of_setFlag {f : Flag} {v : Bool} {p : Byte} {t : State} (h : t.cpu.p = setFlag f v p) : flag t.cpu.p f = v := by
  rw [h, flag_setFlag, if_pos rfl]

/-- Setting or clearing a flag keeps every other one. -/
theorem FlagsKeptBut.of_setFlag {f : Flag} {v : Bool} {s t : State} (h : t.cpu.p = setFlag f v s.cpu.p) :
    FlagsKeptBut [f] s t := by
  intro g hg
  rw [h, flag_setFlag, if_neg (List.ne_of_not_mem_cons hg)]

/-- Bytes of the CPU bus stay kept where only CPU registers and the cycle count change. -/
theorem BusKeptBut.of_onlyCpu {stored : List Word} {s t u : State} (h : BusKeptBut stored s t) (hu : OnlyCpuDiffers t u) :
    BusKeptBut stored s u := by
  intro a ha hne
  have hpeek : busPeek u a = busPeek t a := by rw [hu]; rfl
  rw [hpeek, h a ha hne]

section
variable (ret : Word) (pushed : Byte) (s : State) {vector : Word} (h : 0x8000 ≤ vector.toNat) (h' : 0x8000 ≤ (vector + 1).toNat)
include h h'

/-- Beyond three pushes, an interrupt entry changes CPU registers only. -/
theorem enterInterrupt_onlyCpu : OnlyCpuDiffers (push pushed (pushWord ret s)) (enterInterrupt ret pushed vector s) := by
  rw [enterInterrupt_eq _ _ _ _ h h', push_eq, pushWord_eq]
  rfl

/-- The three bytes of the frame, from the top: return address, high byte first, and status (R422). -/
theorem busPeek_enterInterrupt :
    let t := enterInterrupt ret pushed vector s
    busPeek t (stackAddr s.cpu.s) = hiByte ret ∧ busPeek t (stackAddr (s.cpu.s - 1)) = loByte ret ∧
      busPeek t (stackAddr (s.cpu.s - 2)) = pushed := by
  simp [enterInterrupt_eq _ _ _ _ h h', Memory.read_write, stack_offsets_ne, -BitVec.toNat_sub]

/-- An entry changes three bytes of the CPU bus: those of its frame. -/
theorem BusKeptBut.enterInterrupt :
    BusKeptBut [stackAddr s.cpu.s, stackAddr (s.cpu.s - 1), stackAddr (s.cpu.s - 2)] s (enterInterrupt ret pushed vector s) := by
  have hpush := (BusKeptBut.pushWord ret s).push pushed
  rw [show (Machine.pushWord ret s).cpu.s = s.cpu.s - 2 by rw [pushWord_eq]] at hpush
  exact hpush.of_onlyCpu (enterInterrupt_onlyCpu ret pushed s h h')

/-- An entry that pushes a status with break bit `b` leaves the frame with that bit. -/
theorem enterInterrupt_entryFrame {b : Bool}
    (hpushed : ∀ f : Flag, flag pushed f = if f = .b then b else if f = .u then true else flag s.cpu.p f) :
    EntryFrame s (enterInterrupt ret pushed vector s) ret b vector (vector + 1) := by
  obtain ⟨hhi, hlo, hstatus⟩ := busPeek_enterInterrupt ret pushed s h h'
  have heq := congrArg State.cpu (enterInterrupt_eq ret pushed vector s h h')
  have hp : (Machine.enterInterrupt ret pushed vector s).cpu.p = setFlag .i true s.cpu.p := congrArg Cpu.p heq
  refine ⟨?cpu, ?ret, ?status, flag_of_setFlag hp, .of_setFlag hp, ?pc, .enterInterrupt ret pushed s h h'⟩
  case cpu => rw [heq]
  case ret => rw [hhi, hlo, ← toNat_wordOf, wordOf_hi_lo]
  case status => rwa [hstatus]
  case pc => rw [heq, toNat_wordOf]

end

/-- Settles O35: BRK and NMI entry are the one entry sequence, with a return address, a pushed status and a vector of their own. -/
theorem interruptEntrySavesAndJumps : Obligations.InterruptEntrySavesAndJumps := by
  unfold Obligations.InterruptEntrySavesAndJumps
  refine fun s => ⟨⟨rfl, _, rfl, ?brkEntry, ?brkFrame, ?brkCycles⟩, ?nmiEntry, ?nmiPending, ?nmiFrame, nmiEntry_cycles s⟩
  case brkEntry =>
    exact enterInterrupt_entryFrame (vector := 0xFFFE) _ _ s (by decide) (by decide) (flag_pushedByInstr s.cpu.p)
  case brkFrame | brkCycles => rw [enterInterrupt_eq _ _ _ _ (by decide) (by decide)]; rfl
  case nmiEntry =>
    exact enterInterrupt_entryFrame (vector := 0xFFFA) _ _ { s with nmiPending := false } (by decide) (by decide)
      (flag_pushedByNmi s.cpu.p)
  case nmiPending => rw [nmiEntry_eq]
  case nmiFrame => rw [nmiEntry_eq]; rfl

/-! ## Pushes and pulls -/

/-- Run at `s`, `i` completes as a push of `v`, in 3 cycles (R251, R253). -/
def PushClaim (s : State) (i : Instr) (v : Byte) : Prop :=
  ∃ t, exec i s = .next t ∧ t.cpu = { s.cpu with s := s.cpu.s - 1 } ∧ busPeek t (stackAddr s.cpu.s) = v ∧
    BusKeptBut [stackAddr s.cpu.s] s t ∧ OnlyCpuAndRamDiffer s t ∧ t.cycles = s.cycles + 3

theorem push_completes {s : State} {i : Instr} {v : Byte} (hexec : exec i s = .next ((push v s).charge 3)) :
    PushClaim s i v := by
  have hkept : BusKeptBut [stackAddr s.cpu.s] s (push v s) := BusKeptBut.push (stored := []) (fun _ _ _ => rfl) v
  refine ⟨_, hexec, ?cpu, ?pushed, hkept, ?frame, ?cycles⟩
  case pushed => rw [busPeek_stackAddr, State.charge_bus, push_eq, Memory.read_write_same]
  case cpu | frame | cycles => rw [push_eq]; rfl

/-- Settles O31: PHA pushes `A`, PHP the status with bits 4 and 5 set. -/
theorem pushesStoreOneByte : Obligations.PushesStoreOneByte := by
  unfold Obligations.PushesStoreOneByte
  exact fun s => ⟨⟨rfl, push_completes rfl⟩, rfl, push_completes rfl⟩

/-- A pulled byte is the byte of the bus above `S`, and the pull changes `S` alone (R14). -/
theorem pull_eq_busPeek (s : State) : pull s = ⟨busPeek s (stackAddr (s.cpu.s + 1)), s.setS (s.cpu.s + 1)⟩ := by
  rw [busPeek_stackAddr, pull_eq]

/-- Settles O32: each pulls a byte, which changes `S` alone, and puts it into its register. -/
theorem pullsLoadOneByte : Obligations.PullsLoadOneByte := by
  unfold Obligations.PullsLoadOneByte
  refine fun s => ⟨⟨rfl, ?pla⟩, rfl, ?plp⟩
  case pla =>
    have hexec : exec .pla s =
        .next ((((pull s).state.setA (pull s).value).setP (setZN (pull s).value s.cpu.p)).charge 4) := rfl
    rw [pull_eq_busPeek] at hexec
    exact ⟨_, hexec, rfl, .of_setZN rfl, .of_setZN rfl, rfl, .of_onlyCpu (.refl s) rfl, rfl⟩
  case plp =>
    have hexec : exec .plp s = .next (((pull s).state.setP (pulledStatus (pull s).value)).charge 4) := rfl
    rw [pull_eq_busPeek] at hexec
    exact ⟨_, hexec, rfl, flag_pulledStatus _, rfl, .of_onlyCpu (.refl s) rfl, rfl⟩

/-! ## The flag instructions -/

/-- Run at `s`, `i` completes in 2 cycles with the flag `f` at `v` and nothing else changed (R255 to R261). -/
def FlagClaim (s : State) (i : Instr) (f : Flag) (v : Bool) : Prop :=
  ∃ t, exec i s = .next t ∧ t.cpu = { s.cpu with p := t.cpu.p } ∧ flag t.cpu.p f = v ∧ FlagsKeptBut [f] s t ∧
    OnlyCpuDiffers s t ∧ StorageKept s t ∧ t.cycles = s.cycles + 2

theorem flagInstr_completes {s : State} {i : Instr} {f : Flag} {v : Bool} (hexec : exec i s = .next (flagInstr i f v s))
    (hbase : baseCycles s.params i = 2) : FlagClaim s i f v :=
  ⟨_, hexec, rfl, flag_of_setFlag rfl, .of_setFlag rfl, rfl, .of_onlyCpu (.refl s) rfl, congrArg (s.cycles + ·) hbase⟩

/-- Settles O33: the seven differ in their flag and its value. -/
theorem flagInstructionsWriteOneFlag : Obligations.FlagInstructionsWriteOneFlag := by
  unfold Obligations.FlagInstructionsWriteOneFlag
  refine fun s => ⟨⟨rfl, ?clc⟩, ⟨rfl, ?sec⟩, ⟨rfl, ?cli⟩, ⟨rfl, ?sei⟩, ⟨rfl, ?cld⟩, ⟨rfl, ?sed⟩, ⟨rfl, ?clv⟩⟩
  case clc | sec | cli | sei | cld | sed | clv => exact flagInstr_completes rfl rfl

/-! ## NOP and the unmapped bytes -/

/-- An unmapped byte is its own encoding (R151). -/
theorem encode_unmapped {op : Byte} (h : op ∈ unmappedBytes) : encode (.unmapped op) = [op] := by
  simp [encode, opcodeOf, opcodesOf, h, Instr.mode, Instr.operandBytes]

/-- Settles O34: their meaning is the charge of their base cycles, which for an unmapped byte are a parameter. -/
theorem nopsOnlyCountCycles : Obligations.NopsOnlyCountCycles := by
  unfold Obligations.NopsOnlyCountCycles
  exact ⟨rfl, fun s => ⟨rfl, fun op hop => ⟨encode_unmapped hop, rfl⟩⟩⟩

/-! ## RTI -/

/-- Returning from an exception takes three bytes of the bus above `S`, the status first, and changes `S`, `P` and `PC` alone (R264,
R429). -/
theorem returnFromInterrupt_eq_busPeek (s : State) :
    returnFromInterrupt s = { s with
      cpu := { s.cpu with
        s := s.cpu.s + 3
        p := pulledStatus (busPeek s (stackAddr (s.cpu.s + 1)))
        pc := wordOf (busPeek s (stackAddr (s.cpu.s + 3))) (busPeek s (stackAddr (s.cpu.s + 2))) } } := by
  rw [busPeek_stackAddr, busPeek_stackAddr, busPeek_stackAddr, returnFromInterrupt_eq]

/-- Settles O36: RTI is the return from an exception, which pulls the status as PLP does. -/
theorem rtiRestoresStatusAndPc : Obligations.RtiRestoresStatusAndPc := by
  unfold Obligations.RtiRestoresStatusAndPc
  refine ⟨rfl, fun s => ?_⟩
  have hexec : exec .rti s = .next ((returnFromInterrupt s).charge 6) := rfl
  rw [returnFromInterrupt_eq_busPeek] at hexec
  exact ⟨_, hexec, rfl, flag_pulledStatus _, toNat_wordOf _ _, rfl, .of_onlyCpu (.refl s) rfl, rfl⟩

end Sys2Proof.Machine
end

section
/-! The statements of the PPU ports (50_ppu_core.md R280 to R301). -/

namespace Sys2Proof.Machine

/-! ## The port an address selects -/

theorem busTarget_port {a : Word} (hlo : 0x2000 ≤ a.toNat) (hhi : a.toNat < 0x4000) {i : Nat} (hi : a.toNat % 8 = i) :
    busTarget a = .ppuPort (.ofIndex i) :=
  (busTarget_ppuPort_iff a _).2 ⟨hlo, hhi, by rw [hi]⟩

section
variable {a : Word} {port : PpuPort} (h : busTarget a = .ppuPort port) (s : State)
include h

theorem busValue_port : busValue s a = ppuRegValue s port := by simp only [busValue, h]

theorem busAfterRead_port : busAfterRead s a = ppuRegAfterRead s port := by simp only [busAfterRead, h]

theorem busWrite_port (val : Byte) : busWrite s a val = ppuRegWrite s port val := by simp only [busWrite, h]

theorem busPeek_port : busPeek s a = ppuRegValue s port := by simp only [busPeek, h]

end

/-! ## The status port -/

/-- Settles O43: the status port is index 2, and its read masks bit 7 out of the register. -/
theorem statusReadClearsVblankAndToggle : Obligations.StatusReadClearsVblankAndToggle := by
  unfold Obligations.StatusReadClearsVblankAndToggle
  intro s a hlo hhi hport
  have h : busTarget a = .ppuPort .status := busTarget_port hlo hhi hport
  rw [busAfterRead_port h]
  refine ⟨busValue_port h s, rfl, fun k hk => ?_⟩
  have hmask : ∀ j < 8, (0x7F : Byte).getLsbD j = (j != 7) := by decide
  rw [← hmask k hk]
  exact BitVec.getLsbD_and

/-! ## The latches of the scroll register `t` in numbers (R291, R296, R297) -/

/-- A field of a bit vector as a number. -/
theorem toNat_extractLsb'_eq {n : Nat} (x : BitVec n) (start len : Nat) :
    (x.extractLsb' start len).toNat = x.toNat / 2 ^ start % 2 ^ len := by
  rw [BitVec.extractLsb'_toNat, Nat.shiftRight_eq_div_pow]

theorem latchNameTable_toNat (val : Byte) (t : Scroll) :
    (latchNameTable val t).toNat = t.toNat / 4096 * 4096 + val.toNat % 4 * 1024 + t.toNat % 1024 := by
  have h := t.isLt
  have : latchNameTable val t = t.extractLsb' 12 3 ++ (val.extractLsb' 0 2 ++ t.extractLsb' 0 10) := by
    refine BitVec.eq_of_getLsbD_eq fun i hi => ?_
    simp only [latchNameTable, BitVec.getLsbD_append, BitVec.getLsbD_extractLsb']
    interval_cases i <;> simp
  rw [this]
  simp only [toNat_append', toNat_extractLsb'_eq]
  omega

theorem latchCoarseX_toNat (val : Byte) (t : Scroll) :
    (latchCoarseX val t).toNat = t.toNat / 32 * 32 + val.toNat / 8 := by
  have h := t.isLt
  have h' := val.isLt
  have : latchCoarseX val t = t.extractLsb' 5 10 ++ val.extractLsb' 3 5 := by
    refine BitVec.eq_of_getLsbD_eq fun i hi => ?_
    simp only [latchCoarseX, BitVec.getLsbD_append, BitVec.getLsbD_extractLsb']
    interval_cases i <;> simp
  rw [this]
  simp only [toNat_append', toNat_extractLsb'_eq]
  omega

theorem latchY_toNat (val : Byte) (t : Scroll) :
    (latchY val t).toNat = val.toNat % 8 * 4096 + t.toNat / 1024 % 4 * 1024 + val.toNat / 8 * 32 + t.toNat % 32 := by
  have h := val.isLt
  have : latchY val t =
      val.extractLsb' 0 3 ++ (t.extractLsb' 10 2 ++ (val.extractLsb' 3 5 ++ t.extractLsb' 0 5)) := by
    refine BitVec.eq_of_getLsbD_eq fun i hi => ?_
    simp only [latchY, BitVec.getLsbD_append, BitVec.getLsbD_extractLsb']
    interval_cases i <;> simp
  rw [this]
  simp only [toNat_append', toNat_extractLsb'_eq]
  omega

theorem latchAddrHigh_toNat (val : Byte) (t : Scroll) :
    (latchAddrHigh val t).toNat = val.toNat % 64 * 256 + t.toNat % 256 := by
  have : latchAddrHigh val t = 0#1 ++ (val.extractLsb' 0 6 ++ t.extractLsb' 0 8) := by
    refine BitVec.eq_of_getLsbD_eq fun i hi => ?_
    simp only [latchAddrHigh, BitVec.getLsbD_append, BitVec.getLsbD_extractLsb']
    interval_cases i <;> simp
  rw [this]
  simp only [toNat_append', toNat_extractLsb'_eq, BitVec.toNat_ofNat]
  omega

theorem latchAddrLow_toNat (val : Byte) (t : Scroll) :
    (latchAddrLow val t).toNat = t.toNat / 256 * 256 + val.toNat := by
  have h := t.isLt
  have : latchAddrLow val t = t.extractLsb' 8 7 ++ val := by
    refine BitVec.eq_of_getLsbD_eq fun i hi => ?_
    simp only [latchAddrLow, BitVec.getLsbD_append, BitVec.getLsbD_extractLsb']
    interval_cases i <;> simp
  rw [this]
  simp only [toNat_append', toNat_extractLsb'_eq]
  omega

/-! ## The ports that read as last written -/

/-- Both halves of a scroll-port write at once (R296). -/
theorem scrollWrite_eq (val : Byte) (p : Ppu) :
    scrollWrite val p = { p with
      t := if p.w = true then latchY val p.t else latchCoarseX val p.t
      fx := if p.w = true then p.fx else BitVec.ofNat 3 val.toNat
      w := !p.w
      regs := { p.regs with scroll := val } } := by
  unfold scrollWrite
  rw [BitVec.ofNat_toNat]
  cases h : p.w <;> rfl

/-- Both halves of an address-port write at once (R297). -/
theorem addressWrite_eq (val : Byte) (p : Ppu) :
    addressWrite val p = { p with
      t := if p.w = true then latchAddrLow val p.t else latchAddrHigh val p.t
      v := if p.w = true then (if p.w = true then latchAddrLow val p.t else latchAddrHigh val p.t) else p.v
      w := !p.w
      regs := { p.regs with address := val } } := by
  unfold addressWrite
  cases h : p.w <;> rfl

/-- A port other than the two data ports and status holds its register: the read shows it and has no side effect, and every mirror
reads as the byte last written (R282). -/
theorem latchPort_reads {s : State} {a : Word} {port : PpuPort} {last val : Byte} (h : busTarget a = .ppuPort port)
    (hs : port ≠ .status) (hd : port ≠ .data) (hlast : ppuRegValue s port = last)
    (hval : ppuRegValue (ppuRegWrite s port val) port = val) :
    busValue s a = last ∧ busAfterRead s a = s ∧
      ∀ b : Word, 0x2000 ≤ b.toNat → b.toNat < 0x4000 → b.toNat % 8 = a.toNat % 8 → busValue (busWrite s a val) b = val := by
  refine ⟨(busValue_port h s).trans hlast, (busAfterRead_port h s).trans (ppuRegAfterRead_quiet hs hd), fun b hlo hhi hb => ?_⟩
  have hport := ((busTarget_ppuPort_iff a port).1 h).2.2
  have hb : busTarget b = .ppuPort port := hport ▸ busTarget_port hlo hhi hb
  rw [busWrite_port h, busValue_port hb, hval]

/-- Settles O44, port by port. -/
theorem ppuPortsLatchWrites : Obligations.PpuPortsLatchWrites := by
  unfold Obligations.PpuPortsLatchWrites
  intro s a val hlo hhi p t n port claim reads
  have target : ∀ {i : Nat}, port = i → busTarget a = .ppuPort (.ofIndex i) := busTarget_port hlo hhi
  refine ⟨fun h => ?control, fun h => ?mask, fun h => ?status, fun h => ?oamAddr, fun h => ?scroll, fun h => ?address, ?peek⟩
  case control =>
    have h : busTarget a = .ppuPort .control := target h
    exact ⟨latchPort_reads h (by decide) (by decide) rfl rfl, _, latchNameTable_toNat val p.t, busWrite_port h s val⟩
  case mask =>
    have h : busTarget a = .ppuPort .mask := target h
    exact ⟨latchPort_reads h (by decide) (by decide) rfl rfl, busWrite_port h s val⟩
  case status =>
    have h : busTarget a = .ppuPort .status := target h
    exact busWrite_port h s val
  case oamAddr =>
    have h : busTarget a = .ppuPort .oamAddr := target h
    exact ⟨latchPort_reads h (by decide) (by decide) rfl rfl, busWrite_port h s val⟩
  case scroll =>
    have h : busTarget a = .ppuPort .scroll := target h
    have hwrite : ppuRegWrite s .scroll val = { s with ppu := scrollWrite val p } := rfl
    rw [scrollWrite_eq] at hwrite
    refine ⟨latchPort_reads h (by decide) (by decide) rfl (by rw [hwrite]; rfl), _, ?_, (busWrite_port h s val).trans hwrite⟩
    rw [apply_ite BitVec.toNat, latchY_toNat, latchCoarseX_toNat]
  case address =>
    have h : busTarget a = .ppuPort .address := target h
    have hwrite : ppuRegWrite s .address val = { s with ppu := addressWrite val p } := rfl
    rw [addressWrite_eq] at hwrite
    refine ⟨latchPort_reads h (by decide) (by decide) rfl (by rw [hwrite]; rfl), _, ?_, (busWrite_port h s val).trans hwrite⟩
    rw [apply_ite BitVec.toNat, latchAddrLow_toNat, latchAddrHigh_toNat]
  case peek =>
    rw [busPeek_port (target rfl), busValue_port (target rfl)]

/-! ## The OAM data port -/

/-- Settles O46: the two ports store and move the OAM address, and the byte stored at it is read at the same address. -/
theorem oamReadsBackThroughPorts : Obligations.OamReadsBackThroughPorts := by
  unfold Obligations.OamReadsBackThroughPorts
  intro s addr addr' data data' o v hwindow haddr haddr' hdata hdata'
  simp only [List.forall_mem_cons] at hwindow
  obtain ⟨⟨hlo₁, hhi₁⟩, ⟨hlo₂, hhi₂⟩, ⟨hlo₃, hhi₃⟩, ⟨hlo₄, hhi₄⟩, -⟩ := hwindow
  have h₁ : busTarget addr = .ppuPort .oamAddr := busTarget_port hlo₁ hhi₁ haddr
  have h₂ : busTarget addr' = .ppuPort .oamAddr := busTarget_port hlo₂ hhi₂ haddr'
  have h₃ : busTarget data = .ppuPort .oamData := busTarget_port hlo₃ hhi₃ hdata
  have h₄ : busTarget data' = .ppuPort .oamData := busTarget_port hlo₄ hhi₄ hdata'
  simp only [busValue_port h₃, busAfterRead_port h₃, busWrite_port h₃, busWrite_port h₁, busWrite_port h₂, busValue_port h₄,
    busAfterRead_port h₄]
  exact ⟨⟨rfl, rfl⟩, ⟨rfl, toNat_add_one _, fun n => Memory.read_write _ _ n v⟩, rfl, rfl, Memory.read_write_same _ _ v, rfl,
    fun n hn => Memory.read_write_other _ v hn⟩

/-! ## The data port -/

theorem toNat_and_3FFF (a : Word) : (a &&& 0x3FFF).toNat = a.toNat % 0x4000 :=
  Nat.and_two_pow_sub_one_eq_mod a.toNat 14

theorem dataPortAddr_eq (p : Ppu) : dataPortAddr p = BitVec.ofNat 16 (p.v.toNat % 0x4000) := by
  have h := p.v.isLt
  refine BitVec.eq_of_toNat_eq ?_
  rw [dataPortAddr, toNat_and_3FFF, BitVec.toNat_setWidth, BitVec.toNat_ofNat]
  omega

theorem dataPortNext_eq (p : Ppu) :
    dataPortNext p = BitVec.ofNat 15 (p.v.toNat + if p.regs.control.getLsbD 2 = true then 32 else 1) := by
  refine BitVec.eq_of_toNat_eq ?_
  unfold dataPortNext
  split_ifs <;> simp

/-- The port registers are no business of the PPU bus. -/
theorem ppuWrite_regs (s : State) (r : PpuRegs) (a : Word) (val : Byte) :
    ppuWrite { s with ppu := { s.ppu with regs := r } } a val =
      { ppuWrite s a val with ppu := { (ppuWrite s a val).ppu with regs := r } } := by
  unfold ppuWrite chrWrite
  dsimp only
  split_ifs
  · split
    · split_ifs <;> rfl
    · rfl
  all_goals rfl

/-- A data-port write is a write of the PPU bus, of the port's register and of `v` (R299). -/
theorem dataWrite_eq (val : Byte) (s : State) :
    dataWrite val s =
      { ppuWrite s (dataPortAddr s.ppu) val with ppu :=
        { (ppuWrite s (dataPortAddr s.ppu) val).ppu with
          regs := { s.ppu.regs with data := val }, v := dataPortNext s.ppu } } := by
  have hv : (ppuWrite s (dataPortAddr s.ppu) val).ppu.v = s.ppu.v := by rw [ppuWrite_frame]
  have hnext : dataPortNext { (ppuWrite s (dataPortAddr s.ppu) val).ppu with regs := { s.ppu.regs with data := val } } =
      dataPortNext s.ppu := by
    simp only [dataPortNext, hv]
  unfold dataWrite
  dsimp only
  rw [ppuWrite_regs, ← hnext]
  rfl

/-- Settles O45: a data-port access is one access of the PPU bus and moves `v`. -/
theorem dataPortReadsAndWrites : Obligations.DataPortReadsAndWrites := by
  unfold Obligations.DataPortReadsAndWrites
  intro s port val hlo hhi hport
  have h : busTarget port = .ppuPort .data := busTarget_port hlo hhi hport
  rw [busValue_port h, busAfterRead_port h, busWrite_port h, ← dataPortAddr_eq, ← dataPortNext_eq]
  exact ⟨rfl, rfl, dataWrite_eq val s⟩

end Sys2Proof.Machine
end

section
/-! The statements of the PPU's dot/scanline machine (50_ppu_core.md R310 to R316). -/

namespace Sys2Proof.Machine

/-! ## The work of each position (R310 to R313) -/

/-- Rendering is enabled by the background bit or the sprite bit (R36). -/
theorem rendering_iff (p : Ppu) : p.rendering = true ↔ p.regs.mask.getLsbD 3 = true ∨ p.regs.mask.getLsbD 4 = true := by
  unfold Ppu.rendering
  generalize p.regs.mask = m
  revert m
  decide +kernel

/-- The state after a step whose work leaves the PPU at `q` and the request at `nmi`: the position advances from that of `s` (R315). -/
def State.advancedTo (s : State) (q : Ppu) (nmi : Bool) : State :=
  { s with
    nmiPending := nmi
    ppu := { q with
      dot := if s.ppu.dot = 340 then 0 else s.ppu.dot + 1
      scanline := if s.ppu.dot < 340 then s.ppu.scanline else if s.ppu.scanline = 261 then 0 else s.ppu.scanline + 1 } }

/-- A step is the position's work, the request of that position and the advance from it. -/
theorem ppuStep_eq {s : State} {q : Ppu} (hd : s.ppu.dot ≤ 340) (hq : dotWork s = q) :
    ppuStep s = s.advancedTo q (s.nmiPending || raisesNmi s.ppu) := by
  have hframe := dotWork_frame s
  rw [hq] at hframe
  have hdot : q.dot = s.ppu.dot := by rw [hframe]
  have hline : q.scanline = s.ppu.scanline := by rw [hframe]
  rw [ppuStep, State.advancedTo, hq, advance_eq, hdot, hline]
  rcases Nat.lt_or_eq_of_le hd with hlt | hlast
  · simp [hlt, hlt.ne]
  · simp [hlast]

/-- The request is raised at one position only (R312). -/
theorem raisesNmi_eq_false {p : Ppu} (h : ¬(p.scanline = 241 ∧ p.dot = 1)) : raisesNmi p = false := by
  simp [raisesNmi, h]

theorem raisesNmi_vblankEntry {p : Ppu} (hl : p.scanline = 241) (hd : p.dot = 1) :
    raisesNmi p = p.regs.control.getLsbD 7 := by
  simp [raisesNmi, hl, hd]

/-- A position away from vblank entry keeps the request as it is. -/
theorem ppuStep_eq_of_quiet {s : State} {q : Ppu} (hd : s.ppu.dot ≤ 340) (hn : ¬(s.ppu.scanline = 241 ∧ s.ppu.dot = 1))
    (hq : dotWork s = q) : ppuStep s = s.advancedTo q s.nmiPending := by
  rw [ppuStep_eq hd hq, raisesNmi_eq_false hn, Bool.or_false]

section
variable {s : State}

theorem dotWork_visible (hl : s.ppu.scanline ≤ 239) : dotWork s = visibleDot s := by
  simp only [dotWork, hl, if_true]

theorem dotWork_preRender (hl : s.ppu.scanline = 261) : dotWork s = preRenderDot s.ppu := by
  simp [dotWork, hl]

theorem dotWork_frameComplete (hl : s.ppu.scanline = 240) (hd : s.ppu.dot = 0) :
    dotWork s = { s.ppu with frameComplete := true } := by
  simp [dotWork, hl, hd]

theorem dotWork_vblankEntry (hl : s.ppu.scanline = 241) (hd : s.ppu.dot = 1) :
    dotWork s = { s.ppu with regs := { s.ppu.regs with status := s.ppu.regs.status ||| 0x80 } } := by
  simp [dotWork, hl, hd]

/-- The other positions of the scanlines after the picture do nothing. -/
theorem dotWork_idle (hlo : 240 ≤ s.ppu.scanline) (hhi : s.ppu.scanline ≤ 260)
    (hframe : ¬(s.ppu.scanline = 240 ∧ s.ppu.dot = 0)) (hvblank : ¬(s.ppu.scanline = 241 ∧ s.ppu.dot = 1)) :
    dotWork s = s.ppu := by
  rw [dotWork, if_neg (by omega : ¬s.ppu.scanline ≤ 239)]
  split_ifs with h240 h0 h241 h1
  · exact absurd ⟨h240, h0⟩ hframe
  · rfl
  · exact absurd ⟨h241, h1⟩ hvblank
  · rfl
  · rfl

/-- Evaluation follows the tile of dot 65, which is tile 8 (R310). -/
theorem visibleDot_tile {k : Nat} (hk : k < 32) (hd : s.ppu.dot = 8 * k + 1) :
    visibleDot s =
      if k = 8 then spriteEval s.ppu.scanline (bgTile s.ppu.scanline 8 s) else bgTile s.ppu.scanline k s := by
  have htile : (8 * k + 1 - 1) / 8 = k := by omega
  rw [visibleDot, hd, if_pos (by omega), htile]
  by_cases hk8 : k = 8
  · subst hk8; rfl
  · rw [if_neg (by omega), if_neg hk8]

theorem visibleDot_draw (hd : s.ppu.dot = 255) : visibleDot s = spriteDraw s.ppu.scanline s := by
  simp [visibleDot, hd]

theorem visibleDot_vertical (hd : s.ppu.dot = 256) (hr : s.ppu.rendering = true) :
    visibleDot s = { s.ppu with v := incrementVertical s.ppu.v } := by
  simp [visibleDot, hd, hr]

theorem visibleDot_horizontal (hd : s.ppu.dot = 257) (hr : s.ppu.rendering = true) :
    visibleDot s = { s.ppu with v := copyHorizontal s.ppu.v s.ppu.t } := by
  simp [visibleDot, hd, hr]

theorem visibleDot_idle (htile : ¬(s.ppu.dot ≤ 249 ∧ s.ppu.dot % 8 = 1)) (hdraw : s.ppu.dot ≠ 255)
    (hscroll : ¬(s.ppu.rendering = true ∧ (s.ppu.dot = 256 ∨ s.ppu.dot = 257))) : visibleDot s = s.ppu := by
  rw [visibleDot, if_neg (by omega), if_neg hdraw, if_neg (fun h => hscroll ⟨h.2, .inl h.1⟩),
    if_neg (fun h => hscroll ⟨h.2, .inr h.1⟩)]

end

section
variable {p : Ppu}

theorem preRenderDot_clear (hd : p.dot = 1) :
    preRenderDot p = { p with regs := { p.regs with status := p.regs.status &&& 0x1F } } := by
  simp only [preRenderDot, hd, if_true]

theorem preRenderDot_horizontal (hd : p.dot = 257) (hr : p.rendering = true) :
    preRenderDot p = { p with v := copyHorizontal p.v p.t } := by
  simp [preRenderDot, hd, hr]

theorem preRenderDot_vertical (hlo : 280 ≤ p.dot) (hhi : p.dot ≤ 304) (hr : p.rendering = true) :
    preRenderDot p = { p with v := copyVertical p.v p.t } := by
  rw [preRenderDot, if_neg (by omega), if_neg (by omega), if_pos ⟨hlo, hhi, hr⟩]

theorem preRenderDot_idle (hclear : p.dot ≠ 1)
    (hscroll : ¬(p.rendering = true ∧ (p.dot = 257 ∨ (280 ≤ p.dot ∧ p.dot ≤ 304)))) : preRenderDot p = p := by
  rw [preRenderDot, if_neg hclear, if_neg (fun h => hscroll ⟨h.2, .inl h.1⟩),
    if_neg (fun h => hscroll ⟨h.2.2, .inr ⟨h.1, h.2.1⟩⟩)]

end

theorem getLsbD_and_1F (v : Byte) : ∀ k < 8, (v &&& 0x1F).getLsbD k = (v.getLsbD k && decide (k < 5)) := by
  intro k hk
  have hmask : ∀ j < 8, (0x1F : Byte).getLsbD j = decide (j < 5) := by decide
  rw [BitVec.getLsbD_and, hmask k hk]

theorem getLsbD_or_80 (v : Byte) : ∀ k < 8, (v ||| 0x80).getLsbD k = (v.getLsbD k || k == 7) := by
  intro k hk
  have hmask : ∀ j < 8, (0x80 : Byte).getLsbD j = (j == 7) := by decide
  rw [BitVec.getLsbD_or, hmask k hk]

/-- Settles O51, by the scanline, then by the dot: a step is the position's work and the advance. -/
theorem ppuStepDoesTheWorkOfItsPosition : Obligations.PpuStepDoesTheWorkOfItsPosition := by
  unfold Obligations.PpuStepDoesTheWorkOfItsPosition
  intro s hd _ p d line rendering claim status
  have hrender : rendering ↔ p.rendering = true := (rendering_iff p).symm
  rw [hrender]
  have quiet : ∀ {q : Ppu}, ¬(line = 241 ∧ d = 1) → dotWork s = q → claim q s.nmiPending := ppuStep_eq_of_quiet hd
  refine ⟨fun hline => ?visible, fun hline => ?preRender, fun hline hdot => ?frameComplete, fun hline hdot => ?vblankEntry,
    fun hlo hhi hframe hvblank => quiet hvblank (dotWork_idle hlo hhi hframe hvblank), rfl, fun n => rfl⟩
  case visible =>
    have work : ∀ {q : Ppu}, visibleDot s = q → claim q s.nmiPending := fun h =>
      quiet (by omega) ((dotWork_visible hline).trans h)
    exact ⟨fun k hk hdot => work (visibleDot_tile hk hdot), fun hdot => work (visibleDot_draw hdot),
      fun hdot hr => work (visibleDot_vertical hdot hr), fun hdot hr => work (visibleDot_horizontal hdot hr),
      fun htile hdraw hscroll => work (visibleDot_idle htile hdraw hscroll)⟩
  case preRender =>
    have work : ∀ {q : Ppu}, preRenderDot p = q → claim q s.nmiPending := fun h =>
      quiet (by omega) ((dotWork_preRender hline).trans h)
    exact ⟨fun hdot => ⟨_, getLsbD_and_1F _, work (preRenderDot_clear hdot)⟩,
      fun hdot hr => work (preRenderDot_horizontal hdot hr),
      fun hlo hhi hr => work (preRenderDot_vertical hlo hhi hr),
      fun hclear hscroll => work (preRenderDot_idle hclear hscroll)⟩
  case frameComplete => exact quiet (by omega) (dotWork_frameComplete hline hdot)
  case vblankEntry =>
    refine ⟨_, getLsbD_or_80 p.regs.status, ?_⟩
    rw [← raisesNmi_vblankEntry hline hdot]
    exact ppuStep_eq hd (dotWork_vblankEntry hline hdot)

/-! ## The position after any number of steps (R315, R462) -/

theorem index_lt_frameSteps {p : Ppu} (hd : p.dot ≤ 340) (hl : p.scanline ≤ 261) : p.index < frameSteps := by
  unfold Ppu.index frameSteps
  omega

/-- Settles O49, by induction on the number of steps, each of which moves the index by 1 modulo a frame. -/
theorem positionAfterPpuSteps : Obligations.PositionAfterPpuSteps := by
  unfold Obligations.PositionAfterPpuSteps
  intro n
  induction n with
  | zero =>
    intro s hd hl
    refine ⟨hd, hl, ?_⟩
    rw [Nat.add_zero, Nat.mod_eq_of_lt (index_lt_frameSteps hd hl)]
    rfl
  | succ n ih =>
    intro s hd hl
    obtain ⟨hd', hl', hindex⟩ := index_ppuStep hd hl
    obtain ⟨hdn, hln, hn⟩ := ih (ppuStep s) hd' hl'
    refine ⟨hdn, hln, hn.trans ?_⟩
    rw [hindex, Nat.mod_add_mod, Nat.add_right_comm, Nat.add_assoc]

/-! ## Vblank entry (R312, R316) -/

/-- Vblank entry is one index of the frame. -/
theorem index_eq_vblankEntry_iff {p : Ppu} (hd : p.dot ≤ 340) :
    p.index = 241 * 341 + 1 ↔ p.scanline = 241 ∧ p.dot = 1 := by
  unfold Ppu.index
  omega

theorem raisesNmi_iff {p : Ppu} (hd : p.dot ≤ 340) :
    raisesNmi p = true ↔ p.regs.control.getLsbD 7 = true ∧ p.index = 241 * 341 + 1 := by
  rw [index_eq_vblankEntry_iff hd, and_comm]
  simp [raisesNmi]

/-- Of a whole frame of steps from an index in range, exactly one reaches a given index. -/
theorem existsUnique_step_to_index {i j : Nat} (hi : i < frameSteps) (hj : j < frameSteps) :
    ∃! k, k < frameSteps ∧ (i + k) % frameSteps = j := by
  unfold frameSteps at *
  refine ⟨(j + 89342 - i) % 89342, ⟨Nat.mod_lt _ (by decide), by omega⟩, fun k ⟨hk, hkj⟩ => by omega⟩

/-- The request after any number of steps: it stood before them, or it was enabled and a step was a vblank entry. -/
theorem ppuSteps_nmiPending_iff (n : Nat) {s : State} (hd : s.ppu.dot ≤ 340) (hl : s.ppu.scanline ≤ 261) :
    (ppuSteps n s).nmiPending = true ↔ s.nmiPending = true ∨
      (s.ppu.regs.control.getLsbD 7 = true ∧ ∃ k < n, (ppuSteps k s).ppu.index = 241 * 341 + 1) := by
  induction n generalizing s with
  | zero => simp [ppuSteps]
  | succ n ih =>
    obtain ⟨hd', hl', -⟩ := index_ppuStep hd hl
    have hcontrol : (ppuStep s).ppu.regs.control = s.ppu.regs.control := by rw [(ppuStep_stepFrame s).1]
    have hpending : (ppuStep s).nmiPending = true ↔ s.nmiPending = true ∨ raisesNmi s.ppu = true := Bool.or_eq_true_iff
    calc (ppuSteps n (ppuStep s)).nmiPending = true
        ↔ _ := ih hd' hl'
      _ ↔ _ := by
        rw [hpending, hcontrol, raisesNmi_iff hd, Nat.exists_lt_succ_left, or_assoc, ← and_or_left]
        rfl

/-- Settles O50: a frame of steps reaches every index once, and only the step at vblank entry raises the request. -/
theorem oneNmiRequestPerFrame : Obligations.OneNmiRequestPerFrame := by
  unfold Obligations.OneNmiRequestPerFrame
  intro s hd hl
  refine ⟨?_, fun n => ppuSteps_nmiPending_iff n hd hl⟩
  have hindex : ∀ k, (ppuSteps k s).ppu.index = (s.ppu.index + k) % frameSteps := fun k =>
    (positionAfterPpuSteps k s hd hl).2.2
  simp only [hindex]
  exact existsUnique_step_to_index (index_lt_frameSteps hd hl) (by decide)

end Sys2Proof.Machine
end

section
/-! The statements of the PPU's rendering (51_ppu_rendering.md R340 to R364). -/

namespace Sys2Proof.Machine

/-! ## The scroll operations in numbers (R360 to R363) -/

theorem incrementHorizontal_toNat (v : Scroll) :
    (incrementHorizontal v).toNat =
      if v.toNat % 32 = 31 then v.toNat / 2048 * 2048 + (1 - v.toNat / 1024 % 2) * 1024 + v.toNat / 32 % 32 * 32
      else v.toNat + 1 := by
  have h := v.isLt
  have hcx : v &&& 0x001F = 31 ↔ v.toNat % 32 = 31 := by
    rw [← toNat_and_001F, ← BitVec.toNat_inj]; rfl
  unfold incrementHorizontal
  simp only [hcx]
  split
  · rw [toNat_xor_0400, toNat_and_7FE0]
    omega
  · change (v.toNat + 1) % 2 ^ 15 = _
    omega

/-- Coarse Y put into the field that a mask has cleared. -/
theorem toNat_or_coarseY (v : Scroll) (c : BitVec 5) :
    ((v &&& (0x7C1F : Scroll)) ||| (c.setWidth 15 <<< 5)).toNat = v.toNat / 1024 * 1024 + c.toNat * 32 + v.toNat % 32 := by
  have h := v.isLt
  have : (v &&& (0x7C1F : Scroll)) ||| (c.setWidth 15 <<< 5) = v.extractLsb' 10 5 ++ (c ++ v.extractLsb' 0 5) := by
    refine BitVec.eq_of_getLsbD_eq fun i hi => ?_
    simp only [BitVec.getLsbD_or, BitVec.getLsbD_and, BitVec.getLsbD_shiftLeft, BitVec.getLsbD_setWidth,
      BitVec.getLsbD_append, BitVec.getLsbD_extractLsb']
    interval_cases i <;> simp
  rw [this]
  simp only [toNat_append', toNat_extractLsb'_eq]
  omega

theorem coarseY_toNat (v : Scroll) : ((v >>> 5) &&& 31).toNat = v.toNat / 32 % 32 := by
  rw [toNat_and_001F, BitVec.toNat_ushiftRight, Nat.shiftRight_eq_div_pow]

theorem incrementVertical_toNat (v : Scroll) :
    (incrementVertical v).toNat =
      if v.toNat / 4096 ≠ 7 then v.toNat + 4096
      else if v.toNat / 32 % 32 = 29 then
        (1 - v.toNat / 2048 % 2) * 2048 + v.toNat / 1024 % 2 * 1024 + v.toNat % 32
      else v.toNat % 4096 / 1024 * 1024 + (v.toNat / 32 % 32 + 1) % 32 * 32 + v.toNat % 32 := by
  have h := v.isLt
  have hfy : v &&& 0x7000 = 0x7000 ↔ v.toNat / 4096 = 7 := by
    rw [← BitVec.toNat_inj, toNat_and_7000]
    change _ = 28672 ↔ _
    omega
  have hlow := toNat_and_0FFF v
  have hcy : ((v &&& 0x0FFF) >>> 5 &&& 31).toNat = v.toNat / 32 % 32 := by
    rw [coarseY_toNat, hlow]
    omega
  have hcy_eq : ∀ c : Scroll, (v &&& 0x0FFF) >>> 5 &&& 31 = c ↔ v.toNat / 32 % 32 = c.toNat := fun c => by
    rw [← BitVec.toNat_inj, hcy]
  unfold incrementVertical
  simp only [ne_eq, hfy, hcy_eq, BitVec.reduceToNat]
  by_cases h7 : v.toNat / 4096 = 7
  · rw [if_neg (not_not_intro h7), if_neg (not_not_intro h7)]
    by_cases h29 : v.toNat / 32 % 32 = 29
    · rw [if_pos h29, if_pos h29, toNat_and_7C1F, toNat_xor_0800, hlow]
      omega
    rw [if_neg h29, if_neg h29]
    by_cases h31 : v.toNat / 32 % 32 = 31
    · rw [if_pos h31, toNat_and_7C1F, hlow]
      omega
    · have hsucc : ((v &&& 0x0FFF) >>> 5 &&& 31) + 1 = (BitVec.ofNat 5 (v.toNat / 32 % 32 + 1)).setWidth 15 := by
        refine BitVec.eq_of_toNat_eq ?_
        rw [BitVec.toNat_add, hcy, BitVec.toNat_setWidth, BitVec.toNat_ofNat]
        change (_ + 1) % _ = _
        omega
      rw [if_neg h31, hsucc]
      refine (toNat_or_coarseY _ _).trans ?_
      rw [hlow, BitVec.toNat_ofNat]
      omega
  · rw [if_pos h7, if_pos h7]
    change (v.toNat + 4096) % 2 ^ 15 = _
    omega

theorem copyHorizontal_toNat (v t : Scroll) :
    (copyHorizontal v t).toNat =
      v.toNat / 2048 * 2048 + t.toNat / 1024 % 2 * 1024 + v.toNat / 32 % 32 * 32 + t.toNat % 32 := by
  have h := v.isLt
  have : copyHorizontal v t =
      v.extractLsb' 11 4 ++ (t.extractLsb' 10 1 ++ (v.extractLsb' 5 5 ++ t.extractLsb' 0 5)) := by
    refine BitVec.eq_of_getLsbD_eq fun i hi => ?_
    simp only [copyHorizontal, BitVec.getLsbD_or, BitVec.getLsbD_and, BitVec.getLsbD_append, BitVec.getLsbD_extractLsb']
    interval_cases i <;> simp
  rw [this]
  simp only [toNat_append', toNat_extractLsb'_eq]
  omega

/-- The vertical copy takes from `t` what the horizontal copy keeps of `v`. -/
theorem copyVertical_eq_copyHorizontal (v t : Scroll) : copyVertical v t = copyHorizontal t v :=
  BitVec.or_comm _ _

/-- Settles O52: each operation as a number, whose digits are the fields. -/
theorem scrollOperationsMoveFields : Obligations.ScrollOperationsMoveFields := by
  unfold Obligations.ScrollOperationsMoveFields
  intro v t
  have hv := v.isLt
  have ht := t.isLt
  dsimp only
  refine ⟨?incrementHorizontal, ?incrementVertical, ?copyHorizontal, ?copyVertical⟩
  case incrementHorizontal => rw [incrementHorizontal_toNat]; split_ifs <;> omega
  case incrementVertical => rw [incrementVertical_toNat]; split_ifs <;> omega
  case copyHorizontal => rw [copyHorizontal_toNat]; omega
  case copyVertical => rw [copyVertical_eq_copyHorizontal, copyHorizontal_toNat]; omega

/-! ## Background production (R340 to R344) -/

/-- A mask of one bit sets that bit. -/
theorem getLsbD_or_bit (v : Byte) {mask : Byte} {b : Nat} (hmask : ∀ k < 8, mask.getLsbD k = (k == b)) :
    ∀ k < 8, (v ||| mask).getLsbD k = (v.getLsbD k || k == b) := fun k hk => by
  rw [BitVec.getLsbD_or, hmask k hk]

/-- What background production leaves alone (R340). -/
def Ppu.BgFrame (p q : Ppu) : Prop := q = { p with grid := q.grid, regs := { p.regs with status := q.regs.status } }

theorem Ppu.BgFrame.refl (p : Ppu) : p.BgFrame p := rfl

theorem Ppu.BgFrame.trans {p q r : Ppu} (h : p.BgFrame q) (h' : q.BgFrame r) : p.BgFrame r := by
  unfold Ppu.BgFrame at *
  rw [h', h]

theorem compose_bgFrame (row x palsel px : Nat) (p : Ppu) : p.BgFrame (compose row x palsel px p) := by
  rw [compose_eq]; rfl

/-- The colour of a cell after a background pixel is composed into it (R343). -/
def shownColour (p : Ppu) (row x palsel px : Nat) : Colour :=
  if (gridRead PrioCell.clear p.prio row x).spr = true ∧ (px = 0 ∨ (gridRead PrioCell.clear p.prio row x).behind = false)
  then gridRead 0 p.grid row x else bgColour p palsel px

/-- A background pixel that is a sprite-0 hit (R343). -/
def hitsSprite0 (p : Ppu) (row x px : Nat) : Prop :=
  (gridRead PrioCell.clear p.prio row x).spr = true ∧ (gridRead PrioCell.clear p.prio row x).zero = true ∧ px ≠ 0

theorem compose_grid (p : Ppu) (row x palsel px r y : Nat) :
    gridRead 0 (compose row x palsel px p).grid r y =
      if r = row ∧ y = x then shownColour p row x palsel px else gridRead 0 p.grid r y := by
  have hstays : ((gridRead PrioCell.clear p.prio row x).spr = true ∧
        ¬((gridRead PrioCell.clear p.prio row x).behind = true ∧ px ≠ 0)) ↔
      ((gridRead PrioCell.clear p.prio row x).spr = true ∧
        (px = 0 ∨ (gridRead PrioCell.clear p.prio row x).behind = false)) := by
    rw [not_and_not_right, Bool.eq_false_iff, imp_iff_not_or, or_comm]
  rw [compose_eq, shownColour]
  simp only [hstays]
  split_ifs with hstay hcell hcell
  · rw [hcell.1, hcell.2]
  · rfl
  · rw [hcell.1, hcell.2, gridRead_write_same]
  · rw [gridRead_write, if_neg hcell]

theorem compose_status (p : Ppu) (row x palsel px : Nat) {k : Nat} (hk : k < 8) :
    (compose row x palsel px p).regs.status.getLsbD k = true ↔
      p.regs.status.getLsbD k = true ∨ (k = 6 ∧ hitsSprite0 p row x px) := by
  rw [compose_eq]
  unfold hitsSprite0
  dsimp only
  split_ifs with hhit
  · rw [getLsbD_or_bit _ (b := 6) (by decide) k hk]
    simp [hhit]
  · simp [hhit]

/-- Pixel `i` of a tile row, counted from the left (R342). -/
def BgRow.pixel (r : BgRow) (i : Nat) : Nat := planePixel r.lo r.hi (7 - i)

section
variable (row k : Nat) (r : BgRow) (p : Ppu)

/-- Pixel `i` of tile column `k` falls on a column of the picture and is a sprite-0 hit there. -/
def pixelHits (i : Nat) : Prop := ∃ x, x + p.fx.toNat = 8 * k + i ∧ hitsSprite0 p row x (r.pixel i)

theorem bgPixelStep_bgFrame (i : Nat) : p.BgFrame (bgPixelStep row k r p i) := by
  unfold bgPixelStep
  split
  · exact .refl p
  · exact compose_bgFrame ..

theorem bgPixelStep_grid (i y x : Nat) :
    gridRead 0 (bgPixelStep row k r p i).grid y x =
      if y = row ∧ x + p.fx.toNat = 8 * k + i then shownColour p row x r.palsel (r.pixel i) else gridRead 0 p.grid y x := by
  unfold bgPixelStep
  split_ifs with hdrop hcell hcell
  · omega
  · rfl
  · rw [compose_grid, if_pos (by omega), show 8 * k + i - p.fx.toNat = x by omega]
    rfl
  · rw [compose_grid, if_neg (by omega)]

theorem bgPixelStep_status (i : Nat) {j : Nat} (hj : j < 8) :
    (bgPixelStep row k r p i).regs.status.getLsbD j = true ↔
      p.regs.status.getLsbD j = true ∨ (j = 6 ∧ pixelHits row k r p i) := by
  unfold bgPixelStep
  split_ifs with hdrop
  · have hnone : ¬pixelHits row k r p i := fun ⟨x, hx, _⟩ => by omega
    simp only [hnone, and_false, or_false]
  · have hone : pixelHits row k r p i ↔ hitsSprite0 p row (8 * k + i - p.fx.toNat) (r.pixel i) := by
      refine ⟨fun ⟨x, hx, hhit⟩ => ?_, fun hhit => ⟨_, by omega, hhit⟩⟩
      rwa [show 8 * k + i - p.fx.toNat = x by omega]
    rw [hone]
    exact compose_status p row _ _ _ hj

/-- The first pixels of a tile row (R340). -/
def bgPixels (n : Nat) : Ppu := (List.range n).foldl (bgPixelStep row k r) p

theorem bgPixels_succ (n : Nat) : bgPixels row k r p (n + 1) = bgPixelStep row k r (bgPixels row k r p n) n := by
  rw [bgPixels, List.range_succ, List.foldl_append]
  rfl

theorem bgPixels_bgFrame (n : Nat) : p.BgFrame (bgPixels row k r p n) :=
  foldl_frame _ Ppu.BgFrame.refl Ppu.BgFrame.trans _ (bgPixelStep_bgFrame row k r) _ _

/-- A column gets the pixel that falls on it, composed over what the row showed before. -/
theorem bgPixels_grid (n y x : Nat) :
    gridRead 0 (bgPixels row k r p n).grid y x =
      if y = row ∧ 8 * k ≤ x + p.fx.toNat ∧ x + p.fx.toNat < 8 * k + n
      then shownColour p row x r.palsel (r.pixel (x + p.fx.toNat - 8 * k)) else gridRead 0 p.grid y x := by
  induction n generalizing y x with
  | zero => rw [if_neg (by omega)]; rfl
  | succ n ih =>
    have hframe := bgPixels_bgFrame row k r p n
    rw [bgPixels_succ, bgPixelStep_grid]
    generalize bgPixels row k r p n = q at ih hframe ⊢
    have hfx : q.fx = p.fx := by rw [hframe]
    rw [hfx]
    by_cases hcell : y = row ∧ x + p.fx.toNat = 8 * k + n
    · have hold : gridRead 0 q.grid row x = gridRead 0 p.grid row x := by rw [ih, if_neg (by omega)]
      rw [if_pos hcell, if_pos (by omega), show x + p.fx.toNat - 8 * k = n by omega]
      unfold shownColour bgColour palColour
      rw [hold, hframe]
    · rw [if_neg hcell, ih]
      refine if_congr ?_ rfl rfl
      omega

/-- The sprite-0 hit is set exactly where a pixel hits (R343). -/
theorem bgPixels_status (n : Nat) {j : Nat} (hj : j < 8) :
    (bgPixels row k r p n).regs.status.getLsbD j = true ↔
      p.regs.status.getLsbD j = true ∨ (j = 6 ∧ ∃ i < n, pixelHits row k r p i) := by
  induction n with
  | zero => simp [bgPixels]
  | succ n ih =>
    have hhits : pixelHits row k r (bgPixels row k r p n) n ↔ pixelHits row k r p n := by
      unfold pixelHits hitsSprite0
      rw [bgPixels_bgFrame row k r p n]
    rw [bgPixels_succ, bgPixelStep_status _ _ _ _ _ hj, ih, hhits, or_assoc, ← and_or_left, Nat.exists_lt_succ_right]

end

/-! ### The fetch in numbers (R341) -/

theorem nameTableAddr_eq (v : Scroll) :
    (0x2000 : Word) ||| (v.setWidth 16 &&& 0x0FFF) = BitVec.ofNat 16 (0x2000 + v.toNat % 0x1000) := by
  have : (0x2000 : Word) ||| (v.setWidth 16 &&& 0x0FFF) = 2#4 ++ v.extractLsb' 0 12 := by
    refine BitVec.eq_of_getLsbD_eq fun i hi => ?_
    simp only [BitVec.getLsbD_or, BitVec.getLsbD_and, BitVec.getLsbD_setWidth, BitVec.getLsbD_append, BitVec.getLsbD_extractLsb']
    interval_cases i <;> simp
  refine BitVec.eq_of_toNat_eq ?_
  rw [this, toNat_append', toNat_extractLsb'_eq, BitVec.toNat_ofNat, BitVec.toNat_ofNat]
  omega

theorem attrAddr_eq (v : Scroll) :
    (0x23C0 : Word) ||| (v.setWidth 16 &&& (0x0C00 : Word)) ||| ((v.setWidth 16 >>> 4) &&& (0x38 : Word)) |||
        ((v.setWidth 16 >>> 2) &&& (0x07 : Word)) =
      BitVec.ofNat 16 (0x23C0 + v.toNat / 1024 % 4 * 1024 + v.toNat / 32 % 32 / 4 * 8 + v.toNat % 32 / 4) := by
  have : (0x23C0 : Word) ||| (v.setWidth 16 &&& (0x0C00 : Word)) ||| ((v.setWidth 16 >>> 4) &&& (0x38 : Word)) |||
        ((v.setWidth 16 >>> 2) &&& (0x07 : Word)) =
      2#4 ++ (v.extractLsb' 10 2 ++ (15#4 ++ (v.extractLsb' 7 3 ++ v.extractLsb' 2 3))) := by
    refine BitVec.eq_of_getLsbD_eq fun i hi => ?_
    simp only [BitVec.getLsbD_or, BitVec.getLsbD_and, BitVec.getLsbD_setWidth, BitVec.getLsbD_ushiftRight,
      BitVec.getLsbD_append, BitVec.getLsbD_extractLsb']
    interval_cases i <;> simp
  have hrow : v.toNat / 128 % 8 = v.toNat / 32 % 32 / 4 := by omega
  have hcolumn : v.toNat / 4 % 8 = v.toNat % 32 / 4 := by omega
  refine BitVec.eq_of_toNat_eq ?_
  rw [this]
  simp only [toNat_append', toNat_extractLsb'_eq, BitVec.toNat_ofNat, Nat.reducePow, hrow, hcolumn]
  omega

/-- The shift that brings the palette number of a quadrant down to the low bits (R341). -/
theorem attrShift_toNat (v : Scroll) :
    (((v.setWidth 16 >>> 4) &&& (4 : Word)) ||| (v.setWidth 16 &&& 2)).toNat = v.toNat / 64 % 2 * 4 + v.toNat / 2 % 2 * 2 := by
  have : ((v.setWidth 16 >>> 4) &&& (4 : Word)) ||| (v.setWidth 16 &&& 2) =
      0#13 ++ (v.extractLsb' 6 1 ++ (v.extractLsb' 1 1 ++ 0#1)) := by
    refine BitVec.eq_of_getLsbD_eq fun i hi => ?_
    simp only [BitVec.getLsbD_or, BitVec.getLsbD_and, BitVec.getLsbD_setWidth, BitVec.getLsbD_ushiftRight,
      BitVec.getLsbD_append, BitVec.getLsbD_extractLsb']
    interval_cases i <;> simp
  rw [this]
  simp only [toNat_append', toNat_extractLsb'_eq, BitVec.toNat_ofNat]
  omega

theorem fineY_eq (v : Scroll) : (v.setWidth 16 >>> 12) &&& (7 : Word) = BitVec.ofNat 16 (v.toNat / 4096) := by
  have h := v.isLt
  refine BitVec.eq_of_toNat_eq ?_
  rw [BitVec.toNat_and, BitVec.toNat_ushiftRight, BitVec.toNat_setWidth, BitVec.toNat_ofNat, Nat.shiftRight_eq_div_pow]
  refine (Nat.and_two_pow_sub_one_eq_mod _ 3).trans ?_
  omega

/-- The low two bits of a byte. -/
theorem toNat_and_03 (b : Byte) : (b &&& 3).toNat = b.toNat % 4 := Nat.and_two_pow_sub_one_eq_mod b.toNat 2

theorem tileAddr_eq (sel : Bool) (tile : Byte) (row : Nat) :
    tileAddr (patternBank sel) tile (BitVec.ofNat 16 row) =
      BitVec.ofNat 16 ((if sel = true then 0x1000 else 0) + tile.toNat * 16 + row) := by
  have h := tile.isLt
  have hbank : patternBank sel = BitVec.ofNat 16 (if sel = true then 0x1000 else 0) := by cases sel <;> rfl
  have htile : tile.setWidth 16 = BitVec.ofNat 16 tile.toNat := (BitVec.ofNat_toNat 16 tile).symm
  rw [tileAddr, hbank, htile, BitVec.ofNat_add, BitVec.ofNat_add, BitVec.ofNat_mul]
  rfl

/-- The address of bit plane 0 of the background's tile row (R341). -/
def bgPattern (s : State) : Nat :=
  (if s.ppu.regs.control.getLsbD 4 = true then 0x1000 else 0) +
    (ppuRead s (BitVec.ofNat 16 (0x2000 + s.ppu.v.toNat % 0x1000))).toNat * 16 + s.ppu.v.toNat / 4096

/-- The byte that holds the palette numbers around the background's tile (R341). -/
def bgAttr (s : State) : Byte :=
  ppuRead s (BitVec.ofNat 16 (0x23C0 + s.ppu.v.toNat / 1024 % 4 * 1024 + s.ppu.v.toNat / 32 % 32 / 4 * 8 + s.ppu.v.toNat % 32 / 4))

theorem bgFetch_eq (s : State) :
    bgFetch s =
      { palsel := (bgAttr s).toNat / 2 ^ (s.ppu.v.toNat / 64 % 2 * 4 + s.ppu.v.toNat / 2 % 2 * 2) % 4
        lo := ppuRead s (BitVec.ofNat 16 (bgPattern s))
        hi := ppuRead s (BitVec.ofNat 16 (bgPattern s + 8)) } := by
  unfold bgFetch
  dsimp only
  rw [nameTableAddr_eq, attrAddr_eq, attrShift_toNat, fineY_eq, tileAddr_eq, toNat_and_03,
    BitVec.toNat_ushiftRight, Nat.shiftRight_eq_div_pow, BitVec.ofNat_add (bgPattern s)]
  rfl

/-- The tile row that background production shows: the one fetched, or transparent pixels with the background disabled (R340). -/
def bgRow (s : State) : BgRow := if s.ppu.regs.mask.getLsbD 3 = true then bgFetch s else ⟨0, 0x00, 0x00⟩

/-- Pixel `i` of the tile row that background production shows. -/
theorem bgRow_pixel (s : State) (i : Nat) :
    (bgRow s).pixel i = if s.ppu.regs.mask.getLsbD 3 = true then
      2 * ((ppuRead s (BitVec.ofNat 16 (bgPattern s + 8))).getLsbD (7 - i)).toNat +
        ((ppuRead s (BitVec.ofNat 16 (bgPattern s))).getLsbD (7 - i)).toNat
    else 0 := by
  unfold bgRow
  split
  · rw [bgFetch_eq]; rfl
  · simp [BgRow.pixel, planePixel]

theorem bgRow_palsel {s : State} (h : s.ppu.regs.mask.getLsbD 3 = true) :
    (bgRow s).palsel =
      (bgAttr s).toNat / 2 ^ (s.ppu.v.toNat / 64 % 2 * 4 + s.ppu.v.toNat / 2 % 2 * 2) % 4 := by
  rw [bgRow, if_pos h, bgFetch_eq]

/-- A tile column is its eight pixels; then `v` moves on with rendering enabled (R344). -/
theorem bgTile_eq (row k : Nat) (s : State) :
    bgTile row k s =
      if s.ppu.rendering = true then
        { bgPixels row k (bgRow s) s.ppu 8 with v := incrementHorizontal (bgPixels row k (bgRow s) s.ppu 8).v }
      else bgPixels row k (bgRow s) s.ppu 8 := rfl

theorem bgTile_grid (row k : Nat) (s : State) (y x : Nat) :
    gridRead 0 (bgTile row k s).grid y x =
      if y = row ∧ 8 * k ≤ x + s.ppu.fx.toNat ∧ x + s.ppu.fx.toNat < 8 * k + 8
      then shownColour s.ppu row x (bgRow s).palsel ((bgRow s).pixel (x + s.ppu.fx.toNat - 8 * k))
      else gridRead 0 s.ppu.grid y x := by
  rw [← bgPixels_grid, bgTile_eq]
  generalize bgPixels row k (bgRow s) s.ppu 8 = q
  split <;> rfl

theorem bgTile_status (row k : Nat) (s : State) {j : Nat} (hj : j < 8) :
    (bgTile row k s).regs.status.getLsbD j = true ↔ s.ppu.regs.status.getLsbD j = true ∨
      (j = 6 ∧ ∃ i < 8, pixelHits row k (bgRow s) s.ppu i) := by
  rw [← bgPixels_status _ _ _ _ _ hj, bgTile_eq]
  generalize bgPixels row k (bgRow s) s.ppu 8 = q
  split <;> rfl

theorem bgTile_v (row k : Nat) (s : State) :
    (bgTile row k s).v = if s.ppu.rendering = true then incrementHorizontal s.ppu.v else s.ppu.v := by
  have hv : (bgPixels row k (bgRow s) s.ppu 8).v = s.ppu.v := by rw [bgPixels_bgFrame]
  rw [bgTile_eq, ← hv]
  generalize bgPixels row k (bgRow s) s.ppu 8 = q
  split <;> rfl

theorem bgTile_bgFrame (row k : Nat) (s : State) : Ppu.BgFrame { s.ppu with v := (bgTile row k s).v } (bgTile row k s) := by
  have hframe := bgPixels_bgFrame row k (bgRow s) s.ppu 8
  rw [bgTile_eq]
  generalize bgPixels row k (bgRow s) s.ppu 8 = q at hframe ⊢
  unfold Ppu.BgFrame at *
  split <;> rw [hframe]

theorem palColour_eq (p : Ppu) (i : Nat) : palColour p i = BitVec.ofNat 6 (p.pal.read i).toNat :=
  (BitVec.ofNat_toNat 6 _).symm

theorem bgColour_eq (p : Ppu) (palsel px : Nat) :
    bgColour p palsel px = BitVec.ofNat 6 (p.pal.read (if px = 0 then 0 else palsel * 4 + px)).toNat := by
  unfold bgColour
  split <;> exact palColour_eq p _

/-- Settles O53: one pixel, then the eight pixels of a tile column, each on a column of its own. -/
theorem backgroundPixelsResolvePriority : Obligations.BackgroundPixelsResolvePriority := by
  unfold Obligations.BackgroundPixelsResolvePriority
  refine ⟨fun p row x palsel px => ?onePixel, fun s row k => ?tileColumn⟩
  case onePixel =>
    refine ⟨?shown, fun r y hne => ?others, fun k hk => ?status, compose_bgFrame row x palsel px p⟩
    case shown => rw [compose_grid, if_pos ⟨rfl, rfl⟩, shownColour, bgColour_eq]
    case others => rw [compose_grid, if_neg (by simpa using hne)]
    case status =>
      rw [Bool.eq_iff_iff, compose_status p row x palsel px hk]
      simp [hitsSprite0, and_assoc]
  case tileColumn =>
    intro p v fetch tile attr pattern enabled palsel px colour cell q
    have hpx : ∀ i, (bgRow s).pixel i = px i := bgRow_pixel s
    have hcolour : ∀ i, bgColour p (bgRow s).palsel ((bgRow s).pixel i) = colour i := fun i => by
      rw [bgColour_eq, hpx]
      by_cases htransparent : px i = 0
      · simp only [colour, if_pos htransparent]
      · have henabled : enabled = true := by_contra fun h => htransparent (if_neg h)
        rw [bgRow_palsel henabled]
        rfl
    have hgrid : ∀ y x, gridRead 0 q.grid y x =
        if y = row ∧ 8 * k ≤ x + p.fx.toNat ∧ x + p.fx.toNat < 8 * k + 8
        then shownColour p row x (bgRow s).palsel ((bgRow s).pixel (x + p.fx.toNat - 8 * k))
        else gridRead 0 p.grid y x := bgTile_grid row k s
    refine ⟨fun i x hi hx => ?shown, fun r x hne => ?others, fun j hj => ?status, ?scroll, bgTile_bgFrame row k s⟩
    case shown => rw [hgrid, if_pos (by omega), hx, Nat.add_sub_cancel_left, shownColour, hcolour, hpx]
    case others =>
      refine (hgrid r x).trans (if_neg fun ⟨hr, hlo, hhi⟩ => ?_)
      exact hne.elim (· hr) fun hout => hout (x + p.fx.toNat - 8 * k) (by omega) (by omega)
    case status =>
      rw [bgTile_status row k s hj]
      simp only [pixelHits, hitsSprite0, hpx, exists_and_left]
      rfl
    case scroll =>
      rw [bgTile_v]
      exact if_congr (rendering_iff p) rfl rfl

/-! ## Sprite evaluation (R346) -/

theorem spriteMatches_eq (p : Ppu) (line n : Nat) :
    spriteMatches p line n = decide ((p.oam.read (4 * n)).toNat ≤ line ∧
      line < (p.oam.read (4 * n)).toNat + if p.regs.control.getLsbD 5 = true then 16 else 8) :=
  (Bool.decide_and _ _).symm

/-- A copy fills the four bytes of its slot and leaves the others alone. -/
theorem copySprite_read (oam : Memory) (n slot : Nat) (sec : Memory) (a : Nat) :
    (copySprite oam n slot sec).read a = if a / 4 = slot then oam.read (4 * n + a % 4) else sec.read a := by
  have hbytes : copySprite oam n slot sec =
      ((((sec.write (4 * slot + 0) (oam.read (4 * n + 0))).write (4 * slot + 1) (oam.read (4 * n + 1))).write
        (4 * slot + 2) (oam.read (4 * n + 2))).write (4 * slot + 3) (oam.read (4 * n + 3))) := rfl
  rw [hbytes]
  by_cases hslot : a / 4 = slot
  · obtain ⟨j, ha⟩ : ∃ j, a % 4 = j := ⟨_, rfl⟩
    have hj : j < 4 := ha ▸ Nat.mod_lt a (by decide)
    rw [if_pos hslot, show a = 4 * slot + j by omega, show (4 * slot + j) % 4 = j by omega]
    interval_cases j <;> simp [Memory.read_write]
  · rw [if_neg hslot]
    iterate 4 rw [Memory.read_write_other _ _ (by omega)]

/-- Sprites of primary OAM copied into consecutive slots of secondary OAM. -/
def copySprites (oam : Memory) : List Nat → Nat → Memory → Memory
  | [], _, sec => sec
  | n :: ns, slot, sec => copySprites oam ns (slot + 1) (copySprite oam n slot sec)

theorem copySprites_read (oam : Memory) (ns : List Nat) (slot : Nat) (sec : Memory) (a : Nat) :
    (copySprites oam ns slot sec).read a =
      if slot ≤ a / 4 ∧ a / 4 < slot + ns.length then oam.read (4 * ns.getD (a / 4 - slot) 0 + a % 4) else sec.read a := by
  induction ns generalizing slot sec with
  | nil => rw [if_neg (by simp)]; rfl
  | cons n ns ih =>
    rw [copySprites, ih, copySprite_read]
    obtain hlt | heq | hgt := Nat.lt_trichotomy (a / 4) slot
    · rw [if_neg (by omega), if_neg (by omega), if_neg (by omega)]
    · rw [if_neg (by omega), if_pos heq, if_pos (by simp; omega), heq, Nat.sub_self, List.getD_cons_zero]
    · rw [if_neg hgt.ne', show a / 4 - slot = a / 4 - (slot + 1) + 1 by omega, List.getD_cons_succ]
      refine if_congr ?_ rfl rfl
      rw [List.length_cons]
      omega

/-- The state with the sprites of a list copied into the free slots of secondary OAM, and the overflow bit set when there are more
of them than slots (R346). -/
def Ppu.selectSprites (p : Ppu) (found : List Nat) : Ppu :=
  { p with
    secOam := copySprites p.oam (found.take (8 - p.secCount)) p.secCount p.secOam
    secCount := p.secCount + (found.take (8 - p.secCount)).length
    spr0Sel := p.spr0Sel || (found.take (8 - p.secCount)).contains 0
    regs := { p.regs with
      status := if 8 < p.secCount + found.length then p.regs.status ||| 0x20 else p.regs.status } }

theorem Ppu.selectSprites_nil {p : Ppu} (h : p.secCount ≤ 8) : p.selectSprites [] = p := by
  simp [Ppu.selectSprites, copySprites, h.not_gt]

theorem Ppu.selectSprites_cons {p : Ppu} (n : Nat) (ns : List Nat) (h : p.secCount < 8) :
    p.selectSprites (n :: ns) = Ppu.selectSprites { p with
      secOam := copySprite p.oam n p.secCount p.secOam
      spr0Sel := p.spr0Sel || n == 0
      secCount := p.secCount + 1 } ns := by
  have hroom : 8 - p.secCount = 8 - (p.secCount + 1) + 1 := by omega
  unfold Ppu.selectSprites
  rw [hroom]
  simp only [List.take_succ_cons, copySprites, List.length_cons, List.contains_cons, Bool.or_assoc, Nat.add_assoc,
    Nat.add_comm 1, BEq.comm (a := 0)]

theorem Ppu.selectSprites_full {p : Ppu} (n : Nat) (ns : List Nat) (h : p.secCount = 8) :
    p.selectSprites (n :: ns) = { p with regs := { p.regs with status := p.regs.status ||| 0x20 } } := by
  simp [Ppu.selectSprites, copySprites, h]

/-- The scan selects the sprites that match, in the order of the scan. -/
theorem spriteScan_eq (line : Nat) (ns : List Nat) {p : Ppu} (h : p.secCount ≤ 8) :
    spriteScan line ns p = p.selectSprites (ns.filter (spriteMatches p line)) := by
  induction ns generalizing p with
  | nil => exact (Ppu.selectSprites_nil h).symm
  | cons n ns ih =>
    rw [spriteScan]
    by_cases hmatch : spriteMatches p line n = true
    · rw [if_pos hmatch, List.filter_cons_of_pos hmatch]
      obtain hfree | hfull := Nat.lt_or_eq_of_le h
      · rw [if_pos hfree, Ppu.selectSprites_cons n _ hfree]
        exact ih hfree
      · rw [if_neg (by omega), Ppu.selectSprites_full n _ hfull]
    · rw [if_neg hmatch, List.filter_cons_of_neg hmatch, ih h]

theorem secOamFill_read : ∀ i < 32, secOamFill.read i = 0xFF := by decide

/-- The sprites that evaluation finds on the row after `line`, in index order (R346). -/
def foundSprites (p : Ppu) (line : Nat) : List Nat := (List.range 64).filter (spriteMatches p line)

/-- Sprite 0 is found first or not at all. -/
theorem zero_mem_take_foundSprites (p : Ppu) (line : Nat) :
    0 ∈ (foundSprites p line).take 8 ↔ 0 ∈ foundSprites p line := by
  refine ⟨List.mem_of_mem_take, fun h => ?_⟩
  have hmatch : spriteMatches p line 0 = true := (List.mem_filter.mp h).2
  have hfirst : List.range 64 = 0 :: List.range' 1 63 := by decide
  rw [foundSprites, hfirst, List.filter_cons_of_pos hmatch]
  exact List.mem_cons_self

/-- Evaluation selects from an empty secondary OAM on. -/
theorem spriteEval_eq {p : Ppu} (line : Nat) (h : p.rendering = true) :
    spriteEval line p = Ppu.selectSprites { p with secOam := secOamFill, secCount := 0, spr0Sel := false } (foundSprites p line) :=
  (if_pos h).trans (spriteScan_eq line (List.range 64) (Nat.zero_le 8))

/-- Settles O54: evaluation selects the sprites found, from an empty secondary OAM on. -/
theorem spriteEvalSelectsEight : Obligations.SpriteEvalSelectsEight := by
  unfold Obligations.SpriteEvalSelectsEight
  intro p line q found
  have hfound : foundSprites p line = found :=
    congrArg (List.filter · (List.range 64)) (funext (spriteMatches_eq p line))
  refine ⟨fun hoff => ?disabled, fun hon => ?enabled⟩
  case disabled =>
    refine if_neg fun h => ?_
    simpa only [hoff, Bool.false_eq_true, or_self] using (rendering_iff p).mp h
  case enabled =>
    have hq : q = _ := spriteEval_eq line ((rendering_iff p).mpr hon)
    have hcount : q.secCount = (found.take 8).length := by rw [hq, ← hfound]; exact Nat.zero_add _
    have hread : ∀ a, q.secOam.read a =
        if a / 4 < q.secCount then p.oam.read (4 * (found.take 8).getD (a / 4) 0 + a % 4) else secOamFill.read a := fun a => by
      have hcopied := copySprites_read p.oam (found.take 8) 0 secOamFill a
      simp only [Nat.zero_le, true_and, Nat.zero_add, Nat.sub_zero] at hcopied
      rw [hcount, hq, hfound]
      exact hcopied
    refine ⟨?count, fun k j hk hj => ?copied, fun i hlo hhi => ?rest, ?sprite0, fun k hk => ?overflow, ?frame⟩
    case count => rw [hcount, List.length_take]
    case copied =>
      rw [hread, show (4 * k + j) / 4 = k by omega, show (4 * k + j) % 4 = j by omega, if_pos hk,
        List.getD_eq_getElem?_getD, List.getElem?_take_of_lt (by rw [hcount, List.length_take] at hk; omega),
        ← List.getD_eq_getElem?_getD]
    case rest => rw [hread, if_neg (by omega), secOamFill_read i hhi]
    case sprite0 =>
      rw [← hfound, ← zero_mem_take_foundSprites, hq]
      exact List.contains_iff_mem
    case overflow =>
      have hstatus : q.regs.status = if 8 < found.length then p.regs.status ||| 0x20 else p.regs.status := by
        rw [hq, ← hfound, ← Nat.zero_add (foundSprites p line).length]
        rfl
      rw [hstatus]
      split_ifs with hninth
      · rw [getLsbD_or_bit _ (b := 5) (by decide) k hk]
        simp [hninth]
      · simp [hninth]
    case frame => rw [hq]; rfl

/-! ## Sprite drawing (R350 to R352) -/

/-- What sprite drawing leaves alone (R350). -/
def Ppu.SpriteFrame (p q : Ppu) : Prop := q = { p with grid := q.grid, prio := q.prio }

theorem Ppu.SpriteFrame.refl (p : Ppu) : p.SpriteFrame p := rfl

theorem Ppu.SpriteFrame.trans {p q r : Ppu} (h : p.SpriteFrame q) (h' : q.SpriteFrame r) : p.SpriteFrame r := by
  unfold Ppu.SpriteFrame at *
  rw [h', h]

/-- A cell of the picture with its priority cell (R42, R43). -/
def Ppu.cell (p : Ppu) (y x : Nat) : Colour × PrioCell := (gridRead 0 p.grid y x, gridRead PrioCell.clear p.prio y x)

/-! ### One sprite -/

/-- Pixel `i` of a sprite's row, counted from the left; the horizontal flip mirrors the row (R352). -/
def SpriteRow.pixel (sp : SpriteRow) (i : Nat) : Nat := planePixel sp.lo sp.hi (if sp.attr.getLsbD 6 = true then i else 7 - i)

/-- What an opaque pixel of a sprite puts into its cell (R352). -/
def SpriteRow.mark (sp : SpriteRow) (p : Ppu) (px : Nat) : Colour × PrioCell :=
  (palColour p (0x10 + (sp.attr &&& 3).toNat * 4 + px), ⟨true, sp.attr.getLsbD 5, sp.slot == 0 && p.spr0Sel⟩)

theorem Ppu.SpriteFrame.mark {p q : Ppu} (h : p.SpriteFrame q) (sp : SpriteRow) (px : Nat) : sp.mark q px = sp.mark p px := by
  rw [h]; rfl

/-- Pixel `i` of a sprite's row is drawn at a cell: it is opaque, inside the picture, and no sprite's pixel is there yet (R352). -/
abbrev SpriteRow.Draws (sp : SpriteRow) (p : Ppu) (y x i : Nat) : Prop :=
  x < 256 ∧ sp.pixel i ≠ 0 ∧ (p.cell y x).2.spr = false

/-- A cell after pixel `i` of a sprite's row falls on it (R352). -/
def SpriteRow.over (sp : SpriteRow) (p : Ppu) (y x i : Nat) : Colour × PrioCell :=
  if sp.Draws p y x i then sp.mark p (sp.pixel i) else p.cell y x

section
variable (row : Nat) (sp : SpriteRow) (p : Ppu)

theorem spritePixel_eq (i : Nat) :
    spritePixel row sp p i =
      if sp.Draws p row (sp.xpos + i) i then
        { p with
          grid := gridWrite 0 p.grid row (sp.xpos + i) (sp.mark p (sp.pixel i)).1
          prio := gridWrite PrioCell.clear p.prio row (sp.xpos + i) (sp.mark p (sp.pixel i)).2 }
      else p := by
  have hpixel : spritePixel row sp p i =
      if sp.pixel i = 0 ∨ 255 < sp.xpos + i then p
      else if (p.cell row (sp.xpos + i)).2.spr = true then p
      else { p with
        grid := gridWrite 0 p.grid row (sp.xpos + i) (sp.mark p (sp.pixel i)).1
        prio := gridWrite PrioCell.clear p.prio row (sp.xpos + i) (sp.mark p (sp.pixel i)).2 } := rfl
  have hinside : ¬255 < sp.xpos + i ↔ sp.xpos + i < 256 := by omega
  rw [hpixel, ← ite_or, ← ite_not]
  refine if_congr ?_ rfl rfl
  rw [not_or, not_or, hinside, Bool.not_eq_true, and_comm (a := ¬sp.pixel i = 0), and_assoc]

theorem spritePixel_spriteFrame (i : Nat) : p.SpriteFrame (spritePixel row sp p i) := by
  rw [spritePixel_eq]
  split <;> rfl

theorem spritePixel_cell (i y x : Nat) :
    (spritePixel row sp p i).cell y x = if y = row ∧ x = sp.xpos + i then sp.over p row x i else p.cell y x := by
  rw [spritePixel_eq]
  by_cases hcell : y = row ∧ x = sp.xpos + i
  · rw [if_pos hcell, SpriteRow.over, ← hcell.2, hcell.1]
    split
    · simp only [Ppu.cell, gridRead_write_same]
    · rfl
  · rw [if_neg hcell]
    split
    · simp only [Ppu.cell, gridRead_write, if_neg hcell]
    · rfl

/-- The first pixels of a sprite's row. -/
def spritePixels (n : Nat) : Ppu := (List.range n).foldl (spritePixel row sp) p

theorem spritePixels_succ (n : Nat) : spritePixels row sp p (n + 1) = spritePixel row sp (spritePixels row sp p n) n := by
  rw [spritePixels, List.range_succ, List.foldl_append]
  rfl

theorem spritePixels_spriteFrame (n : Nat) : p.SpriteFrame (spritePixels row sp p n) :=
  foldl_frame _ Ppu.SpriteFrame.refl Ppu.SpriteFrame.trans _ (spritePixel_spriteFrame row sp) _ _

/-- Each pixel falls on a column of its own. -/
theorem spritePixels_cell (n y x : Nat) :
    (spritePixels row sp p n).cell y x =
      if y = row ∧ sp.xpos ≤ x ∧ x < sp.xpos + n then sp.over p row x (x - sp.xpos) else p.cell y x := by
  induction n generalizing y x with
  | zero => rw [if_neg (by omega)]; rfl
  | succ n ih =>
    have hframe := spritePixels_spriteFrame row sp p n
    rw [spritePixels_succ, spritePixel_cell]
    generalize spritePixels row sp p n = q at ih hframe ⊢
    by_cases hcell : y = row ∧ x = sp.xpos + n
    · have hold : q.cell row x = p.cell row x := by rw [ih, if_neg (by omega)]
      rw [if_pos hcell, if_pos (by omega), show x - sp.xpos = n by omega]
      simp only [SpriteRow.over, SpriteRow.Draws, hold, hframe.mark]
    · rw [if_neg hcell, ih]
      refine if_congr ?_ rfl rfl
      omega

end

/-! ### The pattern bytes of a sprite's row (R351) -/

/-- The address of bit plane 0 of a sprite's row: the bank, the tile and the row in it that the control register, the tile byte, the
height and the vertical flip select (R351). -/
def spritePattern (p : Ppu) (tile attr : Byte) (row : Nat) : Nat :=
  let row := if attr.getLsbD 7 = true then spriteHeight p - 1 - row else row
  if spriteHeight p = 8 then (if p.regs.control.getLsbD 3 = true then 0x1000 else 0) + tile.toNat * 16 + row
  else tile.toNat % 2 * 0x1000 + (tile.toNat / 2 * 2 + row / 8) * 16 + row % 8

/-- A byte with bit 0 cleared. -/
theorem toNat_and_FE (b : Byte) : (b &&& 0xFE).toNat = b.toNat / 2 * 2 := by
  have hlt := b.isLt
  have : b &&& 0xFE = b.extractLsb' 1 7 ++ 0#1 := by
    refine BitVec.eq_of_getLsbD_eq fun i hi => ?_
    simp only [BitVec.getLsbD_and, BitVec.getLsbD_append, BitVec.getLsbD_extractLsb']
    interval_cases i <;> simp
  rw [this, toNat_append', toNat_extractLsb'_eq, BitVec.toNat_ofNat]
  omega

theorem spriteAddr_eq (p : Ppu) (tile attr : Byte) {row : Nat} (h : row < spriteHeight p) :
    spriteAddr p tile attr row = BitVec.ofNat 16 (spritePattern p tile attr row) := by
  have hheight : spriteHeight p = 8 ∨ spriteHeight p = 16 := by unfold spriteHeight; split <;> simp
  have hrow : (if attr.getLsbD 7 = true then spriteHeight p - 1 - row else row) < spriteHeight p := by split <;> omega
  unfold spriteAddr spritePattern
  dsimp only
  generalize (if attr.getLsbD 7 = true then spriteHeight p - 1 - row else row) = r at hrow ⊢
  by_cases h8 : spriteHeight p = 8
  · rw [if_pos h8, if_pos h8, tileAddr_eq]
  · have hlt := tile.isLt
    have hbank : (if tile.getLsbD 0 = true then 0x1000 else 0) = tile.toNat % 2 * 0x1000 := by
      rw [BitVec.getLsbD, Nat.testBit_zero]
      rcases Nat.mod_two_eq_zero_or_one tile.toNat with h | h <;> simp [h]
    have htop := toNat_and_FE tile
    have hbottom : ((tile &&& 0xFE) + 1).toNat = tile.toNat / 2 * 2 + 1 := by
      rw [BitVec.toNat_add, htop]
      change (_ + 1) % 256 = _
      omega
    rw [if_neg h8, if_neg h8, tileAddr_eq, tileAddr_eq, hbank, htop, hbottom]
    split <;> congr 1 <;> omega

/-! ### The sprites of secondary OAM, first come first shown (R350) -/

section
variable (line : Nat) (s : State)

/-- The row of the sprite in a slot of secondary OAM that falls on the row after `line`. -/
def slotRow (slot : Nat) : SpriteRow :=
  let addr := spriteAddr s.ppu (s.ppu.secOam.read (4 * slot + 1)) (s.ppu.secOam.read (4 * slot + 2))
    (line - (s.ppu.secOam.read (4 * slot)).toNat)
  { slot := slot
    attr := s.ppu.secOam.read (4 * slot + 2)
    xpos := (s.ppu.secOam.read (4 * slot + 3)).toNat
    lo := ppuRead s addr
    hi := ppuRead s (addr + 8) }

/-- The sprite in a slot of secondary OAM has a row on the row after `line`. -/
abbrev SlotMeets (slot : Nat) : Prop :=
  (s.ppu.secOam.read (4 * slot)).toNat ≤ line ∧ line < (s.ppu.secOam.read (4 * slot)).toNat + spriteHeight s.ppu

/-- The pixel that the sprite in a slot of secondary OAM has at column `x` of the row after `line`; 0 where it has none. -/
def slotPixel (slot x : Nat) : Nat :=
  if SlotMeets line s slot ∧ (slotRow line s slot).xpos ≤ x ∧ x < (slotRow line s slot).xpos + 8
  then (slotRow line s slot).pixel (x - (slotRow line s slot).xpos) else 0

theorem slotPixel_inside {slot x : Nat} (hmeets : SlotMeets line s slot) (hleft : (slotRow line s slot).xpos ≤ x)
    (hright : x < (slotRow line s slot).xpos + 8) :
    slotPixel line s slot x = (slotRow line s slot).pixel (x - (slotRow line s slot).xpos) :=
  if_pos ⟨hmeets, hleft, hright⟩

/-- What an opaque pixel of the sprite in a slot puts into its cell. -/
def slotMark (slot x : Nat) : Colour × PrioCell :=
  (slotRow line s slot).mark s.ppu (slotPixel line s slot x)

theorem spriteDrawSlot_eq {p : Ppu} (h : s.ppu.SpriteFrame p) (slot : Nat) :
    spriteDrawSlot line s p slot =
      if SlotMeets line s slot then spritePixels (line + 1) (slotRow line s slot) p 8 else p := by
  rw [h]; rfl

theorem spriteDrawSlot_spriteFrame {p : Ppu} (h : s.ppu.SpriteFrame p) (slot : Nat) :
    s.ppu.SpriteFrame (spriteDrawSlot line s p slot) := by
  rw [spriteDrawSlot_eq line s h]
  split
  · exact h.trans (spritePixels_spriteFrame ..)
  · exact h

/-- A sprite shows its opaque pixels where no sprite before it does. -/
theorem spriteDrawSlot_cell {p : Ppu} (h : s.ppu.SpriteFrame p) (slot y x : Nat) :
    (spriteDrawSlot line s p slot).cell y x =
      if y = line + 1 ∧ x < 256 ∧ slotPixel line s slot x ≠ 0 ∧ (p.cell y x).2.spr = false
      then slotMark line s slot x else p.cell y x := by
  rw [spriteDrawSlot_eq line s h]
  by_cases hcol : SlotMeets line s slot ∧ (slotRow line s slot).xpos ≤ x ∧ x < (slotRow line s slot).xpos + 8
  · obtain ⟨hmeets, hleft, hright⟩ := hcol
    rw [if_pos hmeets, slotMark, slotPixel_inside line s hmeets hleft hright, spritePixels_cell]
    by_cases hrow : y = line + 1
    · subst hrow
      rw [if_pos ⟨rfl, hleft, hright⟩, SpriteRow.over, h.mark]
      exact if_congr (and_iff_right rfl).symm rfl rfl
    · rw [if_neg fun hc => hrow hc.1, if_neg fun hc => hrow hc.1]
  · have hnone : slotPixel line s slot x = 0 := if_neg hcol
    simp only [hnone, ne_eq, not_true, false_and, and_false, if_false]
    split_ifs with hmeets
    · rw [spritePixels_cell, if_neg fun hc => hcol ⟨hmeets, hc.2⟩]
    · rfl

/-- The cell of a column shows the first of the sprites drawn that has an opaque pixel there. -/
theorem spriteDrawSlots_cell (slots : List Nat) {p : Ppu} (h : s.ppu.SpriteFrame p) (y x : Nat) :
    (slots.foldl (spriteDrawSlot line s) p).cell y x =
      if y = line + 1 ∧ x < 256 ∧ (p.cell y x).2.spr = false
      then (slots.find? fun slot => slotPixel line s slot x != 0).elim (p.cell y x) (slotMark line s · x)
      else p.cell y x := by
  induction slots generalizing p with
  | nil => exact (ite_self _).symm
  | cons slot slots ih =>
    have hcell := spriteDrawSlot_cell line s h slot y x
    rw [List.foldl_cons, ih (spriteDrawSlot_spriteFrame line s h slot)]
    generalize (spriteDrawSlot line s p slot).cell y x = c at hcell ⊢
    by_cases hfree : y = line + 1 ∧ x < 256 ∧ (p.cell y x).2.spr = false
    · obtain ⟨hy, hx, hspr⟩ := hfree
      by_cases hshows : slotPixel line s slot x = 0
      · rw [if_neg fun hc => hc.2.2.1 hshows] at hcell
        rw [hcell, List.find?_cons_of_neg (by simp [hshows])]
      · rw [if_pos ⟨hy, hx, hshows, hspr⟩] at hcell
        rw [hcell, if_neg fun hc => Bool.noConfusion hc.2.2, if_pos ⟨hy, hx, hspr⟩,
          List.find?_cons_of_pos (by simp [hshows])]
        rfl
    · rw [if_neg fun hc => hfree ⟨hc.1, hc.2.1, hc.2.2.2⟩] at hcell
      rw [hcell, if_neg hfree, if_neg hfree]

theorem spriteDrawSlots_spriteFrame (slots : List Nat) {p : Ppu} (h : s.ppu.SpriteFrame p) :
    s.ppu.SpriteFrame (slots.foldl (spriteDrawSlot line s) p) :=
  foldl_inv s.ppu.SpriteFrame _ slots (fun _ slot _ h => spriteDrawSlot_spriteFrame line s h slot) h

end

/-- Drawing past the last row does nothing (R350). -/
theorem spriteDraw_past {line : Nat} (s : State) (h : 239 ≤ line) : spriteDraw line s = s.ppu := if_pos (by omega)

/-- The state with the priority cells of a row cleared (R350). -/
def Ppu.clearPrioRow (p : Ppu) (row : Nat) : Ppu := { p with prio := gridClearRow p.prio row }

theorem Ppu.clearPrioRow_spriteFrame (p : Ppu) (row : Nat) : p.SpriteFrame (p.clearPrioRow row) := rfl

theorem Ppu.clearPrioRow_cell (p : Ppu) (row y x : Nat) :
    (p.clearPrioRow row).cell y x = if y = row then (gridRead 0 p.grid y x, PrioCell.clear) else p.cell y x := by
  unfold Ppu.cell Ppu.clearPrioRow
  dsimp only
  rw [gridRead_clearRow]
  split <;> rfl

theorem spriteDraw_eq {line : Nat} (s : State) (h : line < 239) :
    spriteDraw line s =
      if s.ppu.regs.mask.getLsbD 4 = true then
        (List.range s.ppu.secCount).foldl (spriteDrawSlot line s) (s.ppu.clearPrioRow (line + 1))
      else s.ppu.clearPrioRow (line + 1) := if_neg (by omega)

theorem spriteDraw_spriteFrame (line : Nat) (s : State) : s.ppu.SpriteFrame (spriteDraw line s) := by
  have hclear := s.ppu.clearPrioRow_spriteFrame (line + 1)
  obtain hlast | hline := le_or_gt 239 line
  · rw [spriteDraw_past s hlast]
    exact .refl _
  · rw [spriteDraw_eq s hline]
    split
    · exact spriteDrawSlots_spriteFrame line s _ hclear
    · exact hclear

/-- The sprite that owns a column of the row after `line`: the first with an opaque pixel there (R350, R352). -/
def slotOwner (line : Nat) (s : State) (x : Nat) : Option Nat :=
  (List.range s.ppu.secCount).find? fun slot => slotPixel line s slot x != 0

theorem spriteDraw_cell_next {line : Nat} (s : State) (h : line < 239) (x : Nat) :
    (spriteDraw line s).cell (line + 1) x =
      (if s.ppu.regs.mask.getLsbD 4 = true ∧ x < 256 then slotOwner line s x else none).elim
        (gridRead 0 s.ppu.grid (line + 1) x, PrioCell.clear) (slotMark line s · x) := by
  have hclear := s.ppu.clearPrioRow_spriteFrame (line + 1)
  rw [spriteDraw_eq s h]
  by_cases hon : s.ppu.regs.mask.getLsbD 4 = true
  · rw [if_pos hon, spriteDrawSlots_cell line s _ hclear, Ppu.clearPrioRow_cell, if_pos rfl]
    by_cases hx : x < 256
    · rw [if_pos ⟨rfl, hx, rfl⟩, if_pos ⟨hon, hx⟩]
      rfl
    · rw [if_neg fun hc => hx hc.2.1, if_neg fun hc => hx hc.2]
      rfl
  · rw [if_neg hon, Ppu.clearPrioRow_cell, if_pos rfl, if_neg fun hc => hon hc.1]
    rfl

theorem spriteDraw_cell_other (line : Nat) (s : State) {y : Nat} (h : y ≠ line + 1) (x : Nat) :
    (spriteDraw line s).cell y x = s.ppu.cell y x := by
  have hclear := s.ppu.clearPrioRow_spriteFrame (line + 1)
  have hkept : (s.ppu.clearPrioRow (line + 1)).cell y x = s.ppu.cell y x := by rw [Ppu.clearPrioRow_cell, if_neg h]
  obtain hlast | hline := le_or_gt 239 line
  · rw [spriteDraw_past s hlast]
  · rw [spriteDraw_eq s hline]
    split
    · rw [spriteDrawSlots_cell line s _ hclear, if_neg fun hc => h hc.1, hkept]
    · exact hkept

/-- The pixel of a slot in numbers (R351, R352). -/
theorem slotPixel_eq (line : Nat) (s : State) (slot x : Nat) :
    let sprite := fun j => s.ppu.secOam.read (4 * slot + j)
    let pattern := spritePattern s.ppu (sprite 1) (sprite 2) (line - (sprite 0).toNat)
    let i := x - (sprite 3).toNat
    let b := if (sprite 2).getLsbD 6 = true then i else 7 - i
    slotPixel line s slot x =
      if (sprite 0).toNat ≤ line ∧ line < (sprite 0).toNat + spriteHeight s.ppu ∧ (sprite 3).toNat ≤ x ∧ i < 8 then
        2 * ((ppuRead s (BitVec.ofNat 16 (pattern + 8))).getLsbD b).toNat + ((ppuRead s (BitVec.ofNat 16 pattern)).getLsbD b).toNat
      else 0 := by
  intro sprite pattern i b
  by_cases hinside : SlotMeets line s slot ∧ (sprite 3).toNat ≤ x ∧ x < (sprite 3).toNat + 8
  · obtain ⟨⟨htop, hbottom⟩, hleft, hright⟩ := hinside
    have haddr : spriteAddr s.ppu (sprite 1) (sprite 2) (line - (sprite 0).toNat) = BitVec.ofNat 16 pattern :=
      spriteAddr_eq s.ppu _ _ (Nat.sub_lt_left_of_lt_add htop hbottom)
    have hrow : slotRow line s slot =
        ⟨slot, sprite 2, (sprite 3).toNat, ppuRead s (BitVec.ofNat 16 pattern), ppuRead s (BitVec.ofNat 16 (pattern + 8))⟩ := by
      rw [BitVec.ofNat_add, ← haddr]
      rfl
    rw [slotPixel_inside line s ⟨htop, hbottom⟩ hleft hright, hrow,
      if_pos ⟨htop, hbottom, hleft, Nat.sub_lt_left_of_lt_add hleft hright⟩]
    rfl
  · refine (if_neg hinside).trans (if_neg fun ⟨htop, hbottom, hleft, hi⟩ => hinside ⟨⟨htop, hbottom⟩, hleft, ?_⟩).symm
    omega

/-- Settles O55: the sprites are drawn one after the other into a row cleared of sprite cells, so the first of a column stays. -/
theorem spriteDrawDrawsTheNextRow : Obligations.SpriteDrawDrawsTheNextRow := by
  unfold Obligations.SpriteDrawDrawsTheNextRow
  intro s line p q height sprite top left attr pattern fetch px owner
  have hpx : ∀ slot x, slotPixel line s slot x = px slot x := fun slot x => slotPixel_eq line s slot x
  have howner : ∀ x, slotOwner line s x = owner x := fun x => by
    simp only [slotOwner, owner, hpx]
    rfl
  refine ⟨spriteDraw_spriteFrame line s, spriteDraw_past s, fun r x hr => ?otherRows, fun hline x => ?nextRow⟩
  case otherRows => exact Prod.mk.inj (spriteDraw_cell_other line s hr x)
  case nextRow =>
    have hcell := spriteDraw_cell_next s hline x
    rw [howner] at hcell
    split
    next hnone =>
      rw [hnone] at hcell
      exact Prod.mk.inj hcell
    next slot hsome =>
      rw [hsome] at hcell
      obtain ⟨hcolour, hprio⟩ := Prod.mk.inj hcell
      refine ⟨hcolour.trans ((palColour_eq p _).trans ?_), hprio⟩
      rw [hpx, toNat_and_03]
      rfl

end Sys2Proof.Machine
end

section
/-! The statements of the cartridge family (55_cartridge_mapper.md): the serial port, the PRG and CHR banks, and the load of an
image. -/

namespace Sys2Proof.Machine

/-! ## The bus at 0x8000 and above (R71) -/

theorem busTarget_prgRom_iff (a : Word) : busTarget a = .prgRom ↔ 0x8000 ≤ a.toNat := by
  unfold busTarget
  dsimp only
  split_ifs <;> simp <;> omega

section
variable {s : State} {a : Word} (h : 0x8000 ≤ a.toNat)
include h

theorem busValue_prgRom : busValue s a = prgRead s a := by simp only [busValue, (busTarget_prgRom_iff a).2 h]

theorem busAfterRead_prgRom : busAfterRead s a = s := by simp only [busAfterRead, (busTarget_prgRom_iff a).2 h]

theorem busWrite_prgRom (v : Byte) : busWrite s a v = mapperWrite s a v := by
  simp only [busWrite, (busTarget_prgRom_iff a).2 h]

end

/-- The low bits of a bit vector as a number. -/
theorem toNat_lowBits {n : Nat} (x : BitVec n) (len : Nat) : (x.extractLsb' 0 len).toNat = x.toNat % 2 ^ len := by
  rw [toNat_extractLsb'_eq, Nat.pow_zero, Nat.div_one]

/-! ## The serial port (R383 to R385) -/

/-- The accumulator after a qualifying write: the low bit written enters from the top (R384). -/
def shiftedIn (val : Byte) (shift : BitVec 5) : BitVec 5 := BitVec.ofNat 5 (shift.toNat / 2 + val.toNat % 2 * 16)

theorem shiftedIn_toNat (val : Byte) (shift : BitVec 5) : (shiftedIn val shift).toNat = shift.toNat / 2 + val.toNat % 2 * 16 := by
  have := shift.isLt
  rw [shiftedIn, BitVec.toNat_ofNat, Nat.mod_eq_of_lt (by omega)]

theorem shiftedIn_eq (val : Byte) (shift : BitVec 5) :
    (shift >>> 1) ||| ((BitVec.ofBool (val.getLsbD 0)).setWidth 5 <<< 4) = shiftedIn val shift := by
  have hsplit : (shift >>> 1) ||| ((BitVec.ofBool (val.getLsbD 0)).setWidth 5 <<< 4) =
      val.extractLsb' 0 1 ++ shift.extractLsb' 1 4 := by
    refine BitVec.eq_of_getLsbD_eq fun i hi => ?_
    simp only [BitVec.getLsbD_append, BitVec.getLsbD_extractLsb']
    interval_cases i <;> simp
  have h := shift.isLt
  refine BitVec.eq_of_toNat_eq ?_
  rw [hsplit, toNat_append', toNat_extractLsb'_eq, toNat_extractLsb'_eq, shiftedIn_toNat]
  omega

theorem serialWrite_reset {b : Byte} (h : b.getLsbD 7 = true) (a : Word) (m : Mapper) :
    serialWrite a b m = { m with shift := 0, count := 0 } :=
  if_pos h

theorem serialWrite_qualifying {b : Byte} (h : b.getLsbD 7 = false) (a : Word) (m : Mapper) :
    serialWrite a b m =
      if m.count = 4 then serialCommit a (shiftedIn b m.shift) m
      else { m with shift := shiftedIn b m.shift, count := m.count + 1 } := by
  have hcount : m.count + 1 = 5 ↔ m.count = 4 := by omega
  simp only [serialWrite, h, shiftedIn_eq, hcount, Bool.false_eq_true, if_false]

/-- A qualifying write that is not the fifth counts (R384). -/
theorem serialWrite_counts {b : Byte} (h : b.getLsbD 7 = false) (a : Word) {m : Mapper} (hc : m.count ≠ 4) :
    serialWrite a b m = { m with shift := shiftedIn b m.shift, count := m.count + 1 } :=
  (serialWrite_qualifying h a m).trans (if_neg hc)

theorem serialWrite_fifth {b : Byte} (h : b.getLsbD 7 = false) (a : Word) {m : Mapper} (hc : m.count = 4) :
    serialWrite a b m = serialCommit a (shiftedIn b m.shift) m :=
  (serialWrite_qualifying h a m).trans (if_pos hc)

/-- The fifth write commits what five writes from a count of 0 shifted in, wherever the first four went (R384). -/
theorem serialWrite_five {m : Mapper} (hm : m.count = 0) {b₀ b₁ b₂ b₃ b₄ : Byte}
    (h : ∀ b ∈ [b₀, b₁, b₂, b₃, b₄], b.getLsbD 7 = false) (a₀ a₁ a₂ a₃ a₄ : Word) :
    serialWrite a₄ b₄ (serialWrite a₃ b₃ (serialWrite a₂ b₂ (serialWrite a₁ b₁ (serialWrite a₀ b₀ m)))) =
      serialCommit a₄ (shiftedIn b₄ (shiftedIn b₃ (shiftedIn b₂ (shiftedIn b₁ (shiftedIn b₀ m.shift))))) m := by
  simp only [List.forall_mem_cons] at h
  obtain ⟨h₀, h₁, h₂, h₃, h₄, -⟩ := h
  rw [serialWrite_counts h₀ a₀ (by simp [hm]), serialWrite_counts h₁ a₁ (by simp [hm]), serialWrite_counts h₂ a₂ (by simp [hm]),
    serialWrite_counts h₃ a₃ (by simp [hm]), serialWrite_fifth h₄ a₄ (by simp [hm])]
  rfl

/-- Five shifts push all old bits out, and the first bit written ends lowest (R384). -/
theorem shiftedIn_five (b₀ b₁ b₂ b₃ b₄ : Byte) (shift : BitVec 5) :
    shiftedIn b₄ (shiftedIn b₃ (shiftedIn b₂ (shiftedIn b₁ (shiftedIn b₀ shift)))) =
      BitVec.ofNat 5 (b₀.toNat % 2 + b₁.toNat % 2 * 2 + b₂.toNat % 2 * 4 + b₃.toNat % 2 * 8 + b₄.toNat % 2 * 16) := by
  have h := shift.isLt
  refine BitVec.eq_of_toNat_eq ?_
  simp only [shiftedIn_toNat, BitVec.toNat_ofNat]
  omega

theorem mirroringOf_eq (control : BitVec 5) :
    mirroringOf control =
      if control.toNat % 4 = 0 then .singleLower else if control.toNat % 4 = 1 then .singleUpper
      else if control.toNat % 4 = 2 then .vertical else .horizontal := by
  have hbits : (control.extractLsb' 0 2).toNat = control.toNat % 4 := toNat_lowBits control 2
  have := Nat.mod_lt control.toNat (show 0 < 4 by decide)
  unfold mirroringOf
  rw [hbits]
  interval_cases control.toNat % 4 <;> rfl

theorem serialCommit_eq (a : Word) (value : BitVec 5) (m : Mapper) :
    serialCommit a value m =
      if a.toNat / 0x2000 % 4 = 0 then { m with shift := 0, count := 0, control := value, mirroring := mirroringOf value }
      else if a.toNat / 0x2000 % 4 = 1 then { m with shift := 0, count := 0, chr0 := value }
      else if a.toNat / 0x2000 % 4 = 2 then { m with shift := 0, count := 0, chr1 := value }
      else { m with shift := 0, count := 0, prg := value } := by
  have hbits : (a.extractLsb' 13 2).toNat = a.toNat / 0x2000 % 4 := toNat_extractLsb'_eq a 13 2
  have := Nat.mod_lt (a.toNat / 0x2000) (show 0 < 4 by decide)
  unfold serialCommit
  rw [hbits]
  interval_cases a.toNat / 0x2000 % 4 <;> rfl

/-- Settles O56: a qualifying write shifts one bit in, so five of them replace the accumulator and the fifth commits it. -/
theorem fiveSerialWritesCommit : Obligations.FiveSerialWritesCommit := by
  unfold Obligations.FiveSerialWritesCommit
  refine ⟨fun s c a v hc ha => ?bus, fun m b₀ b₁ b₂ b₃ b₄ a₀ a₁ a₂ a₃ a₄ => ?port⟩
  case bus =>
    rw [busWrite_prgRom ha]
    cases hk : c.kind with
    | fixed => simp only [mapperWrite, hc, hk]
    | serialShift => simp only [mapperWrite, hc, hk]
  case port =>
    intro commit
    have hcommit : ∀ a value, serialCommit a value m = commit a value := fun a value => by
      rw [serialCommit_eq, mirroringOf_eq]
    refine ⟨fun h => serialWrite_reset h a₀ m, fun h => ?_, fun hm h => ?_⟩
    · rw [serialWrite_qualifying h, hcommit]
      rfl
    · rw [serialWrite_five hm h, shiftedIn_five, hcommit]

/-! ## The PRG banks (R380, R386, R387) -/

theorem prgRead_of_cart {s : State} {c : Cartridge} (h : s.cart = some c) (a : Word) :
    prgRead s a = c.prg.read (prgIndex s.params c s.map a) := by
  simp only [prgRead, h]

/-- A bank reduced modulo the number of banks, with an offset inside it, is inside the data. -/
theorem bankIndex_lt (bank a : Nat) {banks size : Nat} (hb : 0 < banks) (hs : 0 < size) :
    bank % banks * size + a % size < size * banks :=
  calc bank % banks * size + a % size < bank % banks * size + size := Nat.add_lt_add_left (Nat.mod_lt a hs) _
    _ = (bank % banks + 1) * size := (Nat.succ_mul _ _).symm
    _ ≤ banks * size := Nat.mul_le_mul_right size (Nat.mod_lt bank hb)
    _ = size * banks := Nat.mul_comm _ _

/-- The banks of the two windows under serial-shift mapping, by the PRG mode (R387). -/
theorem prgBanks_serialShift (params : Params) {c : Cartridge} (hk : c.kind = .serialShift) (m : Mapper) :
    prgBanks params c m =
      let mode := m.control.toNat / 4 % 4
      let p := m.prg.toNat % 16
      if mode = 3 then (p, c.prgBanks - 1)
      else if mode = 2 then (if params.fixedLow = .last then c.prgBanks - 1 else 0, p)
      else (p - p % 2, p - p % 2 + 1) := by
  have hmode : (m.control.extractLsb' 2 2).toNat = m.control.toNat / 4 % 4 := toNat_extractLsb'_eq m.control 2 2
  have hp : (m.prg.extractLsb' 0 4).toNat = m.prg.toNat % 16 := toNat_lowBits m.prg 4
  have := Nat.mod_lt (m.control.toNat / 4) (show 0 < 4 by decide)
  simp only [prgBanks, hk, hmode, hp, Nat.div_mul_self_eq_mod_sub_self]
  interval_cases m.control.toNat / 4 % 4
  · rfl
  · rfl
  · cases params.fixedLow <;> rfl
  · rfl

/-- Settles O57: the bank is reduced modulo the bank count, and the windows' banks are the mapper's. -/
theorem prgIndexStaysInsidePrg : Obligations.PrgIndexStaysInsidePrg := by
  unfold Obligations.PrgIndexStaysInsidePrg
  intro s c a hc hbanks i mode p last bank
  refine ⟨bankIndex_lt _ _ hbanks (by decide), ?index, fun ha => ⟨?value, busAfterRead_prgRom ha⟩⟩
  case index =>
    have hbank : (if a.toNat < 0xC000 then (prgBanks s.params c s.map).1 else (prgBanks s.params c s.map).2) = bank := by
      cases hk : c.kind with
      | fixed => simp only [bank, hk, prgBanks]; rfl
      | serialShift =>
        simp only [bank, hk, prgBanks_serialShift s.params hk]
        split_ifs <;> rfl
    rw [← hbank]
    rfl
  case value => rw [busValue_prgRom ha, prgRead_of_cart hc]

/-! ## The CHR banks (R381, R382, R386, R389) -/

theorem chrBank_fixed {c : Cartridge} (hk : c.kind = .fixed) (m : Mapper) (a : Nat) :
    chrBank c m a = if a < 0x1000 then 0 else 1 := by
  simp only [chrBank, chrBanks, hk]

theorem chrBank_serialShift {c : Cartridge} (hk : c.kind = .serialShift) (m : Mapper) (a : Nat) :
    chrBank c m a =
      if m.control.getLsbD 4 = true then (if a < 0x1000 then m.chr0.toNat else m.chr1.toNat)
      else (if a < 0x1000 then m.chr0.toNat - m.chr0.toNat % 2 else m.chr0.toNat - m.chr0.toNat % 2 + 1) := by
  simp only [chrBank, chrBanks, hk, Nat.div_mul_self_eq_mod_sub_self]
  split_ifs <;> rfl

/-! Below 0x2000 the PPU bus is the cartridge's (R90, R91). -/

theorem ppuRead_chr (s : State) {a : Word} (h : a.toNat < 0x2000) : ppuRead s a = chrRead s a.toNat := by
  simp only [ppuRead, show a.toNat % 0x4000 = a.toNat by omega, h, if_true]

theorem ppuWrite_chr (s : State) {a : Word} (h : a.toNat < 0x2000) (v : Byte) : ppuWrite s a v = chrWrite s a.toNat v := by
  simp only [ppuWrite, show a.toNat % 0x4000 = a.toNat by omega, h, if_true]

section
variable {s : State} {c : Cartridge} (hc : s.cart = some c)
include hc

theorem chrRead_rom (h : c.chrBanks ≠ 0) (a : Nat) : chrRead s a = c.chr.read (chrRomIndex c s.map a) := by
  simp only [chrRead, hc, h, if_false]

theorem chrRead_ram (h : c.chrBanks = 0) (a : Nat) : chrRead s a = s.map.chrRam.read (chrRamIndex c s.map a) := by
  simp only [chrRead, hc, h, if_true]

theorem chrWrite_rom (h : c.chrBanks ≠ 0) (a : Nat) (v : Byte) : chrWrite s a v = s := by
  simp only [chrWrite, hc, h, if_false]

theorem chrWrite_ram (h : c.chrBanks = 0) (a : Nat) (v : Byte) :
    chrWrite s a v = { s with map := { s.map with chrRam := s.map.chrRam.write (chrRamIndex c s.map a) v } } := by
  simp only [chrWrite, hc, h, if_true]

end

/-- Settles O58: the PPU bus below 0x2000 is one of two storages, by whether the image has CHR banks. -/
theorem chrIsRomOrRam : Obligations.ChrIsRomOrRam := by
  unfold Obligations.ChrIsRomOrRam
  intro s c a v hc ha c0 low bank t
  have hbank : chrBank c s.map a.toNat = bank := by
    cases hk : c.kind with
    | fixed => simp only [bank, hk, chrBank_fixed hk]; rfl
    | serialShift => simp only [bank, hk, chrBank_serialShift hk]; rfl
  refine ⟨fun h => ?rom, fun h => ?ram⟩
  case rom =>
    intro i
    have hi : chrRomIndex c s.map a.toNat = i := by rw [chrRomIndex, hbank]
    refine ⟨?_, ?_, (ppuWrite_chr s ha v).trans (chrWrite_rom hc h _ v)⟩
    · have hlt := bankIndex_lt bank a.toNat (show 0 < 2 * c.chrBanks by omega) (show 0 < 0x1000 by decide)
      omega
    · rw [ppuRead_chr s ha, chrRead_rom hc h, hi]
  case ram =>
    intro i
    have hi : chrRamIndex c s.map a.toNat = i := by rw [chrRamIndex, hbank]
    have ht : t = { s with map := { s.map with chrRam := s.map.chrRam.write i v } } :=
      hi ▸ (ppuWrite_chr s ha v).trans (chrWrite_ram hc h _ v)
    rw [ppuRead_chr s ha, chrRead_ram hc h, hi, ht]
    exact ⟨bankIndex_lt bank a.toNat (by decide) (by decide), rfl, rfl, fun n => Memory.read_write s.map.chrRam i n v⟩

/-! ## The load of an image (R370 to R373, R451) -/

/-- The byte of two high nibbles. -/
theorem toNat_highNibbles (hi lo : Byte) : ((hi &&& 0xF0) ||| (lo >>> 4)).toNat = hi.toNat / 16 * 16 + lo.toNat / 16 := by
  have h : ((hi &&& 0xF0) ||| (lo >>> 4) : Byte) = hi.extractLsb' 4 4 ++ lo.extractLsb' 4 4 := by
    refine BitVec.eq_of_getLsbD_eq fun i hi => ?_
    simp only [BitVec.getLsbD_append, BitVec.getLsbD_extractLsb']
    interval_cases i <;> simp
  have hhi := hi.isLt
  have hlo := lo.isLt
  rw [h, toNat_append', toNat_extractLsb'_eq, toNat_extractLsb'_eq]
  omega

theorem mapperNumber_toNat (bytes : List Byte) :
    (mapperNumber bytes).toNat = (bytes.getD 7 0).toNat / 16 * 16 + (bytes.getD 6 0).toNat / 16 :=
  toNat_highNibbles _ _

/-- A header that is too short, has not the magic bytes, or announces no PRG bank (R370, R372). -/
def BadHeader (bytes : List Byte) : Prop := bytes.length < 16 ∨ bytes.take 4 ≠ magic ∨ bytes.getD 4 0 = 0

section
variable {bytes : List Byte}

theorem parseImage_badHeader (h : BadHeader bytes) : parseImage bytes = .error .invalidHeader := by
  unfold parseImage
  obtain h | h | h := h
  · rw [if_pos h]
  · rw [if_pos h, ite_self]
  · rw [if_pos h, ite_self, ite_self]

section
variable (hheader : ¬BadHeader bytes)
include hheader

/-- The checks after those of the header, on the mapper number (R371, R372). -/
theorem parseImage_goodHeader :
    parseImage bytes =
      if 2 ≤ (mapperNumber bytes).toNat then .error (.unsupportedMapper (mapperNumber bytes))
      else if bytes.length < announcedLength bytes then .error .invalidHeader
      else .ok (cartridgeOf bytes (if (mapperNumber bytes).toNat = 0 then .fixed else .serialShift)) := by
  obtain ⟨hlength, hmagic, hbanks⟩ : ¬bytes.length < 16 ∧ ¬bytes.take 4 ≠ magic ∧ ¬bytes.getD 4 0 = 0 := by
    simpa only [BadHeader, not_or] using hheader
  have hzero : mapperNumber bytes = 0 ↔ (mapperNumber bytes).toNat = 0 := BitVec.toNat_eq
  have hone : mapperNumber bytes = 1 ↔ (mapperNumber bytes).toNat = 1 := BitVec.toNat_eq
  have hmapper : (mapperNumber bytes ≠ 0 ∧ mapperNumber bytes ≠ 1) ↔ 2 ≤ (mapperNumber bytes).toNat := by
    rw [Ne, Ne, hzero, hone]
    omega
  simp only [parseImage, if_neg hlength, if_neg hmagic, if_neg hbanks, hmapper, hzero]

theorem parseImage_unsupported (h : 2 ≤ (mapperNumber bytes).toNat) :
    parseImage bytes = .error (.unsupportedMapper (mapperNumber bytes)) := by
  rw [parseImage_goodHeader hheader, if_pos h]

theorem parseImage_truncated (h : (mapperNumber bytes).toNat < 2) (hlength : bytes.length < announcedLength bytes) :
    parseImage bytes = .error .invalidHeader := by
  rw [parseImage_goodHeader hheader, if_neg (Nat.not_le.2 h), if_pos hlength]

theorem parseImage_ok (h : (mapperNumber bytes).toNat < 2) (hlength : announcedLength bytes ≤ bytes.length) :
    parseImage bytes = .ok (cartridgeOf bytes (if (mapperNumber bytes).toNat = 0 then .fixed else .serialShift)) := by
  rw [parseImage_goodHeader hheader, if_neg (Nat.not_le.2 h), if_neg (Nat.not_lt.2 hlength)]

end

theorem hostCall_load_error {e : RomError} (h : parseImage bytes = .error e) (s : State) :
    hostCall (.loadCartridge (some bytes)) s = (.romError e, s) := by
  simp only [hostCall, h]

theorem hostCall_load_ok {c : Cartridge} (h : parseImage bytes = .ok c) (s : State) :
    hostCall (.loadCartridge (some bytes)) s = (.done, insertCartridge c s) := by
  simp only [hostCall, h]

end

/-- A memory made from a slice of an image holds the image's bytes. -/
theorem Memory.read_ofBytes_slice (bytes : List Byte) (offset : Nat) {i len : Nat} (h : i < len) :
    (Memory.ofBytes ((bytes.drop offset).take len)).read i = bytes.getD (offset + i) 0 := by
  have hread := Memory.read_ofBytesFrom ((bytes.drop offset).take len) 0 i
  rw [Nat.zero_add] at hread
  rw [Memory.ofBytes, hread]
  simp only [List.getD_eq_getElem?_getD, List.getElem?_take_of_lt h, List.getElem?_drop]
  rfl

/-- `Init` sets `PC` to the word at the reset vector, as it reads after the call (R451). -/
theorem hostInit_pc (s : State) :
    (hostInit s).cpu.pc.toNat = (busPeek (hostInit s) 0xFFFD).toNat * 256 + (busPeek (hostInit s) 0xFFFC).toNat :=
  toNat_wordOf _ _

/-- Settles O60: each check that fails gives its error, and an image that passes them all is inserted, after which `Init` sets the
CPU registers and a step completes. -/
theorem loadCartridgeOrError : Obligations.LoadCartridgeOrError := by
  unfold Obligations.LoadCartridgeOrError
  intro bytes s byte prgLen chrLen offset mapper badHeader r
  have hmapper : (mapperNumber bytes).toNat = mapper := mapperNumber_toNat bytes
  have hnumber : mapperNumber bytes = BitVec.ofNat 8 mapper := by rw [← hmapper, BitVec.ofNat_toNat, BitVec.setWidth_eq]
  refine ⟨rfl, fun h => hostCall_load_error (parseImage_badHeader h) s, fun hheader hm => ?unsupported,
    fun hheader hm hlength => ?truncated, fun hheader hm hlength => ?loaded⟩
  case unsupported =>
    rw [← hnumber]
    exact hostCall_load_error (parseImage_unsupported hheader (hmapper ▸ hm)) s
  case truncated => exact hostCall_load_error (parseImage_truncated hheader (hmapper ▸ hm) hlength) s
  case loaded =>
    have hr := hostCall_load_ok (parseImage_ok hheader (hmapper ▸ hm) hlength) s
    rw [hmapper] at hr
    intro t
    have ht : t = insertCartridge (cartridgeOf bytes (if mapper = 0 then .fixed else .serialShift)) s := congrArg Prod.snd hr
    rw [ht]
    obtain ⟨u, hstep, -⟩ :=
      step_total (s := insertCartridge (cartridgeOf bytes (if mapper = 0 then .fixed else .serialShift)) s) rfl
    refine ⟨congrArg Prod.fst hr, ⟨_, rfl, rfl, rfl, rfl, ?prg, ?chr, rfl, rfl, rfl, rfl, ?vs, ?version⟩,
      rfl, rfl, rfl, rfl, rfl, rfl, rfl, fun n => ⟨rfl, rfl⟩, rfl, rfl, rfl, rfl, rfl, ?pc, rfl, u, hstep⟩
    case prg => exact fun i => Memory.read_ofBytes_slice bytes offset
    case chr => exact fun i => Memory.read_ofBytes_slice bytes (offset + prgLen)
    case vs => exact toNat_lowBits (byte 7) 2
    case version => exact toNat_extractLsb'_eq (byte 7) 2 2
    case pc => exact hostInit_pc _

end Sys2Proof.Machine
end

section
/-! The statements of the reset family (70_reset_and_hazards.md): the refusals before a load, and `reset()`. -/

namespace Sys2Proof.Machine

/-! ## Without a cartridge (R455) -/

section
variable {s : State} (hc : s.cart = none)
include hc

theorem step_unloaded : step s = .refused .noCartridge := by
  simp only [step, hc]

theorem whenLoaded_unloaded (r : HostReply × State) : whenLoaded s r = (.refused .noCartridge, s) := by
  simp only [whenLoaded, hc]

/-- A peek in the cartridge's space needs a cartridge. -/
theorem hostCall_peek_unloaded {a : Word} (ha : 0x8000 ≤ a.toNat) : hostCall (.peek a) s = (.refused .noCartridge, s) :=
  (if_neg (Nat.not_lt.2 ha)).trans (whenLoaded_unloaded hc _)

end

/-- Settles O8: every call of the list waits for a cartridge, whatever it would answer with one. -/
theorem unloadedMachineIsRefused : Obligations.UnloadedMachineIsRefused := by
  unfold Obligations.UnloadedMachineIsRefused
  intro s hc
  have refused := whenLoaded_unloaded hc
  exact ⟨step_unloaded hc, refused _, refused _, refused _, refused _, fun _ ha => hostCall_peek_unloaded hc ha⟩

/-! ## `reset()` (R451, R452) -/

theorem whenLoaded_loaded {s : State} {c : Cartridge} (hc : s.cart = some c) (r : HostReply × State) : whenLoaded s r = r := by
  simp only [whenLoaded, hc]

/-- `reset()` of a loaded machine is `Init` (R451). -/
theorem hostCall_reset_loaded {s : State} {c : Cartridge} (hc : s.cart = some c) :
    hostCall .reset s = (.done, hostInit s) :=
  whenLoaded_loaded hc _

/-- Settles O59: `Init` replaces the CPU registers alone, with `PC` the word at the reset vector before the call. -/
theorem resetSetsCpuRegistersOnly : Obligations.ResetSetsCpuRegistersOnly := by
  unfold Obligations.ResetSetsCpuRegistersOnly
  intro s c hc
  rw [hostCall_reset_loaded hc]
  exact ⟨rfl, rfl, rfl, rfl, rfl, rfl, toNat_wordOf (busPeek s 0xFFFD) (busPeek s 0xFFFC)⟩

end Sys2Proof.Machine
end
